-- ==== Sys2Proof/Word.lean ====
section
/-! DEFINITION. The word types of the hardware (spec R8: every value is an unsigned bit string). -/

namespace Sys2Proof

/-- A byte: bit 7 is the most significant (R8). -/
abbrev Byte := BitVec 8

/-- A 16-bit value: a flat address, a port, a register field (R8). -/
abbrev Half := BitVec 16

end Sys2Proof
end

