-- ==== Sys2Proof/Config.lean ====
section
/-! DEFINITION. The implementation parameters (spec R6), the environment's inputs (R7, R280, R314, R320)
and the free values that stand for what the spec leaves to the environment. The parameters' default
VALUES stand in Sys2Proof/Machine/Params.lean. -/

namespace Sys2Proof

/-- The decoder variant, fixed for the instance's lifetime (R2, R322). -/
inductive Model where
  | a  -- single-byte transactions
  | b  -- burst transactions
  deriving DecidableEq, Repr, Inhabited

/-- The identity of a chip (R1): the repository it is taken from and its model name. -/
structure Identity where
  repository : String
  name : String
  deriving DecidableEq, Repr, Inhabited

/-- The parameter `FIELD16_ORDER` (R6, R37). -/
inductive FieldOrder where
  | le  -- the lower cell holds bits 7:0
  | be  -- the lower cell holds bits 15:8
  deriving DecidableEq, Repr, Inhabited

/-- An IPv4 address `b0.b1.b2.b3`, four bytes in that order (R8, R34). -/
structure Ip where
  b0 : Byte
  b1 : Byte
  b2 : Byte
  b3 : Byte
  deriving DecidableEq, Repr, Inhabited

/-- The parameters of R6 that a model takes as arguments. No step changes them. -/
structure Config where
  /-- `MODEL`. -/
  model : Model
  /-- `FIELD16_ORDER`. -/
  order : FieldOrder
  /-- `CMD_OPEN`. -/
  codeOpen : Byte
  /-- `CMD_LISTEN`. -/
  codeListen : Byte
  /-- `CMD_CONNECT`. -/
  codeConnect : Byte
  /-- `CMD_DISCON`. -/
  codeDiscon : Byte
  /-- `CMD_CLOSE`. -/
  codeClose : Byte
  /-- `CMD_SEND`. -/
  codeSend : Byte
  /-- `CMD_RECV`. -/
  codeRecv : Byte
  /-- `REGION_BASE[0..31]`, `none` for a reserved slot (R106). -/
  regionBase : Vector (Option Half) 32
  /-- `STAGE_CAP`. -/
  stageCap : Nat
  /-- `DHCP_PORT`. -/
  dhcpPort : Half
  /-- `NTP_PORT`. -/
  ntpPort : Half
  /-- `NTP_LEN`. -/
  ntpLen : Nat
  /-- `DHCP_LEASE_ADDR`. -/
  dhcpLease : Ip
  /-- `DHCP_SERVER_ADDR`. -/
  dhcpServer : Ip
  /-- `DHCP_MASK`. -/
  dhcpMask : Ip
  /-- `DHCP_ROUTER`. -/
  dhcpRouter : Ip
  /-- `DHCP_SERVER_ID`. -/
  dhcpServerId : Ip
  /-- `LOOPBACK_SRC_ADDR`. -/
  loopbackSrc : Ip
  /-- `COMMON_RESET`: entry `i` is the reset byte of `common[i]`; a missing entry stands for 0x00. -/
  commonReset : List Byte
  deriving DecidableEq, Repr, Inhabited

/-- The seven command codes in the order of R109. -/
def Config.codes (c : Config) : List Byte :=
  [c.codeOpen, c.codeListen, c.codeConnect, c.codeDiscon, c.codeClose, c.codeSend, c.codeRecv]

/-- The constraints 92_eei_decisions.md puts on the parameters: the seven codes pairwise distinct, the two
service ports different, `STAGE_CAP` in 1..65535. (A used region base is a 16-bit value by its type.) -/
abbrev Config.Wf (c : Config) : Prop :=
  c.codes.Nodup ∧ c.dhcpPort ≠ c.ntpPort ∧ 1 ≤ c.stageCap ∧ c.stageCap ≤ 65535

/-- The three levels the bus master drives in one tick (R130); `true` is level 1, so `selN = false` is
"selected". -/
structure Lines where
  selN : Bool
  clk : Bool
  din : Bool
  deriving DecidableEq, Repr, Inhabited

/-- A peer offered by NetEnv: its address and port (R280, `pending`). -/
structure Peer where
  ip : Ip
  port : Half
  deriving DecidableEq, Repr, Inhabited

/-- A datagram offered by NetEnv (R280, `dgram`). -/
structure Datagram where
  ip : Ip
  port : Half
  payload : List Byte
  deriving DecidableEq, Repr, Inhabited

/-- NetEnv's input record of one socket for one tick, `net[n]` of R280. -/
structure NetIn where
  createOk : Bool
  bindOk : Bool
  connectOk : Bool
  pending : Option Peer
  peerClosed : Bool
  stream : List Byte
  dgram : Option Datagram
  deriving DecidableEq, Repr, Inhabited

/-- What the environment answers in one tick: the four NetEnv records and the wall clock (R280, R314). -/
structure EnvIn where
  net : Vector NetIn 4
  /-- `now_unix`, whole seconds since 1970-01-01 (R314). -/
  nowUnix : Nat
  deriving DecidableEq, Repr, Inhabited

/-- FREE VALUE (R280, R314: every answer is a draw under no law). The environment's input of tick number
`t` where `Store.envq` schedules none. No body: no proof can see what it is (log 3). -/
opaque Config.freeEnv : Nat → EnvIn

/-- FREE VALUE (R7, R320: the bus master chooses the levels). The levels of tick number `t` where
`State.bus` queues no operation (log 4). -/
opaque Config.freeLines : Nat → Lines

/-- `TICK_INTERVAL` (R6, R323): an unspecified positive time that no rule reads (log 14). -/
opaque Config.tickInterval : ℕ+

end Sys2Proof
end

