-- ==== Sys2Proof/Machine/Params.lean ====
section
/-! DEFINITION. The identity of a chip (R1), the default parameter values of spec R6 and the reset content of memory (R43). -/

namespace Sys2Proof.Machine

/-- The model name of a variant (R1, R2): Model A is "5100", Model B is "5500" (D1). -/
def modelName : Model → String
  | .a => "5100"
  | .b => "5500"

/-- The identity a chip of variant `m` carries (R1). -/
def identityOf (m : Model) : Identity := ⟨"dsandy12/simulavr", modelName m⟩

/-- `127.0.0.1`, the default of the loopback addresses (R6, D23, D26). -/
def loopbackHost : Ip := ⟨127, 0, 0, 1⟩

/-- The default region base table (R106): slot 0 is the common block, `4n + 1` the register bank, `4n + 2`
the transmit ring and `4n + 3` the receive ring of socket `n`; nineteen slots are reserved. -/
def defaultRegionBase : Vector (Option Half) 32 :=
  #v[some 0x0000, some 0x0400, some 0x4000, some 0x6000,
     none,        some 0x0500, some 0x4800, some 0x6800,
     none,        some 0x0600, some 0x5000, some 0x7000,
     none,        some 0x0700, some 0x5800, some 0x7800,
     none, none, none, none, none, none, none, none,
     none, none, none, none, none, none, none, none]

/-- The defaults of R6 for the variant `m`. -/
def defaultConfig (m : Model) : Config where
  model := m
  order := .le
  codeOpen := 0x01
  codeListen := 0x02
  codeConnect := 0x04
  codeDiscon := 0x08
  codeClose := 0x10
  codeSend := 0x20
  codeRecv := 0x40
  regionBase := defaultRegionBase
  stageCap := 2048
  dhcpPort := 67
  ntpPort := 123
  ntpLen := 48
  dhcpLease := loopbackHost
  dhcpServer := loopbackHost
  dhcpMask := ⟨255, 0, 0, 0⟩
  dhcpRouter := loopbackHost
  dhcpServerId := loopbackHost
  loopbackSrc := loopbackHost
  commonReset := []

/-- The variant of the instance `State.reset` describes: the spec fixes none (DESIGN CHOICE, unsafe, log 2). -/
def resetModel : Model := .a

/-- What an address of the flat space holds at power-on (R43): `COMMON_RESET` in the common block, the high
byte 0x08 of TX_FSR = 0x0800 in each bank at the cell `FIELD16_ORDER` puts it (R37), 0x00 everywhere else. -/
def resetByte (c : Config) (a : Nat) : Byte :=
  if a < 0x100 then c.commonReset.getD a 0
  else if 0x400 ≤ a ∧ a < 0x800 then
    match c.order with
    | .le => if a % 0x100 = 0x21 then 0x08 else 0x00
    | .be => if a % 0x100 = 0x20 then 0x08 else 0x00
  else 0x00

/-- What a cell of the Model B staging buffer holds at power-on (R43). -/
def stageResetByte (_ : Nat) : Byte := 0x00

end Sys2Proof.Machine
end

