-- ==== Sys2Proof/Machine/State.lean ====
section
/-! DEFINITION. The state of the machine (spec R20): plain data. Everything the router and the socket
engines act on stands in `Store` (common block, banks, rings, hidden socket state); the sampler and the
decoder stand beside it in `State`, so that what a command or a poll leaves alone can be read off its type. -/

namespace Sys2Proof.Machine

/-- A sparse byte memory: addresses strictly rising, no entry equal to what an unlisted address reads as
(`Memory.wf`). -/
abbrev Memory := List Host.Cell

/-- The lifecycle state of a socket (R40). -/
inductive SockState where
  | closed
  | init
  | listen
  | established
  | udpReady
  deriving DecidableEq, Repr

/-- The state of a socket engine that no address reaches (R39, R40, R42). -/
structure Socket where
  /-- `sock[n].state` (R40). -/
  state : SockState
  /-- `sock[n].widx`, the receive ring's internal write index (R39). -/
  widx : BitVec 11
  /-- `sock[n].res_out`: the engine owns its primary resource (R40). -/
  resOut : Bool
  /-- `sock[n].res_acc`: the engine owns an accepted connection (R40). -/
  resAcc : Bool
  deriving DecidableEq, Repr

/-- The events the chip emits to NetEnv (R281). -/
inductive NetEvent where
  | openTcp (n : Fin 4)
  | openUdp (n : Fin 4) (port : Half) (mcast : Bool)
  | listen (n : Fin 4) (port : Half)
  | connect (n : Fin 4) (ip : Ip) (port : Half)
  | accept (n : Fin 4)
  | take (n : Fin 4) (k : Nat)
  | sendTcp (n : Fin 4) (data : List Byte)
  | sendUdp (n : Fin 4) (ip : Ip) (port : Half) (data : List Byte)
  | close (n : Fin 4)
  deriving DecidableEq, Repr

/-- What the router and the four socket engines act on: every addressable cell in one memory (R71), the hidden
socket state, and the environment's side (the model's own fields: inputs to come, ticks run, events emitted). -/
structure Store where
  /-- The parameters (R6, R322). No step changes them (log 1). -/
  cfg : Config
  /-- Common block, socket banks and rings, keyed by flat address (R71). -/
  mem : Memory
  /-- The hidden state of sockets 0 to 3 (R39, R40). -/
  sock : Vector Socket 4
  /-- MODEL's own: the environment's inputs of the coming ticks, oldest first; beyond them
  `Config.freeEnv` answers (log 3). -/
  envq : List EnvIn
  /-- MODEL's own: how many ticks have run; the argument of the free values (log 3). -/
  ticks : Nat
  /-- MODEL's own: every event emitted so far, in order (R281, log 9). -/
  events : List NetEvent
  deriving DecidableEq, Repr

/-- The serial bus sampler (R21, R22, R23). -/
structure Sampler where
  /-- `smp.bitcnt`. -/
  bitcnt : BitVec 3
  /-- `smp.shin`. -/
  shin : Byte
  /-- `smp.shout`. -/
  shout : Byte
  /-- `smp.prev_clk`. -/
  prevClk : Bool
  /-- `smp.ready`. -/
  ready : Bool
  /-- `smp.rx_byte`. -/
  rxByte : Byte
  /-- `smp.dout`. -/
  dout : Bool
  deriving DecidableEq, Repr

/-- `dec.st`: four values per variant (R26). -/
inductive DecSt where
  | aWait
  | aAddrHi
  | aAddrLo
  | aData
  | bWait
  | bAddrLo
  | bCmd
  | bData
  deriving DecidableEq, Repr

/-- `dec.dir` (R24). -/
inductive Dir where
  | read
  | write
  deriving DecidableEq, Repr

/-- The transaction decoder (R24). `count` and `stage` are used by Model B alone. -/
structure Decoder where
  /-- `dec.st`. -/
  st : DecSt
  /-- `dec.addr`. -/
  addr : Half
  /-- `dec.cmd`. -/
  cmd : Byte
  /-- `dec.dir`. -/
  dir : Dir
  /-- `dec.count`. -/
  count : Half
  /-- `dec.stage`, keyed by index. -/
  stage : Memory
  deriving DecidableEq, Repr

/-- One operation of the bus master (R112, R113): a whole transaction, `SEL`, one `XFER` per byte, `DESEL`; or the
levels of one tick. -/
inductive BusOp where
  | frame (bytes : List Byte)
  | levels (l : Lines)
  deriving DecidableEq, Repr

/-- The state of one chip instance (R20) with the bus master's side. -/
structure State where
  /-- Cells, sockets and the environment's side. -/
  store : Store
  /-- The sampler. -/
  smp : Sampler
  /-- The decoder. -/
  dec : Decoder
  /-- MODEL's own: the bus operations still to come, oldest first; beyond them `Config.freeLines` gives the
  levels (log 4). -/
  bus : List BusOp
  /-- MODEL's own: the byte the bus master read on `dout` in each `XFER` so far, in order (R112, log 9). -/
  received : List Byte
  deriving DecidableEq, Repr

/-- Why the machine stops with a fault: NOBODY raises one, so the type has no constructor. "No condition makes the
chip trap, fault, halt or enter a different mode" (R330). Safe: nothing is stopped. -/
inductive Fault where
  deriving DecidableEq, Repr

/-- Why an instruction has no meaning. -/
inductive Refusal where
  /-- Raised only by an arm of `exec` whose instruction has no meaning yet; no arm is left. Safe. -/
  | notModelled (mnemonic : String)
  deriving DecidableEq, Repr

/-- The idle decoder label of a variant (R26). -/
def idleSt : Model → DecSt
  | .a => .aWait
  | .b => .bWait

/-- A socket at power-on (R43). -/
def Socket.reset : Socket := ⟨.closed, 0, false, false⟩

/-- The sampler at power-on (R43). -/
def Sampler.reset : Sampler := ⟨0, 0, 0, false, false, 0, false⟩

/-- The decoder of a variant at power-on (R43). -/
def Decoder.reset (m : Model) : Decoder := ⟨idleSt m, 0, 0, .read, 0, []⟩

/-- The machine at power-on under the parameters `c` (R43, R360): memory lists nothing, so every cell reads as its
reset content. -/
def State.resetWith (c : Config) : State where
  store :=
    { cfg := c, mem := [], sock := Vector.replicate 4 Socket.reset, envq := [], ticks := 0, events := [] }
  smp := Sampler.reset
  dec := Decoder.reset c.model
  bus := []
  received := []

/-- The machine right after reset, under the default parameters of R6 (log 1, log 2). -/
def State.reset : State := State.resetWith (defaultConfig resetModel)

end Sys2Proof.Machine
end

