-- ==== Sys2Proof/Machine/Ops.lean ====
section
/-! DEFINITION. The named operations over memory and registers: the sparse memory, the cells of the flat space,
the 16-bit register fields, the hidden socket state, the event log and the environment's input of the tick.

TAKING AN EXCEPTION and returning from one: this hardware has neither ("No state is saved, no mode changes, control
goes nowhere, and there is no return instruction", R339; R330), so there is no such operation. -/

namespace Sys2Proof.Machine

/-! ### Sparse memory -/

/-- The byte at address `a`, where `d` is what an unlisted address reads as. -/
def Memory.read (d : Nat → Byte) : Memory → Nat → Byte
  | [], a => d a
  | (k, v) :: m, a => if k = a then v else Memory.read d m a

/-- The memory without an entry for `a`. -/
def Memory.erase (m : Memory) (a : Nat) : Memory :=
  m.filter fun c => c.1 != a

/-- The memory with the entry `(a, v)` in its place. -/
def Memory.insert : Memory → Nat → Byte → Memory
  | [], a, v => [(a, v)]
  | (k, w) :: m, a, v =>
    if a < k then (a, v) :: (k, w) :: m
    else if k = a then (a, v) :: m
    else (k, w) :: Memory.insert m a v

/-- Write `v` at `a`; writing what the unlisted address reads as removes the entry. -/
def Memory.write (d : Nat → Byte) (m : Memory) (a : Nat) (v : Byte) : Memory :=
  if v = d a then Memory.erase m a else Memory.insert m a v

/-- Addresses strictly rising. -/
def Memory.rising : Memory → Bool
  | [] => true
  | [_] => true
  | (k, _) :: (l, w) :: m => k < l && Memory.rising ((l, w) :: m)

/-- The canonical form: addresses strictly rising, no entry equal to what its address reads as unlisted. -/
def Memory.wf (d : Nat → Byte) (m : Memory) : Bool :=
  Memory.rising m && m.all fun c => c.2 != d c.1

/-! ### Cells of the flat space -/

/-- The flat address of cell `c` of bank `n` (R71, R203). -/
def bankAddr (n : Fin 4) (c : Byte) : Nat := 0x400 + 0x100 * n.val + c.toNat

/-- The flat address of offset `i` of the transmit ring of socket `n` (R71, R214). -/
def txAddr (n : Fin 4) (i : BitVec 11) : Nat := 0x4000 + 0x800 * n.val + i.toNat

/-- The flat address of offset `i` of the receive ring of socket `n` (R71, R215). -/
def rxAddr (n : Fin 4) (i : BitVec 11) : Nat := 0x6000 + 0x800 * n.val + i.toNat

/-- Whether a flat address names a cell (R71). -/
def isMapped (a : Nat) : Bool :=
  a < 0x100 || (0x400 ≤ a && a < 0x800) || (0x4000 ≤ a && a < 0x8000)

/-- The cell at a flat address, with no side effect and no derived cell. -/
def Store.peek (st : Store) (a : Nat) : Byte :=
  Memory.read (resetByte st.cfg) st.mem a

/-- Store a byte in the cell at a flat address, with no side effect. -/
def Store.poke (st : Store) (a : Nat) (v : Byte) : Store :=
  { st with mem := Memory.write (resetByte st.cfg) st.mem a v }

/-- `sock[n].reg[c]` (R29). -/
def Store.reg (st : Store) (n : Fin 4) (c : Byte) : Byte := st.peek (bankAddr n c)

/-- `sock[n].reg[c] <- v`. -/
def Store.setReg (st : Store) (n : Fin 4) (c : Byte) (v : Byte) : Store := st.poke (bankAddr n c) v

/-- `sock[n].tx[i]` (R38). -/
def Store.tx (st : Store) (n : Fin 4) (i : BitVec 11) : Byte := st.peek (txAddr n i)

/-- `sock[n].rx[i]` (R38). -/
def Store.rx (st : Store) (n : Fin 4) (i : BitVec 11) : Byte := st.peek (rxAddr n i)

/-! ### 16-bit fields -/

/-- `get16(n, c)` (R37). -/
def Store.get16 (st : Store) (n : Fin 4) (c : Byte) : Half :=
  match st.cfg.order with
  | .le => st.reg n (c + 1) ++ st.reg n c
  | .be => st.reg n c ++ st.reg n (c + 1)

/-- `set16(n, c, v)` (R37): the lower cell first. -/
def Store.set16 (st : Store) (n : Fin 4) (c : Byte) (v : Half) : Store :=
  match st.cfg.order with
  | .le => (st.setReg n c (v.extractLsb' 0 8)).setReg n (c + 1) (v.extractLsb' 8 8)
  | .be => (st.setReg n c (v.extractLsb' 8 8)).setReg n (c + 1) (v.extractLsb' 0 8)

/-- MR, cell 0x00 (R29, R30). -/
def Store.mr (st : Store) (n : Fin 4) : Byte := st.reg n 0x00

/-- PORT, cells 0x04 and 0x05 (R34). -/
def Store.port (st : Store) (n : Fin 4) : Half := st.get16 n 0x04

/-- DIPR, cells 0x0C to 0x0F, first octet first (R34, R74). -/
def Store.dipr (st : Store) (n : Fin 4) : Ip := ⟨st.reg n 0x0C, st.reg n 0x0D, st.reg n 0x0E, st.reg n 0x0F⟩

/-- `DIPR <- ip` (R283). -/
def Store.setDipr (st : Store) (n : Fin 4) (ip : Ip) : Store :=
  (((st.setReg n 0x0C ip.b0).setReg n 0x0D ip.b1).setReg n 0x0E ip.b2).setReg n 0x0F ip.b3

/-- DPORT, cells 0x10 and 0x11 (R34). -/
def Store.dport (st : Store) (n : Fin 4) : Half := st.get16 n 0x10

/-- TX_FSR, cells 0x20 and 0x21 (R35). -/
def Store.txFsr (st : Store) (n : Fin 4) : Half := st.get16 n 0x20

/-- TX_RD, cells 0x22 and 0x23 (R35). -/
def Store.txRd (st : Store) (n : Fin 4) : Half := st.get16 n 0x22

/-- TX_WR, cells 0x24 and 0x25 (R35). -/
def Store.txWr (st : Store) (n : Fin 4) : Half := st.get16 n 0x24

/-- RX_RSR, cells 0x26 and 0x27 (R36). -/
def Store.rxRsr (st : Store) (n : Fin 4) : Half := st.get16 n 0x26

/-- RX_RD, cells 0x28 and 0x29 (R36). -/
def Store.rxRd (st : Store) (n : Fin 4) : Half := st.get16 n 0x28

/-- `(a - b) mod CAP`, taken on integers, always in 0..2047 (R8); `CAP` = 2048 (R6). -/
def ringDiff (a b : Nat) : Nat := (((a : Int) - (b : Int)) % 2048).toNat

/-- `set16(n, TX_FSR, CAP - ((TX_WR - TX_RD) mod CAP))` (R211, R249). -/
def Store.updateFsr (st : Store) (n : Fin 4) : Store :=
  st.set16 n 0x20 (BitVec.ofNat 16 (2048 - ringDiff (st.txWr n).toNat (st.txRd n).toNat))

/-! ### Hidden socket state -/

/-- `sock[n].state` (R40). -/
def Store.state (st : Store) (n : Fin 4) : SockState := st.sock[n].state

/-- `sock[n].widx` (R39). -/
def Store.widx (st : Store) (n : Fin 4) : BitVec 11 := st.sock[n].widx

/-- `sock[n].res_out` (R40). -/
def Store.resOut (st : Store) (n : Fin 4) : Bool := st.sock[n].resOut

/-- `sock[n].res_acc` (R40). -/
def Store.resAcc (st : Store) (n : Fin 4) : Bool := st.sock[n].resAcc

/-- Replace the hidden state of socket `n`. -/
def Store.setSock (st : Store) (n : Fin 4) (k : Socket) : Store := { st with sock := st.sock.set n k }

/-- `sock[n].state <- x`. -/
def Store.setState (st : Store) (n : Fin 4) (x : SockState) : Store :=
  st.setSock n { st.sock[n] with state := x }

/-- `sock[n].widx <- x`. -/
def Store.setWidx (st : Store) (n : Fin 4) (x : BitVec 11) : Store :=
  st.setSock n { st.sock[n] with widx := x }

/-- `sock[n].res_out <- x`. -/
def Store.setResOut (st : Store) (n : Fin 4) (x : Bool) : Store :=
  st.setSock n { st.sock[n] with resOut := x }

/-- `sock[n].res_acc <- x`. -/
def Store.setResAcc (st : Store) (n : Fin 4) (x : Bool) : Store :=
  st.setSock n { st.sock[n] with resAcc := x }

/-! ### Events and the environment's input -/

/-- `emit e` (R10, R281). -/
def Store.emit (st : Store) (e : NetEvent) : Store := { st with events := st.events ++ [e] }

/-- The environment's input of the current tick: the head of the queue, or a free value (R280, log 3). -/
def Store.env (st : Store) : EnvIn :=
  match st.envq with
  | [] => Config.freeEnv st.ticks
  | e :: _ => e

/-- `net[n]` of the current tick (R280). -/
def Store.net (st : Store) (n : Fin 4) : NetIn := st.env.net[n]

/-- The end of a tick: its input is used up and the next tick begins (log 3). -/
def Store.advance (st : Store) : Store := { st with envq := st.envq.tail, ticks := st.ticks + 1 }

end Sys2Proof.Machine
end

