-- ==== Sys2Proof/Machine/Operands.lean ====
section
/-! DEFINITION. Operand forms: address assembly (R107), control byte fields (R105), the Model B effective address
(R108), bits MSB first (R73, R100), big-endian fields of datagrams (R74). -/

namespace Sys2Proof.Machine

/-- `{hi, lo}`: the address of two address bytes (R107). -/
def addrOf (hi lo : Byte) : Half := hi ++ lo

/-- `v[15:8]`. -/
def hiByte (v : Half) : Byte := v.extractLsb' 8 8

/-- `v[7:0]`. -/
def loByte (v : Half) : Byte := v.extractLsb' 0 8

/-- The region selector, bits 7:3 of the control byte (R105). -/
def ctlBsb (b : Byte) : BitVec 5 := b.extractLsb' 3 5

/-- The write bit, bit 2 of the control byte (R105). -/
def ctlWrite (b : Byte) : Bool := b.getLsbD 2

/-- The ignored bits 1:0 of the control byte (R105). -/
def ctlMm (b : Byte) : BitVec 2 := b.extractLsb' 0 2

/-- The control byte of a selector, a direction and the ignored bits (R104, R105). -/
def ctlByte (bsb : BitVec 5) (w : Bool) (mm : BitVec 2) : Byte := bsb ++ BitVec.ofBool w ++ mm

/-- `REGION_BASE[bsb]` (R106). -/
def regionBase (c : Config) (bsb : BitVec 5) : Option Half := c.regionBase[bsb.toNat]'bsb.isLt

/-- The flat address of data byte `k`: `(REGION_BASE[bsb] + addr + k) mod 65536`; `none` for a reserved selector
(R108). -/
def effAddr (c : Config) (bsb : BitVec 5) (addr k : Half) : Option Half :=
  (regionBase c bsb).map fun base => base + addr + k

/-- The bits of a byte in the order they travel, bit 7 first (R73, R100). -/
def bitsMsb (v : Byte) : List Bool :=
  [v.getLsbD 7, v.getLsbD 6, v.getLsbD 5, v.getLsbD 4, v.getLsbD 3, v.getLsbD 2, v.getLsbD 1, v.getLsbD 0]

/-- `((r << 1) | b) & 0xFF`: one more bit behind the ones already there (R132). -/
def shiftIn (r : Byte) (b : Bool) : Byte := (r <<< 1) ||| BitVec.zeroExtend 8 (BitVec.ofBool b)

/-- The two bytes of a 16-bit value, big-endian (R316). -/
def be16 (v : Half) : List Byte := [hiByte v, loByte v]

/-- The four bytes of a 32-bit value, big-endian (R313). -/
def be32 (v : BitVec 32) : List Byte :=
  [v.extractLsb' 24 8, v.extractLsb' 16 8, v.extractLsb' 8 8, v.extractLsb' 0 8]

/-- The four bytes of an address, first octet first (R8). -/
def ipBytes (ip : Ip) : List Byte := [ip.b0, ip.b1, ip.b2, ip.b3]

end Sys2Proof.Machine
end

