-- ==== Sys2Proof/Syntax.lean ====
section
/-! DEFINITION. The instructions: one constructor per row of spec/opcode_table.json. The first five are the
bus transactions of R102 to R105; the other eight are the socket commands of R109, each with the bank `n`
whose CR cell receives the byte. -/

namespace Sys2Proof

/-- The instructions of the hardware. -/
inductive Instr where
  /-- `A.WRITE a, d` (R158). -/
  | aWrite (addr : Half) (data : Byte)
  /-- `A.READ a`; `dummy` is the ignored fourth byte on `din` (R159). -/
  | aRead (addr : Half) (dummy : Byte)
  /-- `A.NOP b` (R160). -/
  | aNop (op : Byte)
  /-- `B.READ bsb, a, k`; `mm` are the ignored bits 1:0 of the control byte, `dummies` the `k` ignored data
  bytes on `din` (R105, R179). -/
  | bRead (bsb : BitVec 5) (mm : BitVec 2) (addr : Half) (dummies : List Byte)
  /-- `B.WRITE bsb, a, data` (R105, R180). -/
  | bWrite (bsb : BitVec 5) (mm : BitVec 2) (addr : Half) (data : List Byte)
  /-- `OPEN` on socket `n` (R241). -/
  | cmdOpen (n : Fin 4)
  /-- `LISTEN` on socket `n` (R242). -/
  | cmdListen (n : Fin 4)
  /-- `CONNECT` on socket `n` (R243). -/
  | cmdConnect (n : Fin 4)
  /-- `DISCON` on socket `n` (R244). -/
  | cmdDiscon (n : Fin 4)
  /-- `CLOSE` on socket `n` (R245). -/
  | cmdClose (n : Fin 4)
  /-- `SEND` on socket `n` (R246). -/
  | cmdSend (n : Fin 4)
  /-- `RECV` on socket `n` (R247). -/
  | cmdRecv (n : Fin 4)
  /-- Any other byte `v` written to CR of socket `n` (R248). -/
  | cmdNop (n : Fin 4) (v : Byte)
  deriving DecidableEq, Repr

end Sys2Proof
end

