-- ==== Sys2Proof/WellFormed.lean ====
section
/-! DEFINITION. Which instruction terms the encoding admits, under given parameters. -/

namespace Sys2Proof

/-- The well-formedness check of an instruction. A bus transaction belongs to one variant (41_ and
42_decoder files: "applies only when MODEL = A" or `B`); `A.NOP` excludes the two Model A command bytes
(R103); `CMD.NOP` excludes the seven command codes (R109). -/
def Instr.wellFormed (c : Config) : Instr → Bool
  | .aWrite _ _ => c.model == .a
  | .aRead _ _ => c.model == .a
  | .aNop op => c.model == .a && op != 0xF0 && op != 0x0F
  | .bRead _ _ _ _ => c.model == .b
  | .bWrite _ _ _ _ => c.model == .b
  | .cmdOpen _ => true
  | .cmdListen _ => true
  | .cmdConnect _ => true
  | .cmdDiscon _ => true
  | .cmdClose _ => true
  | .cmdSend _ => true
  | .cmdRecv _ => true
  | .cmdNop _ v => !c.codes.contains v

end Sys2Proof
end

