-- ==== Sys2Proof/Decode.lean ====
section
/-! DEFINITION. The decoder of the two instruction streams (spec R102 to R109), total on any bytes, rejecting by name,
and the encoder. A rejection is no trap: the chip gives every byte sequence an effect (R110), and `step` runs the
ticks of a rejected frame as they are. -/

namespace Sys2Proof

open Machine

/-- Where bytes are read as an instruction: the bytes of one selection of the bus (R102, R104), or the byte written
to cell CR of bank `n` (R109). -/
inductive Source where
  | bus
  | cr (n : Fin 4)
  deriving DecidableEq, Repr

/-- Why bytes are not one whole instruction. -/
inductive DecodeError where
  /-- No byte at all. -/
  | empty
  /-- Select is deasserted inside the transaction (R101, R332). -/
  | aborted
  /-- More than one Model A transaction under one selection (R161). -/
  | chained
  /-- A socket command is one byte (R109). -/
  | notOneByte
  deriving DecidableEq, Repr

/-- The first Model A transaction of a byte stream and the bytes after it (R102, R103). -/
def decodeA : List Byte → Except DecodeError (Instr × List Byte)
  | [] => .error .empty
  | op :: rest =>
    if op = 0xF0 then
      match rest with
      | hi :: lo :: d :: more => .ok (.aWrite (addrOf hi lo) d, more)
      | _ => .error .aborted
    else if op = 0x0F then
      match rest with
      | hi :: lo :: x :: more => .ok (.aRead (addrOf hi lo) x, more)
      | _ => .error .aborted
    else .ok (.aNop op, rest)

/-- The bytes of one selection as one Model A transaction. -/
def decodeWholeA (bytes : List Byte) : Except DecodeError Instr :=
  match decodeA bytes with
  | .ok (i, []) => .ok i
  | .ok (_, _ :: _) => .error .chained
  | .error e => .error e

/-- The bytes of one selection as a Model B transaction: every byte after the control byte is data (R104, R181). -/
def decodeWholeB : List Byte → Except DecodeError Instr
  | [] => .error .empty
  | hi :: lo :: ctl :: data =>
    if ctlWrite ctl then .ok (.bWrite (ctlBsb ctl) (ctlMm ctl) (addrOf hi lo) data)
    else .ok (.bRead (ctlBsb ctl) (ctlMm ctl) (addrOf hi lo) data)
  | _ => .error .aborted

/-- The socket command of the byte `v` written to CR of bank `n`: the whole byte is compared for equality (R109). -/
def decodeCommand (c : Config) (n : Fin 4) (v : Byte) : Instr :=
  if v = c.codeOpen then .cmdOpen n
  else if v = c.codeListen then .cmdListen n
  else if v = c.codeConnect then .cmdConnect n
  else if v = c.codeDiscon then .cmdDiscon n
  else if v = c.codeClose then .cmdClose n
  else if v = c.codeSend then .cmdSend n
  else if v = c.codeRecv then .cmdRecv n
  else .cmdNop n v

/-- The bytes written to CR as one command. -/
def decodeCr (c : Config) (n : Fin 4) : List Byte → Except DecodeError Instr
  | [] => .error .empty
  | [v] => .ok (decodeCommand c n v)
  | _ => .error .notOneByte

/-- The decoder, under the parameters `c`. -/
def decode (c : Config) (src : Source) (bytes : List Byte) : Except DecodeError Instr :=
  match src with
  | .cr n => decodeCr c n bytes
  | .bus =>
    match c.model with
    | .a => decodeWholeA bytes
    | .b => decodeWholeB bytes

/-- The stream an instruction is read from. -/
def Instr.source : Instr → Source
  | .aWrite _ _ => .bus
  | .aRead _ _ => .bus
  | .aNop _ => .bus
  | .bRead _ _ _ _ => .bus
  | .bWrite _ _ _ _ => .bus
  | .cmdOpen n => .cr n
  | .cmdListen n => .cr n
  | .cmdConnect n => .cr n
  | .cmdDiscon n => .cr n
  | .cmdClose n => .cr n
  | .cmdSend n => .cr n
  | .cmdRecv n => .cr n
  | .cmdNop n _ => .cr n

/-- The encoder: the bytes of an instruction in the order they are clocked or written (R102, R104, R109). -/
def encode (c : Config) : Instr → List Byte
  | .aWrite a d => [0xF0, hiByte a, loByte a, d]
  | .aRead a x => [0x0F, hiByte a, loByte a, x]
  | .aNop b => [b]
  | .bRead bsb mm a xs => hiByte a :: loByte a :: ctlByte bsb false mm :: xs
  | .bWrite bsb mm a ds => hiByte a :: loByte a :: ctlByte bsb true mm :: ds
  | .cmdOpen _ => [c.codeOpen]
  | .cmdListen _ => [c.codeListen]
  | .cmdConnect _ => [c.codeConnect]
  | .cmdDiscon _ => [c.codeDiscon]
  | .cmdClose _ => [c.codeClose]
  | .cmdSend _ => [c.codeSend]
  | .cmdRecv _ => [c.codeRecv]
  | .cmdNop _ v => [v]

/-! ### Words of spec/opcode_table.json -/

/-- Where a word of the table stands: the bytes of one selection of a chip of variant `m`, or a byte written to CR. -/
inductive Placement where
  | bus (m : Model) (bytes : List Byte)
  | cr (v : Byte)
  deriving DecidableEq, Repr

/-- The `k` bytes of `w`, bits `8k-1 .. 8k-8` first: the table's leftmost bit is the first one clocked. -/
def msbBytes (w : Nat) : Nat → List Byte
  | 0 => []
  | k + 1 => BitVec.ofNat 8 (w / 2 ^ (8 * k)) :: msbBytes w k

/-- The `k` bytes of `w` counted on from its least significant byte. -/
def lsbBytes (w : Nat) : Nat → List Byte
  | 0 => []
  | k + 1 => BitVec.ofNat 8 w :: lsbBytes (w / 256) k

/-- The stream a word of the table belongs to. 32 bits that start with a Model A command byte are a Model A
transaction; 24 bits, or 24 + 8k, are a Model B header (bits 23:0) and the data bytes counted on above it. The 8-bit
rows `A.NOP` and `CMD.NOP` claim the same bytes, so a byte with no command code has to be given to one of them: 0x00
(named by R109), 0xF0 and 0x0F (excluded from `A.NOP`) to `CMD.NOP`, every other to `A.NOP` (log 7). -/
def placeTableWord (nbits w : Nat) : Option Placement :=
  if nbits = 8 then
    let v : Byte := BitVec.ofNat 8 w
    if (defaultConfig .a).codes.contains v || v == 0x00 || v == 0xF0 || v == 0x0F then some (.cr v)
    else some (.bus .a [v])
  else if nbits = 32 ∧ (w / 2 ^ 24 % 256 = 0xF0 ∨ w / 2 ^ 24 % 256 = 0x0F) then
    some (.bus .a (msbBytes w 4))
  else if 24 ≤ nbits ∧ nbits % 8 = 0 then
    some (.bus .b (msbBytes w 3 ++ lsbBytes (w / 2 ^ 24) ((nbits - 24) / 8)))
  else none

/-- The decoder's answer as an option. -/
def decodedInstr : Except DecodeError Instr → Option Instr
  | .ok i => some i
  | .error _ => none

/-- The instruction the decoder reads from a word of spec/opcode_table.json, under the default parameters; a command
is read for socket 0. -/
def decodeTableWord (nbits w : Nat) : Option Instr :=
  match placeTableWord nbits w with
  | none => none
  | some (.cr v) => decodedInstr (decode (defaultConfig .a) (.cr 0) [v])
  | some (.bus m bytes) => decodedInstr (decode (defaultConfig m) .bus bytes)

end Sys2Proof
end

