-- ==== Sys2Proof/Machine/Flags.lean ====
section
/-! DEFINITION. The interrupt flags of IR and the status code of SR (spec R32, R33, R208, R337). -/

namespace Sys2Proof.Machine

/-- IR, cell 0x02 (R32). -/
def Store.ir (st : Store) (n : Fin 4) : Byte := st.reg n 0x02

/-- Set IR bit 2, data received (R32, R287). -/
def Store.flagRecv (st : Store) (n : Fin 4) : Store := st.setReg n 0x02 (st.ir n ||| 0x04)

/-- Set IR bit 4, send ok (R32, R246). -/
def Store.flagSendOk (st : Store) (n : Fin 4) : Store := st.setReg n 0x02 (st.ir n ||| 0x10)

/-- Write-1-to-clear: `IR <- IR & ~v` (R208). -/
def Store.clearIr (st : Store) (n : Fin 4) (v : Byte) : Store := st.setReg n 0x02 (st.ir n &&& ~~~v)

/-- The SR code of a lifecycle state (R33). -/
def SockState.code : SockState → Byte
  | .closed => 0x00
  | .init => 0x13
  | .listen => 0x14
  | .established => 0x17
  | .udpReady => 0x22

end Sys2Proof.Machine
end

