-- ==== Sys2Proof/Machine/Loopback.lean ====
section
/-! DEFINITION. The loopback responders as pure functions (spec R301): the address-assignment reply (R302 to R305)
and the time-sync reply (R311 to R313), and the pseudo-header (R316). Their delivery stands in Events.lean and
Commands.lean. -/

namespace Sys2Proof.Machine

/-- `ReqByte(req, i)`: absent bytes read as zero (R302). -/
def reqByte (req : List Byte) (i : Nat) : Byte := req.getD i 0

/-- The option list scan of R303 over the bytes from the current position on, after skipping `skip` bytes. -/
def scanOptions : (skip : Nat) → List Byte → Option Byte
  | _, [] => none
  | k + 1, _ :: r => scanOptions k r
  | 0, t :: r =>
    if t = 0 then scanOptions 0 r
    else if t = 255 then none
    else
      match r with
      | [] => none
      | l :: q =>
        if t = 53 ∧ 1 ≤ l.toNat ∧ 0 < q.length then q.head? else scanOptions (l.toNat + 1) r

/-- `MsgType(req)`: options start at byte 240 (R303). -/
def msgType (req : List Byte) : Option Byte := scanOptions 0 (req.drop 240)

/-- The response type `T`: offer (2) to a discover (1), else acknowledge (5) (R305). -/
def replyType (req : List Byte) : Byte := if msgType req = some 1 then 2 else 5

/-- `DhcpReply(req)`, 262 bytes (R304). -/
def dhcpReply (c : Config) (req : List Byte) : List Byte :=
  [0x02, reqByte req 1, reqByte req 2, 0x00]                                  -- 0..3 op, htype, hlen, hops
    ++ (List.range' 4 4).map (reqByte req)                                    -- 4..7 xid
    ++ List.replicate 8 0x00                                                  -- 8..15 secs, flags, ciaddr
    ++ ipBytes c.dhcpLease                                                    -- 16..19 yiaddr
    ++ ipBytes c.dhcpServer                                                   -- 20..23 siaddr
    ++ List.replicate 4 0x00                                                  -- 24..27 giaddr
    ++ (List.range' 28 16).map (reqByte req)                                  -- 28..43 chaddr
    ++ List.replicate 192 0x00                                                -- 44..235 sname, file
    ++ [0x63, 0x82, 0x53, 0x63]                                               -- 236..239 magic cookie
    ++ [0x35, 0x01, replyType req]                                            -- 240..242 message type
    ++ [0x01, 0x04] ++ ipBytes c.dhcpMask                                     -- 243..248 subnet mask
    ++ [0x03, 0x04] ++ ipBytes c.dhcpRouter                                   -- 249..254 router
    ++ [0x36, 0x04] ++ ipBytes c.dhcpServerId                                 -- 255..260 server identifier
    ++ [0xFF]                                                                 -- 261 end

/-- The seconds field of the transmit timestamp: `(now_unix + 2208988800) mod 2^32` (R313). -/
def ntpSeconds (nowUnix : Nat) : BitVec 32 := BitVec.ofNat 32 (nowUnix + 2208988800)

/-- `NtpReply(req, now_unix)`: the request with bytes 40..47 replaced by the transmit timestamp (R312, R313). -/
def ntpReply (req : List Byte) (nowUnix : Nat) : List Byte :=
  req.take 40 ++ be32 (ntpSeconds nowUnix) ++ [0x00, 0x00, 0x00, 0x00] ++ req.drop 48

/-- `PseudoHeader(ip, port, len)` (R316). -/
def pseudoHeader (ip : Ip) (port : Half) (len : Nat) : List Byte :=
  ipBytes ip ++ be16 port ++ be16 (BitVec.ofNat 16 len)

end Sys2Proof.Machine
end

