-- ==== Sys2Proof/Machine/Events.lean ====
section
/-! DEFINITION. The per-tick events of a socket engine (spec R282 to R288), delivery into the receive ring (R287),
and the release of resources (R251). -/

namespace Sys2Proof.Machine

/-- Store bytes in the receive ring of socket `n` from offset `off` on, wrapping modulo `CAP` (R287). -/
def Store.storeRx (st : Store) (n : Fin 4) (off : Nat) : List Byte → Store
  | [] => st
  | b :: bs => Store.storeRx (st.poke (rxAddr n (BitVec.ofNat 11 off)) b) n (off + 1) bs

/-- `RxDeliver(n, bytes)` (R287). -/
def Store.rxDeliver (st : Store) (n : Fin 4) (bytes : List Byte) : Store :=
  let st1 := st.storeRx n (st.widx n).toNat bytes
  let st2 := st1.setWidx n (BitVec.ofNat 11 ((st1.widx n).toNat + bytes.length))
  let st3 := st2.set16 n 0x26 (BitVec.ofNat 16 ((st2.rxRsr n).toNat + bytes.length))
  st3.flagRecv n

/-- The room the engine sees for new data, `(CAP - 1) - RX_RSR` (R285). -/
def Store.rxRoom (st : Store) (n : Fin 4) : Nat := 2047 - (st.rxRsr n).toNat

/-- `Release(n)` (R251). -/
def Store.release (st : Store) (n : Fin 4) : Store :=
  let st1 := if st.resAcc n || st.resOut n then st.emit (.close n) else st
  (st1.setResAcc n false).setResOut n false

/-- `LISTEN`: accept a pending connection (R283). -/
def Store.pollAccept (st : Store) (n : Fin 4) : Store :=
  match (st.net n).pending with
  | none => st
  | some p =>
    let st1 := (st.emit (.accept n)).setResAcc n true
    let st2 := (st1.setDipr n p.ip).set16 n 0x10 p.port
    st2.setState n .established

/-- `ESTABLISHED`: the peer disconnected (R284). -/
def Store.pollDisconnect (st : Store) (n : Fin 4) : Store := (st.release n).setState n .closed

/-- `ESTABLISHED`: pull stream bytes, as many as there is room for (R285). -/
def Store.pollStream (st : Store) (n : Fin 4) : Store :=
  let k := min (st.net n).stream.length (st.rxRoom n)
  if 0 < k then (st.emit (.take n k)).rxDeliver n ((st.net n).stream.take k) else st

/-- `UDP_READY`: pull one datagram behind its pseudo-header, whole or not at all (R286). -/
def Store.pollDatagram (st : Store) (n : Fin 4) : Store :=
  match (st.net n).dgram with
  | none => st
  | some d =>
    if 8 + d.payload.length ≤ st.rxRoom n then
      (st.emit (.take n d.payload.length)).rxDeliver n
        (pseudoHeader d.ip d.port d.payload.length ++ d.payload)
    else st

/-- `EnginePoll(n)` (R282). -/
def Store.poll (st : Store) (n : Fin 4) : Store :=
  match st.state n with
  | .listen => st.pollAccept n
  | .established => if (st.net n).peerClosed then st.pollDisconnect n else st.pollStream n
  | .udpReady => st.pollDatagram n
  | .closed => st
  | .init => st

/-- The polls of one tick, sockets 0, 1, 2, 3 in this order (R282, R321). -/
def Store.pollAll (st : Store) : Store := (((st.poll 0).poll 1).poll 2).poll 3

/-- What ends a tick: the polls, then the next tick's input (R321). -/
def Store.endTick (st : Store) : Store := st.pollAll.advance

end Sys2Proof.Machine
end

