-- ==== Sys2Proof/Machine/Commands.lean ====
section
/-! DEFINITION. Socket commands: the rules R241 to R248, their helper operations R249 and R250, and the meaning of
each command instruction. A rule that does not list the socket's state is a no-op (R240). -/

namespace Sys2Proof.Machine

/-! ### Helper operations -/

/-- The bytes of the transmit ring of socket `n` from offset `off` on, wrapping modulo `CAP` (R249). -/
def Store.txBytes (st : Store) (n : Fin 4) (off : Nat) : (len : Nat) → List Byte
  | 0 => []
  | len + 1 => st.tx n (BitVec.ofNat 11 off) :: Store.txBytes st n (off + 1) len

/-- How many bytes are queued: `((TX_WR & 0x7FF) - (TX_RD & 0x7FF)) mod CAP` (R249). -/
def Store.txQueued (st : Store) (n : Fin 4) : Nat :=
  ringDiff ((st.txWr n).toNat % 2048) ((st.txRd n).toNat % 2048)

/-- The bytes `DrainTx(n)` returns (R249). -/
def Store.drainData (st : Store) (n : Fin 4) : List Byte :=
  st.txBytes n ((st.txRd n).toNat % 2048) (st.txQueued n)

/-- The state `DrainTx(n)` leaves: TX_RD advanced, TX_FSR recomputed (R249). -/
def Store.drainTx (st : Store) (n : Fin 4) : Store :=
  (st.set16 n 0x22 (BitVec.ofNat 16 (((st.txRd n).toNat % 2048 + st.txQueued n) % 2048))).updateFsr n

/-- `ResetRings(n)` (R250). -/
def Store.resetRings (st : Store) (n : Fin 4) : Store :=
  (((((st.set16 n 0x22 0).set16 n 0x24 0).set16 n 0x20 0x0800).set16 n 0x26 0).set16 n 0x28 0).setWidx n 0

/-- `Deliver(n, bytes)`: a loopback reply is delivered whole or dropped whole (R317). -/
def Store.deliver (st : Store) (n : Fin 4) (bytes : List Byte) : Store :=
  if bytes.length ≤ st.rxRoom n then st.rxDeliver n bytes else st

/-- `LoopbackDhcp(n, req)` (R306). -/
def Store.loopbackDhcp (st : Store) (n : Fin 4) (req : List Byte) : Store :=
  let reply := dhcpReply st.cfg req
  st.deliver n (pseudoHeader st.cfg.loopbackSrc st.cfg.dhcpPort reply.length ++ reply)

/-- `LoopbackNtp(n, req)` (R311, R315). -/
def Store.loopbackNtp (st : Store) (n : Fin 4) (req : List Byte) : Store :=
  if req.length = st.cfg.ntpLen then
    let reply := ntpReply req st.env.nowUnix
    st.deliver n (pseudoHeader st.cfg.loopbackSrc st.cfg.ntpPort reply.length ++ reply)
  else st

/-- Where a UDP send goes (R246, R300): a loopback responder by DPORT, else NetEnv. -/
def Store.sendUdp (st : Store) (n : Fin 4) (data : List Byte) : Store :=
  if st.dport n = st.cfg.dhcpPort then st.loopbackDhcp n data
  else if st.dport n = st.cfg.ntpPort then st.loopbackNtp n data
  else st.emit (.sendUdp n (st.dipr n) (st.dport n) data)

/-! ### The command rules -/

/-- What a successful creation of a resource does: rings reset, resource owned, state `x` (R241). -/
def Store.opened (st : Store) (n : Fin 4) (x : SockState) : Store :=
  ((st.resetRings n).setResOut n true).setState n x

/-- PROTO, MR bits 3:0 (R30). -/
def Store.proto (st : Store) (n : Fin 4) : BitVec 4 := (st.mr n).extractLsb' 0 4

/-- MULTI, MR bit 7 (R30). -/
def Store.multi (st : Store) (n : Fin 4) : Bool := (st.mr n).getLsbD 7

/-- OPEN with PROTO 1 in `CLOSED` (R241). -/
def Store.openTcp (st : Store) (n : Fin 4) : Store :=
  let st1 := st.emit (.openTcp n)
  if (st1.net n).createOk then st1.opened n .init else st1

/-- OPEN with PROTO 2 in `CLOSED` (R241). -/
def Store.openUdp (st : Store) (n : Fin 4) : Store :=
  let st1 := st.emit (.openUdp n (st.port n) (st.multi n))
  if (st1.net n).createOk then st1.opened n .udpReady else st1

/-- OPEN (R241). -/
def Store.openRule (st : Store) (n : Fin 4) : Store :=
  if st.state n = .closed then
    if st.proto n = 1 then st.openTcp n
    else if st.proto n = 2 then st.openUdp n
    else st
  else st

/-- LISTEN (R242). -/
def Store.listenRule (st : Store) (n : Fin 4) : Store :=
  if st.state n = .init then
    let st1 := st.emit (.listen n (st.port n))
    if (st1.net n).bindOk then st1.setState n .listen else st1
  else st

/-- CONNECT (R243). -/
def Store.connectRule (st : Store) (n : Fin 4) : Store :=
  if st.state n = .init then
    let st1 := st.emit (.connect n (st.dipr n) (st.dport n))
    if (st1.net n).connectOk then st1.setState n .established else st1
  else st

/-- DISCON (R244). -/
def Store.disconRule (st : Store) (n : Fin 4) : Store :=
  if st.state n = .established ∨ st.state n = .udpReady then (st.release n).setState n .closed else st

/-- CLOSE (R245). -/
def Store.closeRule (st : Store) (n : Fin 4) : Store :=
  if st.state n = .closed then st else (st.release n).setState n .closed

/-- SEND in `ESTABLISHED` (R246). -/
def Store.sendTcpRule (st : Store) (n : Fin 4) : Store :=
  ((st.drainTx n).emit (.sendTcp n (st.drainData n))).flagSendOk n

/-- SEND in `UDP_READY` (R246). -/
def Store.sendUdpRule (st : Store) (n : Fin 4) : Store :=
  ((st.drainTx n).sendUdp n (st.drainData n)).flagSendOk n

/-- SEND (R246). -/
def Store.sendRule (st : Store) (n : Fin 4) : Store :=
  match st.state n with
  | .established => st.sendTcpRule n
  | .udpReady => st.sendUdpRule n
  | .closed => st
  | .init => st
  | .listen => st

/-- RECV (R247). -/
def Store.recvRule (st : Store) (n : Fin 4) : Store :=
  if st.state n = .established ∨ st.state n = .udpReady then
    st.set16 n 0x26 (BitVec.ofNat 16 (ringDiff (st.widx n).toNat ((st.rxRd n).toNat % 2048)))
  else st

/-- CMD.NOP: any other CR value (R248). -/
def Store.nopRule (st : Store) (_n : Fin 4) (_v : Byte) : Store := st

/-- `Dispatch(n, v)` (R240): the whole byte is compared with the seven codes. -/
def Store.dispatch (st : Store) (n : Fin 4) (v : Byte) : Store :=
  if v = st.cfg.codeOpen then st.openRule n
  else if v = st.cfg.codeListen then st.listenRule n
  else if v = st.cfg.codeConnect then st.connectRule n
  else if v = st.cfg.codeDiscon then st.disconRule n
  else if v = st.cfg.codeClose then st.closeRule n
  else if v = st.cfg.codeSend then st.sendRule n
  else if v = st.cfg.codeRecv then st.recvRule n
  else st.nopRule n v

/-! ### The meanings of the command instructions

Each is the rule `Dispatch` applies; the store and the clear of CR around it are the router's (R207). -/

/-- OPEN (R241). -/
def execCmdOpen (n : Fin 4) (s : State) : Host.Outcome State Fault Refusal :=
  .next { s with store := s.store.openRule n }

/-- LISTEN (R242). -/
def execCmdListen (n : Fin 4) (s : State) : Host.Outcome State Fault Refusal :=
  .next { s with store := s.store.listenRule n }

/-- CONNECT (R243). -/
def execCmdConnect (n : Fin 4) (s : State) : Host.Outcome State Fault Refusal :=
  .next { s with store := s.store.connectRule n }

/-- DISCON (R244). -/
def execCmdDiscon (n : Fin 4) (s : State) : Host.Outcome State Fault Refusal :=
  .next { s with store := s.store.disconRule n }

/-- CLOSE (R245). -/
def execCmdClose (n : Fin 4) (s : State) : Host.Outcome State Fault Refusal :=
  .next { s with store := s.store.closeRule n }

/-- SEND (R246). -/
def execCmdSend (n : Fin 4) (s : State) : Host.Outcome State Fault Refusal :=
  .next { s with store := s.store.sendRule n }

/-- RECV (R247). -/
def execCmdRecv (n : Fin 4) (s : State) : Host.Outcome State Fault Refusal :=
  .next { s with store := s.store.recvRule n }

/-- CMD.NOP (R248). -/
def execCmdNop (n : Fin 4) (v : Byte) (s : State) : Host.Outcome State Fault Refusal :=
  .next { s with store := s.store.nopRule n v }

end Sys2Proof.Machine
end

