-- ==== Sys2Proof/Machine/Router.lean ====
section
/-! DEFINITION. The address router and register cell access (spec R200 to R217) and Model B's region access (R178). -/

namespace Sys2Proof.Machine

/-- What a flat address names (R71). -/
inductive Target where
  | common (i : Byte)
  | bank (n : Fin 4) (c : Byte)
  | tx (n : Fin 4) (i : BitVec 11)
  | rx (n : Fin 4) (i : BitVec 11)
  | unmapped
  deriving DecidableEq, Repr

/-- The address map (R71, R203, R214, R215, R216). -/
def resolve (a : Half) : Target :=
  let x := a.toNat
  if x < 0x100 then .common (BitVec.ofNat 8 x)
  else if 0x400 ≤ x ∧ x < 0x800 then .bank (Fin.ofNat 4 ((x - 0x400) / 0x100)) (BitVec.ofNat 8 x)
  else if 0x4000 ≤ x ∧ x < 0x6000 then .tx (Fin.ofNat 4 ((x - 0x4000) / 0x800)) (BitVec.ofNat 11 x)
  else if 0x6000 ≤ x ∧ x < 0x8000 then .rx (Fin.ofNat 4 ((x - 0x6000) / 0x800)) (BitVec.ofNat 11 x)
  else .unmapped

/-- `SockRead(n, c)`: SR is the code of the lifecycle state, every other cell its stored byte (R204). -/
def Store.sockRead (st : Store) (n : Fin 4) (c : Byte) : Byte :=
  if c = 0x03 then (st.state n).code else st.reg n c

/-- `RouterRead(a)` (R200). -/
def Store.routerRead (st : Store) (a : Half) : Byte :=
  match resolve a with
  | .common i => st.peek i.toNat
  | .bank n c => st.sockRead n c
  | .tx n i => st.tx n i
  | .rx n i => st.rx n i
  | .unmapped => 0x00

/-- Write to CR: store, dispatch, clear (R207). -/
def Store.writeCr (st : Store) (n : Fin 4) (v : Byte) : Store :=
  ((st.setReg n 0x01 v).dispatch n v).setReg n 0x01 0x00

/-- Write to TX_WR, cell `c` in 0x24, 0x25: store, then recompute TX_FSR (R211). -/
def Store.writeTxWr (st : Store) (n : Fin 4) (c v : Byte) : Store := (st.setReg n c v).updateFsr n

/-- The cells whose writes are ignored: SR (R209), TX_FSR, TX_RD, RX_RSR (R210). -/
def isReadOnlyCell (c : Byte) : Bool :=
  c == 0x03 || c == 0x20 || c == 0x21 || c == 0x22 || c == 0x23 || c == 0x26 || c == 0x27

/-- `SockWrite(n, c, v)` (R205): CR (R207), IR (R208), the read-only cells (R209, R210), TX_WR (R211); MR (R206),
RX_RD (R212) and every other cell (R213) just store. -/
def Store.sockWrite (st : Store) (n : Fin 4) (c v : Byte) : Store :=
  if c = 0x01 then st.writeCr n v
  else if c = 0x02 then st.clearIr n v
  else if isReadOnlyCell c then st
  else if c = 0x24 ∨ c = 0x25 then st.writeTxWr n c v
  else st.setReg n c v

/-- `RouterWrite(a, v)` (R201). -/
def Store.routerWrite (st : Store) (a : Half) (v : Byte) : Store :=
  match resolve a with
  | .common i => st.poke i.toNat v
  | .bank n c => st.sockWrite n c v
  | .tx n i => st.poke (txAddr n i) v
  | .rx n i => st.poke (rxAddr n i) v
  | .unmapped => st

/-- `RegionRead(bsb, addr, k)` (R178): a reserved selector reads 0x00. -/
def Store.regionRead (st : Store) (bsb : BitVec 5) (addr k : Half) : Byte :=
  match effAddr st.cfg bsb addr k with
  | none => 0x00
  | some a => st.routerRead a

/-- `RegionWrite(bsb, addr, k, v)` (R178): a reserved selector drops the write. -/
def Store.regionWrite (st : Store) (bsb : BitVec 5) (addr k : Half) (v : Byte) : Store :=
  match effAddr st.cfg bsb addr k with
  | none => st
  | some a => st.routerWrite a v

end Sys2Proof.Machine
end

