-- ==== Sys2Proof/Machine/Sampling.lean ====
section
/-! DEFINITION. The serial bus sampler (spec R130 to R141): its step and the operations it offers the decoder. -/

namespace Sys2Proof.Machine

/-- Select deasserted: all shift state is cleared; `ready` and `rx_byte` survive (R131). -/
def Sampler.deselected (p : Sampler) : Sampler :=
  { p with bitcnt := 0, shin := 0, shout := 0, prevClk := false, dout := false }

/-- Byte completion, the eighth edge (R133). -/
def Sampler.complete (p : Sampler) : Sampler := { p with rxByte := p.shin, ready := true, bitcnt := 0 }

/-- A rising edge: shift `din` in, drive the top bit, then shift the outbound value (R132). -/
def Sampler.edge (p : Sampler) (din : Bool) : Sampler :=
  let q := { p with shin := shiftIn p.shin din, dout := p.shout.getLsbD 7, shout := p.shout <<< 1 }
  let r := if p.bitcnt = 7 then q.complete else { q with bitcnt := q.bitcnt + 1 }
  { r with prevClk := true }

/-- No rising edge: only the clock level is remembered (R134). -/
def Sampler.steady (p : Sampler) (clk : Bool) : Sampler := { p with prevClk := clk }

/-- `SamplerStep(sel_n, clk, din)` (R131, R132, R134). -/
def Sampler.step (p : Sampler) (l : Lines) : Sampler :=
  if l.selN then p.deselected
  else if !p.prevClk && l.clk then p.edge l.din
  else p.steady l.clk

/-- `isSelected()`: the `sel_n` sampled in this tick was 0 (R135). -/
def isSelected (l : Lines) : Bool := !l.selN

/-- `isDataReady()` (R136). -/
def Sampler.isDataReady (p : Sampler) : Bool := p.ready

/-- The byte `getByte()` returns (R137). -/
def Sampler.getByte (p : Sampler) : Byte := p.rxByte

/-- What `getByte()` leaves: the ready flag is consumed (R137). -/
def Sampler.consumed (p : Sampler) : Sampler := { p with ready := false }

/-- `setOutputByte(v)`: prime the outbound shift register (R138). -/
def Sampler.setOutputByte (p : Sampler) (v : Byte) : Sampler := { p with shout := v }

end Sys2Proof.Machine
end

