-- ==== Sys2Proof/Machine/DecoderA.lean ====
section
/-! DEFINITION. The Model A transaction decoder: one definition per rule of its step (spec R150 to R157). -/

namespace Sys2Proof.Machine

/-- Select deasserted: drain and discard a published byte, reset the transaction state (R151). -/
def State.deselectA (s : State) : State :=
  { s with
    smp := if s.smp.isDataReady then s.smp.consumed else s.smp
    dec := { s.dec with st := .aWait, addr := 0, cmd := 0, dir := .read } }

/-- State `A_WAIT`: a recognised command byte starts a transaction (R153), any other is ignored (R154). -/
def State.commandA (s : State) (b : Byte) : State :=
  if b = 0xF0 then { s with dec := { s.dec with cmd := b, dir := .write, st := .aAddrHi } }
  else if b = 0x0F then { s with dec := { s.dec with cmd := b, dir := .read, st := .aAddrHi } }
  else { s with dec := { s.dec with st := .aWait } }

/-- State `A_ADDR_HI` (R155, R107). -/
def State.addrHiA (s : State) (b : Byte) : State :=
  { s with dec := { s.dec with addr := addrOf b 0, st := .aAddrLo } }

/-- State `A_ADDR_LO`, with the read preload (R156). -/
def State.addrLoA (s : State) (b : Byte) : State :=
  let addr := s.dec.addr ||| BitVec.zeroExtend 16 b
  { s with
    smp := match s.dec.dir with
      | .read => s.smp.setOutputByte (s.store.routerRead addr)
      | .write => s.smp
    dec := { s.dec with addr := addr, st := .aData } }

/-- State `A_DATA`: store on a write, discard on a read (R157). -/
def State.dataA (s : State) (b : Byte) : State :=
  { s with
    store := match s.dec.dir with
      | .write => s.store.routerWrite s.dec.addr b
      | .read => s.store
    dec := { s.dec with st := .aWait } }

/-- A byte is consumed (R150). A label of the other variant is never reached; the byte is then dropped (log 10). -/
def State.byteA (s : State) : State :=
  let b := s.smp.getByte
  let t := { s with smp := s.smp.consumed }
  match s.dec.st with
  | .aWait => t.commandA b
  | .aAddrHi => t.addrHiA b
  | .aAddrLo => t.addrLoA b
  | .aData => t.dataA b
  | .bWait => t
  | .bAddrLo => t
  | .bCmd => t
  | .bData => t

/-- `DecoderStepA()` (R150); selected with no byte ready is a no-op (R152). -/
def State.decoderStepA (s : State) (selected : Bool) : State :=
  if !selected then s.deselectA
  else if !s.smp.isDataReady then s
  else s.byteA

end Sys2Proof.Machine
end

