-- ==== Sys2Proof/Machine/DecoderB.lean ====
section
/-! DEFINITION. The Model B transaction decoder: one definition per rule of its step (spec R170 to R177). -/

namespace Sys2Proof.Machine

/-- `dec.stage[i]` (R24). -/
def Decoder.staged (d : Decoder) (i : Nat) : Byte := Memory.read stageResetByte d.stage i

/-- The commit of a staged write: `len` bytes from index `k` on, ascending, each through the router (R171). -/
def Store.flush (st : Store) (d : Decoder) (k : Nat) : (len : Nat) → Store
  | 0 => st
  | len + 1 =>
    Store.flush (st.regionWrite (ctlBsb d.cmd) d.addr (BitVec.ofNat 16 k) (d.staged k)) d (k + 1) len

/-- What the deselected tick commits (R171). -/
def State.commitB (s : State) : Store :=
  match s.dec.st, s.dec.dir with
  | .bData, .write => s.store.flush s.dec 0 s.dec.count.toNat
  | _, _ => s.store

/-- Select deasserted: drain and discard a published byte, commit, reset the transaction state (R171). -/
def State.deselectB (s : State) : State :=
  { s with
    smp := if s.smp.isDataReady then s.smp.consumed else s.smp
    store := s.commitB
    dec := { s.dec with st := .bWait, addr := 0, cmd := 0, dir := .read, count := 0 } }

/-- State `B_WAIT`: address high byte (R173, R107). -/
def State.addrHiB (s : State) (b : Byte) : State :=
  { s with dec := { s.dec with addr := addrOf b 0, st := .bAddrLo } }

/-- State `B_ADDR_LO` (R174, R107). -/
def State.addrLoB (s : State) (b : Byte) : State :=
  { s with dec := { s.dec with addr := s.dec.addr ||| BitVec.zeroExtend 16 b, st := .bCmd } }

/-- State `B_CMD`: the control byte, with the first read preload (R175). -/
def State.controlB (s : State) (b : Byte) : State :=
  { s with
    smp := if ctlWrite b then s.smp else s.smp.setOutputByte (s.store.regionRead (ctlBsb b) s.dec.addr 0)
    dec := { s.dec with cmd := b, dir := if ctlWrite b then .write else .read, count := 0, st := .bData } }

/-- State `B_DATA`, read: advance and prefetch (R176). -/
def State.prefetchB (s : State) : State :=
  let count := s.dec.count + 1
  { s with
    smp := s.smp.setOutputByte (s.store.regionRead (ctlBsb s.dec.cmd) s.dec.addr count)
    dec := { s.dec with count := count } }

/-- State `B_DATA`, write: stage, or drop beyond `STAGE_CAP` (R177). -/
def State.stageB (s : State) (b : Byte) : State :=
  if s.dec.count.toNat < s.store.cfg.stageCap then
    { s with
      dec := { s.dec with
        stage := Memory.write stageResetByte s.dec.stage s.dec.count.toNat b
        count := s.dec.count + 1 } }
  else s

/-- A byte is consumed (R170). A label of the other variant is never reached; the byte is then dropped (log 10). -/
def State.byteB (s : State) : State :=
  let b := s.smp.getByte
  let t := { s with smp := s.smp.consumed }
  match s.dec.st with
  | .bWait => t.addrHiB b
  | .bAddrLo => t.addrLoB b
  | .bCmd => t.controlB b
  | .bData =>
    match s.dec.dir with
    | .read => t.prefetchB
    | .write => t.stageB b
  | .aWait => t
  | .aAddrHi => t
  | .aAddrLo => t
  | .aData => t

/-- `DecoderStepB()` (R170); selected with no byte ready is a no-op (R172). -/
def State.decoderStepB (s : State) (selected : Bool) : State :=
  if !selected then s.deselectB
  else if !s.smp.isDataReady then s
  else s.byteB

end Sys2Proof.Machine
end

