-- ==== Sys2Proof/Machine/Facade.lean ====
section
/-! DEFINITION. The chip facade: its identity (R1) and the tick (spec R320 to R325). -/

namespace Sys2Proof.Machine

/-- The identity the chip carries (R1), that of its variant. -/
def State.identity (s : State) : Identity := identityOf s.store.cfg.model

/-- The inputs of one tick (R320). -/
structure TickInput where
  lines : Lines
  env : EnvIn
  deriving DecidableEq, Repr

/-- The outputs of one tick (R320). -/
structure TickOutput where
  dout : Bool
  events : List NetEvent
  deriving DecidableEq, Repr

/-- The decoder step of the fixed variant (R321, R322). -/
def State.decoderStep (s : State) (selected : Bool) : State :=
  match s.store.cfg.model with
  | .a => s.decoderStepA selected
  | .b => s.decoderStepB selected

/-- One tick with the given levels: sampler, decoder, polls 0 to 3 (R321). The environment's input is the one
`Store.env` gives. -/
def State.drive (s : State) (l : Lines) : State :=
  let s1 := { s with smp := s.smp.step l }
  let s2 := s1.decoderStep (isSelected l)
  { s2 with store := s2.store.endTick }

/-- `Tick` (R320): the next state and the outputs, for an input given whole. The events are those emitted in this
tick, in order. -/
def tick (s : State) (i : TickInput) : State × TickOutput :=
  let t := State.drive { s with store := { s.store with envq := i.env :: s.store.envq } } i.lines
  (t, ⟨t.smp.dout, t.store.events.drop s.store.events.length⟩)

/-- `advance()` (R323): the tick and the suggested time until the next call, the constant `TICK_INTERVAL`. -/
def advance (s : State) (i : TickInput) : (State × TickOutput) × ℕ+ := (tick s i, Config.tickInterval)

end Sys2Proof.Machine
end

