-- ==== Sys2Proof/Machine/Bus.lean ====
section
/-! DEFINITION. The bus master's operations as runs of ticks (spec R112, R113), and the meaning of each bus
transaction: the run of its expansion. -/

namespace Sys2Proof.Machine

/-- `SEL`: one tick with `sel_n = 0, clk = 0`; `din` is not sampled (R112). -/
def State.sel (s : State) : State := s.drive ⟨false, false, false⟩

/-- `DESEL`: one tick with `sel_n = 1, clk = 0` (R112). -/
def State.desel (s : State) : State := s.drive ⟨true, false, false⟩

/-- `IDLE t`: `t` ticks with the lines at `l` (R112). -/
def State.idle (s : State) (l : Lines) : (t : Nat) → State
  | 0 => s
  | t + 1 => State.idle (s.drive l) l t

/-- One bit of a transfer: a tick with the clock low, a tick with the clock high (R112). -/
def State.clockBit (s : State) (d : Bool) : State := (s.drive ⟨false, false, d⟩).drive ⟨false, true, d⟩

/-- The bits of a transfer in turn; `r` collects what the master reads on `dout` after each high tick (R112). -/
def State.clockBits (s : State) (r : Byte) : List Bool → State × Byte
  | [] => (s, r)
  | d :: ds =>
    let t := s.clockBit d
    State.clockBits t (shiftIn r t.smp.dout) ds

/-- `XFER b -> r`: sixteen ticks; the byte read joins `received` (R112). -/
def State.xfer (s : State) (b : Byte) : State :=
  let run := s.clockBits 0 (bitsMsb b)
  { run.1 with received := run.1.received ++ [run.2] }

/-- One `XFER` per byte, in order. -/
def State.xfers (s : State) (bytes : List Byte) : State := bytes.foldl State.xfer s

/-- `SEL; XFER b0; XFER b1; …; DESEL` (R113). -/
def State.runFrame (s : State) (bytes : List Byte) : State := (s.sel.xfers bytes).desel

/-! ### Pseudo-operations of R113, as queue entries -/

/-- The flat address `S(n) + c` (R113). -/
def bankHalf (n : Fin 4) (c : Byte) : Half := BitVec.ofNat 16 (bankAddr n c)

/-- The region selector `4n + 1` of the register bank of socket `n` (R113). -/
def bankBsb (n : Fin 4) : BitVec 5 := BitVec.ofNat 5 (4 * n.val + 1)

/-- A transaction queued as one frame. -/
def queued (c : Config) (i : Instr) : BusOp := .frame (encode c i)

/-- `WR8 n, c, v` (R113). -/
def opWr8 (cfg : Config) (n : Fin 4) (c v : Byte) : BusOp :=
  match cfg.model with
  | .a => queued cfg (.aWrite (bankHalf n c) v)
  | .b => queued cfg (.bWrite (bankBsb n) 0 (BitVec.zeroExtend 16 c) [v])

/-- `RD8 n, c` (R113). -/
def opRd8 (cfg : Config) (n : Fin 4) (c : Byte) : BusOp :=
  match cfg.model with
  | .a => queued cfg (.aRead (bankHalf n c) 0)
  | .b => queued cfg (.bRead (bankBsb n) 0 (BitVec.zeroExtend 16 c) [0])

/-- The two bytes of a 16-bit field in cell order (R113, R37). -/
def fieldBytes (cfg : Config) (v : Half) : Byte × Byte :=
  match cfg.order with
  | .le => (loByte v, hiByte v)
  | .be => (hiByte v, loByte v)

/-- `WR16 n, c, v` (R113): the second byte goes to the flat address after the first, in the next bank where `c` is the
last cell. -/
def opWr16 (cfg : Config) (n : Fin 4) (c : Byte) (v : Half) : List BusOp :=
  let (first, second) := fieldBytes cfg v
  match cfg.model with
  | .a => [queued cfg (.aWrite (bankHalf n c) first), queued cfg (.aWrite (bankHalf n c + 1) second)]
  | .b => [queued cfg (.bWrite (bankBsb n) 0 (BitVec.zeroExtend 16 c) [first, second])]

/-- `CMD n, X` with the code of `X` (R113). -/
def opCmd (cfg : Config) (n : Fin 4) (code : Byte) : BusOp := opWr8 cfg n 0x01 code

/-! ### The meanings of the bus transactions

Each is the run of its expansion on whichever chip is addressed, polls of every tick included. -/

/-- `A.WRITE a, d` (R113, R158). -/
def execAWrite (a : Half) (d : Byte) (s : State) : Host.Outcome State Fault Refusal :=
  .next (s.runFrame (encode s.store.cfg (.aWrite a d)))

/-- `A.READ a -> r`; `r` is the last byte received (R113, R159). -/
def execARead (a : Half) (x : Byte) (s : State) : Host.Outcome State Fault Refusal :=
  .next (s.runFrame (encode s.store.cfg (.aRead a x)))

/-- `A.NOP b` (R113, R160). -/
def execANop (b : Byte) (s : State) : Host.Outcome State Fault Refusal :=
  .next (s.runFrame (encode s.store.cfg (.aNop b)))

/-- `B.READ bsb, a, k -> [r0, …]`; the results are the last `k` bytes received (R113, R179). -/
def execBRead (bsb : BitVec 5) (mm : BitVec 2) (a : Half) (xs : List Byte) (s : State) :
    Host.Outcome State Fault Refusal :=
  .next (s.runFrame (encode s.store.cfg (.bRead bsb mm a xs)))

/-- `B.WRITE bsb, a, [d0, …]` (R113, R180). -/
def execBWrite (bsb : BitVec 5) (mm : BitVec 2) (a : Half) (ds : List Byte) (s : State) :
    Host.Outcome State Fault Refusal :=
  .next (s.runFrame (encode s.store.cfg (.bWrite bsb mm a ds)))

end Sys2Proof.Machine
end

