-- ==== Sys2Proof/Machine/Dispatch.lean ====
section
/-! DEFINITION. The meaning of every instruction: one arm per constructor. -/

namespace Sys2Proof.Machine

def exec (i : Instr) (s : State) : Host.Outcome State Fault Refusal :=
  match i with
  | .aWrite addr data => Sys2Proof.Machine.execAWrite addr data s
  | .aRead addr dummy => Sys2Proof.Machine.execARead addr dummy s
  | .aNop op => Sys2Proof.Machine.execANop op s
  | .bRead bsb mm addr dummies => Sys2Proof.Machine.execBRead bsb mm addr dummies s
  | .bWrite bsb mm addr data => Sys2Proof.Machine.execBWrite bsb mm addr data s
  | .cmdOpen n => Sys2Proof.Machine.execCmdOpen n s
  | .cmdListen n => Sys2Proof.Machine.execCmdListen n s
  | .cmdConnect n => Sys2Proof.Machine.execCmdConnect n s
  | .cmdDiscon n => Sys2Proof.Machine.execCmdDiscon n s
  | .cmdClose n => Sys2Proof.Machine.execCmdClose n s
  | .cmdSend n => Sys2Proof.Machine.execCmdSend n s
  | .cmdRecv n => Sys2Proof.Machine.execCmdRecv n s
  | .cmdNop n v => Sys2Proof.Machine.execCmdNop n v s

end Sys2Proof.Machine
end

