-- ==== Sys2Proof/Machine/Fetch.lean ====
section
/-! DEFINITION. What the next step runs: the operation at the head of the bus master's queue. The chip has no program
counter and fetches nothing from its own memory (spec R27, R82). -/

namespace Sys2Proof.Machine

/-- What a step finds to do. -/
inductive Fetched where
  /-- An instruction to run in the state `t`. -/
  | instr (i : Instr) (t : State)
  /-- A step that is no single instruction: its result. -/
  | done (t : State)
  deriving DecidableEq, Repr

/-- Take the next bus operation. A frame that is one whole transaction is that instruction; any other frame
(aborted, chained, empty) is run tick by tick, since no byte sequence is without effect (R110, R161). A single
tick's levels run as that tick. With nothing queued the levels are free (log 4). -/
def State.fetch (s : State) : Fetched :=
  match s.bus with
  | [] => .done (s.drive (Config.freeLines s.store.ticks))
  | .levels l :: rest => .done (State.drive { s with bus := rest } l)
  | .frame bytes :: rest =>
    match decode s.store.cfg .bus bytes with
    | .ok i => .instr i { s with bus := rest }
    | .error _ => .done (State.runFrame { s with bus := rest } bytes)

/-- The chip of variant `m`, idle, with the bytes of one selection queued next. -/
def State.placeFrame (s : State) (m : Model) (bytes : List Byte) : State :=
  { s with
    store := { s.store with cfg := { s.store.cfg with model := m } }
    smp := Sampler.reset
    dec := { Decoder.reset m with stage := s.dec.stage }
    bus := .frame bytes :: s.bus }

/-- The chip one tick before a write of `v` to CR of socket 0 takes effect: under Model A before the 32nd edge of
`A.WRITE 0x0401, v` (R157), under Model B before the deselected tick of `B.WRITE 1, 0x0001, [v]` (R171). -/
def State.placeCommand (s : State) (v : Byte) : State :=
  match s.store.cfg.model with
  | .a =>
    { s with
      smp := { Sampler.reset with bitcnt := 7, shin := v >>> 1 }
      dec := { s.dec with st := .aData, addr := bankHalf 0 0x01, cmd := 0xF0, dir := .write }
      bus := .levels ⟨false, true, v.getLsbD 0⟩ :: s.bus }
  | .b =>
    { s with
      smp := Sampler.reset
      dec :=
        { s.dec with
          st := .bData, addr := 0x0001, cmd := ctlByte (bankBsb 0) true 0, dir := .write, count := 1
          stage := Memory.write stageResetByte s.dec.stage 0 v }
      bus := .levels ⟨true, false, false⟩ :: s.bus }

/-- Place a word of spec/opcode_table.json where the next step runs it (log 6, log 7); a word of no row changes
nothing. -/
def State.placeWord (s : State) (nbits w : Nat) : State :=
  match placeTableWord nbits w with
  | none => s
  | some (.bus m bytes) => s.placeFrame m bytes
  | some (.cr v) => s.placeCommand v

end Sys2Proof.Machine
end

