-- ==== Sys2Proof/Machine/Step.lean ====
section
/-! DEFINITION. One step: the next bus operation, as an instruction where it is one. -/

namespace Sys2Proof.Machine

/-- One step of the machine. -/
def step (s : State) : Host.Outcome State Fault Refusal :=
  match s.fetch with
  | .instr i t => exec i t
  | .done t => .next t

/-- The instruction of a table word, placed so that the very next step runs it. -/
def State.withFetchWord (s : State) (nbits w : Nat) : State := s.placeWord nbits w

end Sys2Proof.Machine
end

