-- ==== Sys2Proof/Safety.lean ====
section
/-! DEFINITION. The terms claims use: the invariants of spec R41 with the ranges the rules give, and the bus conditions
under which a transaction starts (R112: "A program always starts with the lines at sel_n = 1, clk = 0, din = 0"). -/

namespace Sys2Proof.Machine

/-- Invariant 1 of R41: `TX_FSR = CAP - ((TX_WR - TX_RD) mod CAP)`. -/
abbrev Store.FsrOk (st : Store) (n : Fin 4) : Prop :=
  (st.txFsr n).toNat = 2048 - ringDiff (st.txWr n).toNat (st.txRd n).toNat

/-- The equation of invariants 4 and 7 of R41: `RX_RSR = (widx - RX_RD) mod CAP`. -/
abbrev Store.RsrTracks (st : Store) (n : Fin 4) : Prop :=
  (st.rxRsr n).toNat = ringDiff (st.widx n).toNat (st.rxRd n).toNat

/-- What R41 (items 1, 2, 3, 5) and R40 say of one socket in every reachable state. -/
abbrev Store.SockOk (st : Store) (n : Fin 4) : Prop :=
  st.FsrOk n ∧ (st.txRd n).toNat < 2048 ∧ (st.rxRsr n).toNat < 2048 ∧
  st.reg n 0x01 = 0x00 ∧ st.ir n &&& 0xEB = 0x00 ∧
  (st.resOut n = true ↔ st.state n ≠ .closed) ∧ (st.resAcc n = true → st.state n = .established)

/-- The memory is in canonical form and lists mapped addresses only. -/
abbrev Store.MemOk (st : Store) : Prop :=
  Memory.wf (resetByte st.cfg) st.mem = true ∧ st.mem.all (fun c => isMapped c.1) = true

/-- What holds of the cells and sockets in every reachable state. -/
abbrev Store.Inv (st : Store) : Prop :=
  st.cfg.Wf ∧ st.MemOk ∧ ∀ n : Fin 4, st.SockOk n

/-- The decoder labels of a variant (R26). -/
def DecSt.ofModel : DecSt → Model → Bool
  | .aWait, m => m == .a
  | .aAddrHi, m => m == .a
  | .aAddrLo, m => m == .a
  | .aData, m => m == .a
  | .bWait, m => m == .b
  | .bAddrLo, m => m == .b
  | .bCmd, m => m == .b
  | .bData, m => m == .b

/-- What holds of the decoder: its label is one of its variant's (R26), a staged count is at most `STAGE_CAP` (R177),
and the staging buffer is in canonical form within its size (R24). -/
abbrev State.DecOk (s : State) : Prop :=
  s.dec.st.ofModel s.store.cfg.model = true ∧
  (s.dec.st = .bData → s.dec.dir = .write → s.dec.count.toNat ≤ s.store.cfg.stageCap) ∧
  Memory.wf stageResetByte s.dec.stage = true ∧
  s.dec.stage.all (fun c => c.1 < s.store.cfg.stageCap) = true

/-- The invariant of the machine: R41 items 1, 2, 3, 5, 6 and the ranges above. -/
abbrev State.Inv (s : State) : Prop :=
  s.store.Inv ∧ s.DecOk ∧ s.smp.ready = false

/-- The chip as the bus master finds it after a deselected tick: the sampler's shift state cleared (R131), the decoder
idle (R151, R171), no byte waiting. -/
abbrev State.BusIdle (s : State) : Prop :=
  s.smp.bitcnt = 0 ∧ s.smp.shin = 0 ∧ s.smp.shout = 0 ∧ s.smp.prevClk = false ∧ s.smp.ready = false ∧
  s.smp.dout = false ∧ s.dec.st = idleSt s.store.cfg.model ∧ s.dec.addr = 0 ∧ s.dec.cmd = 0 ∧ s.dec.dir = .read ∧
  (s.store.cfg.model = .b → s.dec.count = 0)

/-- `k` ticks of polls with no router access in them: what passes beside a transaction (R321). -/
def Store.wait (st : Store) : (k : Nat) → Store
  | 0 => st
  | k + 1 => Store.wait st.endTick k

/-- The bytes `bs` written through region `bsb` from offset `k` on, ascending: what a Model B burst commits (R180). -/
def Store.regionWrites (st : Store) (bsb : BitVec 5) (addr : Half) (k : Nat) : List Byte → Store
  | [] => st
  | b :: bs => Store.regionWrites (st.regionWrite bsb addr (BitVec.ofNat 16 k) b) bsb addr (k + 1) bs

/-- The bytes queued in the transmit ring of socket `n`, from TX_RD up to TX_WR (R249). -/
def Store.queuedBytes (st : Store) (n : Fin 4) : List Byte :=
  (List.range (ringDiff (st.txWr n).toNat (st.txRd n).toNat)).map fun i =>
    st.tx n (BitVec.ofNat 11 ((st.txRd n).toNat + i))

/-- FRAME: every address outside `p` reads as before. -/
abbrev Store.CellsKept (st t : Store) (p : Nat → Prop) : Prop := ∀ a : Nat, ¬ p a → t.peek a = st.peek a

/-- FRAME: the hidden state of every socket but `n`, the parameters and the environment's side are as before. -/
abbrev Store.OthersKept (st t : Store) (n : Fin 4) : Prop :=
  (∀ m : Fin 4, m ≠ n → t.sock[m] = st.sock[m]) ∧ t.cfg = st.cfg ∧ t.envq = st.envq ∧ t.ticks = st.ticks

/-- The address belongs to socket `n`: its bank or one of its rings (R71). -/
abbrev ownAddr (n : Fin 4) (a : Nat) : Prop :=
  (∃ c, a = bankAddr n c) ∨ (∃ i, a = txAddr n i) ∨ (∃ i, a = rxAddr n i)

/-- Every socket is in a state whose poll does nothing (R288). -/
abbrev Store.Quiet (st : Store) : Prop :=
  ∀ n : Fin 4, st.state n = .closed ∨ st.state n = .init

/-- Socket `n` has nothing to do in this tick (R325): `CLOSED` or `INIT`, or another state with NetEnv offering nothing
that the state reads. -/
abbrev Store.PollIdle (st : Store) (n : Fin 4) : Prop :=
  st.state n = .closed ∨ st.state n = .init ∨ (st.state n = .listen ∧ (st.net n).pending = none) ∨
  (st.state n = .established ∧ (st.net n).peerClosed = false ∧ (st.net n).stream = []) ∨
  (st.state n = .udpReady ∧ (st.net n).dgram = none)

end Sys2Proof.Machine
end

