-- ==== Sys2Proof/Certificates/Slice0/Obligations.lean ====
section
/-! DEFINITION. The statements for the provers. Each cites the rules of spec/ it formalises; the list with titles and
bases is OBLIGATIONS.json. `wait k` stands for the polls of `k` ticks (R321), `CellsKept` and `OthersKept` for frames
(Safety.lean). -/

open Sys2Proof Sys2Proof.Machine

/-! ### Encoding -/

/-- R102 to R109: decoding the encoding of a well-formed instruction, from the stream it belongs to, gives it back,
whatever the parameters, as long as the seven command codes are distinct. Rests on the spec's own decisions D12, D17:
log 8. -/
def Obligations.DecodeOfEncodeIsTheInstruction : Prop :=
  ∀ (c : Config) (i : Instr), c.codes.Nodup → i.wellFormed c = true → decode c i.source (encode c i) = .ok i

/-- R102 to R109: what decodes is well-formed, belongs to that stream, and encodes to the very bytes read, so no bit
of an encoding is dropped. Rests on the spec's own decisions D12, D17: log 8. -/
def Obligations.EncodeOfDecodeIsTheBytes : Prop :=
  ∀ (c : Config) (src : Source) (bytes : List Byte) (i : Instr), decode c src bytes = .ok i →
    encode c i = bytes ∧ i.wellFormed c = true ∧ i.source = src

/-- Words written out from the encodings of R102 to R105 and R109 decode to the instructions they stand for. Rests on
the spec's own decision D12: log 8. -/
def Obligations.SampleWordsDecode : Prop :=
  decode (defaultConfig .a) .bus [0xF0, 0x00, 0x10, 0xA5] = .ok (.aWrite 0x0010 0xA5) ∧
  decode (defaultConfig .a) .bus [0x0F, 0x04, 0x03, 0x00] = .ok (.aRead 0x0403 0x00) ∧
  decode (defaultConfig .b) .bus [0x00, 0x00, 0x14, 0xDE, 0xAD] = .ok (.bWrite 2 0 0x0000 [0xDE, 0xAD]) ∧
  decode (defaultConfig .b) .bus [0x00, 0x26, 0x28, 0x00, 0x00] = .ok (.bRead 5 0 0x0026 [0x00, 0x00]) ∧
  decode (defaultConfig .a) (.cr 3) [0x20] = .ok (.cmdSend 3) ∧
  decode (defaultConfig .a) (.cr 1) [0x21] = .ok (.cmdNop 1 0x21)

/-! ### The step -/

/-- A step runs the decoded instruction: where the next bus operation is the bytes of one whole transaction, the step
is `exec` of it with the operation taken from the queue. R101, R110, R161, R182: where they are no single transaction
(aborted, chained, empty), the step clocks those bytes all the same, between a select and a deselect. Rests on the
MODEL's choice of a step and of the queue: log 4, log 5. -/
def Obligations.StepRunsTheDecodedInstruction : Prop :=
  ∀ (s : State) (bytes : List Byte) (rest : List BusOp), s.bus = .frame bytes :: rest →
    (∀ i : Instr, decode s.store.cfg .bus bytes = .ok i → step s = exec i { s with bus := rest }) ∧
    ∀ e : DecodeError, decode s.store.cfg .bus bytes = .error e →
      step s = .next (State.runFrame { s with bus := rest } bytes)

/-- R207, R240: a router write to CR of bank `n` stores the byte, runs the command it decodes to, and clears the cell,
so CR reads 0x00 after every write, whatever the byte. The command's meaning reaches a run through this write. -/
def Obligations.CrWriteRunsTheDecodedCommand : Prop :=
  ∀ (s : State) (n : Fin 4) (v : Byte),
    (∃ u : Store,
      exec (decodeCommand s.store.cfg n v) { s with store := s.store.setReg n 0x01 v } = .next { s with store := u } ∧
      s.store.routerWrite (BitVec.ofNat 16 (bankAddr n 0x01)) v = u.setReg n 0x01 0x00) ∧
    (s.store.routerWrite (BitVec.ofNat 16 (bankAddr n 0x01)) v).routerRead (BitVec.ofNat 16 (bankAddr n 0x01)) = 0x00

/-- R110, R320, R330: every state has a next state; nothing faults and nothing is refused. Rests on the MODEL's choice
of what one step is: log 5. -/
def Obligations.EveryStepAnswersANextState : Prop :=
  ∀ s : State, ∃ t : State, step s = .next t

/-- R320: the events a tick reports are exactly those it appends to the log, in order, and the level it reports is the
one it leaves driven. Rests on an event log of the MODEL's own: log 9. -/
def Obligations.TickReportsItsEvents : Prop :=
  ∀ (s : State) (i : TickInput),
    (tick s i).1.store.events = s.store.events ++ (tick s i).2.events ∧ (tick s i).2.dout = (tick s i).1.smp.dout

/-- R322: `MODEL` and the other parameters are fixed for the instance's lifetime, and with them the identity of R1.
Rests on the MODEL's choice to hold the parameters in State: log 1. -/
def Obligations.NoStepChangesTheParameters : Prop :=
  ∀ s t : State, step s = .next t → t.store.cfg = s.store.cfg ∧ t.identity = s.identity

/-! ### Bus transactions, from the levels of the lines up -/

/-- R158: `A.WRITE` is 66 ticks whose only access is one router write, in the tick of the 32nd edge; `dout` carries 0.
Rests on the spec's own decisions D5 to D9, D37; the record of received bytes is the MODEL's: log 8, log 9. -/
def Obligations.AWriteIsOneRouterWrite : Prop :=
  ∀ (s : State) (a : Half) (d : Byte), s.store.cfg.model = .a → s.BusIdle →
    exec (.aWrite a d) s = .next { s with
      store := ((s.store.wait 64).routerWrite a d).endTick.endTick
      smp := { Sampler.reset with rxByte := d }
      received := s.received ++ [0, 0, 0, 0] }

/-- R159: `A.READ` delivers, MSB first, the byte the cell held when the third byte completed, and changes nothing but
the sampler and the decoder beside the polls of its 66 ticks. Rests on the spec's own decisions D3 to D9, D37; the
record of received bytes is the MODEL's: log 8, log 9. -/
def Obligations.AReadDeliversTheCell : Prop :=
  ∀ (s : State) (a : Half) (x : Byte), s.store.cfg.model = .a → s.BusIdle →
    exec (.aRead a x) s = .next { s with
      store := s.store.wait 66
      smp := { Sampler.reset with rxByte := x }
      received := s.received ++ [0, 0, 0, (s.store.wait 48).routerRead a] }

/-- R160: any other byte is ignored; the 18 ticks pass and 0x00 is shifted out. Rests on the spec's own decisions D5
to D9, D37; the record of received bytes is the MODEL's: log 8, log 9. -/
def Obligations.ANopIsIgnored : Prop :=
  ∀ (s : State) (b : Byte), s.store.cfg.model = .a → s.BusIdle → b ≠ 0xF0 → b ≠ 0x0F →
    exec (.aNop b) s = .next { s with
      store := s.store.wait 18
      smp := { Sampler.reset with rxByte := b }
      received := s.received ++ [0] }

/-- R180: `B.WRITE` writes nothing while select is asserted; the deselected tick writes the first `STAGE_CAP` bytes
ascending through the router. Rests on the spec's own decisions D5 to D9, D15 to D18, D37; the record of received
bytes is the MODEL's: log 8, log 9. -/
def Obligations.BWriteCommitsOnDeselect : Prop :=
  ∀ (s : State) (bsb : BitVec 5) (mm : BitVec 2) (a : Half) (ds : List Byte),
    s.store.cfg.model = .b → s.store.cfg.stageCap ≤ 65535 → s.BusIdle →
    ∃ (p : Sampler) (stage : Memory), exec (.bWrite bsb mm a ds) s = .next { s with
      store := ((s.store.wait (1 + 16 * (3 + ds.length))).regionWrites bsb a 0
        (ds.take s.store.cfg.stageCap)).endTick
      smp := p
      dec := { s.dec with stage := stage }
      received := s.received ++ List.replicate (3 + ds.length) 0 }

/-- R179: `B.READ` delivers byte `i` of the region as it was when the transfer before it completed, and changes
nothing but the sampler and the decoder beside the polls of its ticks. Rests on the spec's own decisions D3 to D9,
D14, D15, D17, D18, D37; the record of received bytes is the MODEL's: log 8, log 9. -/
def Obligations.BReadDeliversTheRegion : Prop :=
  ∀ (s : State) (bsb : BitVec 5) (mm : BitVec 2) (a : Half) (xs : List Byte),
    s.store.cfg.model = .b → s.BusIdle →
    ∃ p : Sampler, exec (.bRead bsb mm a xs) s = .next { s with
      store := s.store.wait (2 + 16 * (3 + xs.length))
      smp := p
      received := s.received ++ [0, 0, 0] ++
        (List.range xs.length).map fun i =>
          (s.store.wait (48 + 16 * i)).regionRead bsb a (BitVec.ofNat 16 i) }

/-- Frame of `A.WRITE` where no poll acts (R288) and the address is a common cell or a ring byte: that byte is `d`,
every other byte of memory, every socket and every event is as before. Rests on the spec's own decisions D5 to D9: log
8. -/
def Obligations.AWriteToPlainCellFrame : Prop :=
  ∀ (s : State) (a : Half) (d : Byte), s.store.cfg.model = .a → s.BusIdle → s.store.Quiet →
    (a.toNat < 0x100 ∨ (0x4000 ≤ a.toNat ∧ a.toNat < 0x8000)) →
    ∃ t : State, exec (.aWrite a d) s = .next t ∧ t.store.peek a.toNat = d ∧
      s.store.CellsKept t.store (fun x => x = a.toNat) ∧ t.store.sock = s.store.sock ∧
      t.store.events = s.store.events ∧ t.dec = s.dec ∧ t.BusIdle

/-- R131, R151, R171, R361: every deselected tick leaves the bus idle, whatever the transaction was. Rests on the
spec's own decisions D5, D6, D9: log 8. -/
def Obligations.DeselectedTickIdlesTheBus : Prop :=
  ∀ (s : State) (l : Lines), l.selN = true → (s.drive l).BusIdle

/-- R79, R150 to R157, R170: the decoder writes to the cells in no tick but these: under Model A a selected tick in
which a byte completes in `A_DATA` of a write, under Model B a deselected tick. In every other tick the cells, sockets
and events change through the polls alone. R101, R161, R182, R332, from an idle bus and for a queued frame that holds
no byte, or the first one to three bytes of an `A.WRITE` or `A.READ` and no more, or the first one or two bytes of a
Model B header and no more: the step leaves the polls of its ticks, zeros on `dout`, its last byte in `smp.rx_byte`,
the decoder idle, and nothing else. A Model A frame that holds a whole transaction and ends inside a later one keeps
the writes completed in it (R161): it decodes as chained, and this clause does not speak of it. Rests on the spec's
own decisions D5 to D9, D16: log 8; the step on a queued frame and the record of received bytes are the MODEL's: log
4, log 5, log 9. -/
def Obligations.DecoderWritesAreConfined : Prop :=
  (∀ (s : State) (l : Lines),
    (s.store.cfg.model = .a ∧ (l.selN = true ∨ (s.smp.step l).ready = false ∨ s.dec.st ≠ .aData ∨ s.dec.dir = .read)) ∨
      (s.store.cfg.model = .b ∧ l.selN = false) →
    (s.drive l).store = s.store.endTick) ∧
  ∀ (s : State) (bytes : List Byte) (rest : List BusOp), s.BusIdle → s.bus = .frame bytes :: rest →
    decode s.store.cfg .bus bytes = .error .aborted ∨ decode s.store.cfg .bus bytes = .error .empty →
    step s = .next { s with
      store := s.store.wait (2 + 16 * bytes.length)
      smp := { Sampler.reset with rxByte := bytes.getLastD s.smp.rxByte }
      bus := rest
      received := s.received ++ List.replicate bytes.length 0 }

/-- R177: a data byte is staged at index `count` below `STAGE_CAP`, dropped at `STAGE_CAP`; nothing else changes.
Rests on the spec's own decision D16: log 8. -/
def Obligations.StagingStopsAtItsCapacity : Prop :=
  ∀ (s : State) (b : Byte), s.store.cfg.stageCap ≤ 65535 →
    (s.dec.count.toNat < s.store.cfg.stageCap →
      (∃ (stage : Memory) (count : Half), s.stageB b = { s with dec := { s.dec with stage := stage, count := count } }) ∧
      (s.stageB b).dec.count.toNat = s.dec.count.toNat + 1 ∧
      ∀ i : Nat, (s.stageB b).dec.staged i = if i = s.dec.count.toNat then b else s.dec.staged i) ∧
    (s.store.cfg.stageCap ≤ s.dec.count.toNat → s.stageB b = s)

/-- R325: with the bus idle and every socket in `CLOSED` or `INIT`, or in another state with NetEnv offering nothing,
a deselected tick changes nothing and emits nothing (the model's own tick counter and input queue move on). Rests on
the spec's own decisions D5, D6: log 8; the tick counter and the input queue are the MODEL's: log 3. -/
def Obligations.QuiescentTickChangesNothing : Prop :=
  ∀ (s : State) (l : Lines), s.BusIdle → (∀ n : Fin 4, s.store.PollIdle n) → l.selN = true →
    s.drive l = { s with store := s.store.advance }

/-! ### Sampler -/

/-- R139: eight rising edges from bit counter 0 assemble the byte MSB first; the ready flag is set by the eighth and
by none before. Rests on the spec's own decision D7: log 8. -/
def Obligations.SamplerAssemblesMsbFirst : Prop :=
  ∀ (p : Sampler) (v : Byte), p.bitcnt = 0 → p.ready = false →
    let pulse := fun (q : Sampler) (b : Bool) => (q.step ⟨false, false, b⟩).step ⟨false, true, b⟩
    ((bitsMsb v).foldl pulse p).rxByte = v ∧ ((bitsMsb v).foldl pulse p).ready = true ∧
    ((bitsMsb v).foldl pulse p).bitcnt = 0 ∧
    ∀ j : Nat, j < 8 → (((bitsMsb v).take j).foldl pulse p).ready = false

/-- R138, R140: after a byte is primed, the level after edge `j` is bit `7 - j` of it. Rests on the spec's own
decisions D3, D4: log 8. -/
def Obligations.PrimedByteShiftsOutMsbFirst : Prop :=
  ∀ (p : Sampler) (v w : Byte) (j : Nat), j < 8 →
    let pulse := fun (q : Sampler) (b : Bool) => (q.step ⟨false, false, b⟩).step ⟨false, true, b⟩
    (((bitsMsb w).take (j + 1)).foldl pulse (p.setOutputByte v)).dout = v.getLsbD (7 - j)

/-- R134: selected and no rising edge: the clock level is remembered and nothing else changes, `dout` included. -/
def Obligations.SamplerSteadyTick : Prop :=
  ∀ (p : Sampler) (l : Lines), l.selN = false → ¬ (p.prevClk = false ∧ l.clk = true) →
    p.step l = { p with prevClk := l.clk }

/-! ### Router -/

/-- R71: every cell stands at the address the map gives it, and every address outside the four ranges is unmapped.
Rests on the spec's own decision D10 for the unmapped ranges: log 8. -/
def Obligations.AddressMapIsExact : Prop :=
  (∀ i : Byte, resolve (BitVec.zeroExtend 16 i) = .common i) ∧
  (∀ (n : Fin 4) (c : Byte), resolve (BitVec.ofNat 16 (bankAddr n c)) = .bank n c) ∧
  (∀ (n : Fin 4) (i : BitVec 11), resolve (BitVec.ofNat 16 (txAddr n i)) = .tx n i) ∧
  (∀ (n : Fin 4) (i : BitVec 11), resolve (BitVec.ofNat 16 (rxAddr n i)) = .rx n i) ∧
  ∀ a : Half, isMapped a.toNat = false ↔ resolve a = .unmapped

/-- R217: writing a cell and reading it back gives the written value, for every common cell, every ring byte and every
bank cell but CR, IR, SR, TX_FSR, TX_RD and RX_RSR. Rests on the spec's own conflict C6 and decision D11: log 8. -/
def Obligations.PlainCellsRoundTrip : Prop :=
  ∀ (st : Store) (a : Half) (v : Byte),
    (a.toNat < 0x100 ∨ (0x4000 ≤ a.toNat ∧ a.toNat < 0x8000) ∨
      ∃ (n : Fin 4) (c : Byte), a.toNat = bankAddr n c ∧ c ≠ 0x01 ∧ c ≠ 0x02 ∧ isReadOnlyCell c = false) →
    (st.routerWrite a v).routerRead a = v

/-- R72, R216: an unmapped address reads 0x00 and drops writes. Rests on the spec's own decision D10: log 8. -/
def Obligations.UnmappedAddressesAreIgnored : Prop :=
  ∀ (st : Store) (a : Half) (v : Byte), isMapped a.toNat = false →
    st.routerRead a = 0x00 ∧ st.routerWrite a v = st

/-- R209, R210: writes to SR, TX_FSR, TX_RD and RX_RSR change nothing. -/
def Obligations.ReadOnlyCellsIgnoreWrites : Prop :=
  ∀ (st : Store) (n : Fin 4) (c v : Byte),
    c = 0x03 ∨ c = 0x20 ∨ c = 0x21 ∨ c = 0x22 ∨ c = 0x23 ∨ c = 0x26 ∨ c = 0x27 →
    st.routerWrite (BitVec.ofNat 16 (bankAddr n c)) v = st

/-- R208: a write to IR clears exactly the bits written as 1, twice is once, and nothing else changes. Rests on the
spec's own decision D39: log 8. -/
def Obligations.IrWriteClearsTheWrittenBits : Prop :=
  ∀ (st : Store) (n : Fin 4) (v : Byte),
    let w := fun (x : Store) => x.routerWrite (BitVec.ofNat 16 (bankAddr n 0x02)) v
    (w st).ir n = st.ir n &&& ~~~v ∧ (w (w st)).ir n = (w st).ir n ∧
    st.CellsKept (w st) (fun x => x = bankAddr n 0x02) ∧ (w st).sock = st.sock ∧ (w st).events = st.events

/-- R211: a byte write to TX_WR stores the byte and recomputes TX_FSR, a value in 1..2048; nothing else changes. -/
def Obligations.TxWrWriteRecomputesFreeSize : Prop :=
  ∀ (st : Store) (n : Fin 4) (c v : Byte), c = 0x24 ∨ c = 0x25 →
    let t := st.routerWrite (BitVec.ofNat 16 (bankAddr n c)) v
    t.reg n c = v ∧ t.FsrOk n ∧ 1 ≤ (t.txFsr n).toNat ∧ (t.txFsr n).toNat ≤ 2048 ∧ t.txRd n = st.txRd n ∧
    st.CellsKept t (fun x => x = bankAddr n c ∨ x = bankAddr n 0x20 ∨ x = bankAddr n 0x21) ∧
    t.sock = st.sock ∧ t.events = st.events

/-- R206, R212, R213: a write to MR, RX_RD or any cell with no rule of its own stores the byte and changes nothing
else. Rests on the spec's own decisions D11, D41: log 8. -/
def Obligations.StoringCellsJustStore : Prop :=
  ∀ (st : Store) (n : Fin 4) (c v : Byte),
    c ≠ 0x01 → c ≠ 0x02 → isReadOnlyCell c = false → c ≠ 0x24 → c ≠ 0x25 →
    let t := st.routerWrite (BitVec.ofNat 16 (bankAddr n c)) v
    t.reg n c = v ∧ st.CellsKept t (fun x => x = bankAddr n c) ∧ t.sock = st.sock ∧ t.events = st.events

/-- R202, R214, R215: an address of the common block or of a ring reads the cell the map gives it and a write stores
the byte there; no pointer moves, no other cell, no socket and no event changes. -/
def Obligations.CommonAndRingCellsJustStore : Prop :=
  ∀ (st : Store) (a : Half) (v : Byte),
    (a.toNat < 0x100 → st.routerRead a = st.peek a.toNat) ∧
    (0x4000 ≤ a.toNat ∧ a.toNat < 0x6000 → ∃ (n : Fin 4) (i : BitVec 11),
      n.val = (a.toNat - 0x4000) / 2048 ∧ i.toNat = a.toNat % 2048 ∧
      st.routerRead a = st.tx n i ∧ (st.routerWrite a v).tx n i = v ∧ txAddr n i = a.toNat) ∧
    (0x6000 ≤ a.toNat ∧ a.toNat < 0x8000 → ∃ (n : Fin 4) (i : BitVec 11),
      n.val = (a.toNat - 0x6000) / 2048 ∧ i.toNat = a.toNat % 2048 ∧
      st.routerRead a = st.rx n i ∧ (st.routerWrite a v).rx n i = v ∧ rxAddr n i = a.toNat) ∧
    (a.toNat < 0x100 ∨ (0x4000 ≤ a.toNat ∧ a.toNat < 0x8000) →
      (st.routerWrite a v).peek a.toNat = v ∧ st.CellsKept (st.routerWrite a v) (fun x => x = a.toNat) ∧
      (st.routerWrite a v).sock = st.sock ∧ (st.routerWrite a v).events = st.events)

/-- R33: SR reads the code of the lifecycle state, so no value but the five codes, and a write to it is ignored. -/
def Obligations.SrReadsTheStateCode : Prop :=
  ∀ (st : Store) (n : Fin 4) (v : Byte),
    (st.state n = .closed → st.routerRead (BitVec.ofNat 16 (bankAddr n 0x03)) = 0x00) ∧
    (st.state n = .init → st.routerRead (BitVec.ofNat 16 (bankAddr n 0x03)) = 0x13) ∧
    (st.state n = .listen → st.routerRead (BitVec.ofNat 16 (bankAddr n 0x03)) = 0x14) ∧
    (st.state n = .established → st.routerRead (BitVec.ofNat 16 (bankAddr n 0x03)) = 0x17) ∧
    (st.state n = .udpReady → st.routerRead (BitVec.ofNat 16 (bankAddr n 0x03)) = 0x22) ∧
    st.routerRead (BitVec.ofNat 16 (bankAddr n 0x03)) ∈ ([0x00, 0x13, 0x14, 0x17, 0x22] : List Byte) ∧
    st.routerWrite (BitVec.ofNat 16 (bankAddr n 0x03)) v = st

/-! ### Socket commands -/

/-- R241, R250: OPEN in `CLOSED` with PROTO 1 or 2 and the resource created: rings reset, resource owned, `INIT` or
`UDP_READY`; every other byte and every other socket as before. Rests on the spec's own decisions D13, D20, D29, D42:
log 8. -/
def Obligations.OpenSucceeds : Prop :=
  ∀ (s : State) (n : Fin 4), s.store.state n = .closed → (s.store.net n).createOk = true →
    (s.store.proto n = 1 ∨ s.store.proto n = 2) →
    ∃ t : Store, exec (.cmdOpen n) s = .next { s with store := t } ∧
      t.state n = (if s.store.proto n = 1 then .init else .udpReady) ∧ t.resOut n = true ∧
      t.resAcc n = s.store.resAcc n ∧ t.widx n = 0 ∧
      t.txRd n = 0 ∧ t.txWr n = 0 ∧ t.txFsr n = 0x0800 ∧ t.rxRsr n = 0 ∧ t.rxRd n = 0 ∧
      t.events = s.store.events ++
        [if s.store.proto n = 1 then .openTcp n else .openUdp n (s.store.port n) (s.store.multi n)] ∧
      s.store.CellsKept t (fun a => bankAddr n 0x20 ≤ a ∧ a ≤ bankAddr n 0x29) ∧ s.store.OthersKept t n

/-- R241 (a), R331: OPEN in `CLOSED` with PROTO 1 or 2 whose resource is not created changes nothing; the request was
emitted. Rests on the spec's own decision D29: log 8. -/
def Obligations.OpenFailureChangesNothing : Prop :=
  ∀ (s : State) (n : Fin 4), s.store.state n = .closed → (s.store.net n).createOk = false →
    (s.store.proto n = 1 ∨ s.store.proto n = 2) →
    exec (.cmdOpen n) s = .next { s with store := { s.store with events := s.store.events ++
      [if s.store.proto n = 1 then .openTcp n else .openUdp n (s.store.port n) (s.store.multi n)] } }

/-- R242: LISTEN in `INIT` asks for PORT and becomes `LISTEN` exactly where the bind succeeds; no byte of memory and
no other socket changes. In every other state it is a no-op. -/
def Obligations.ListenRule : Prop :=
  ∀ (s : State) (n : Fin 4),
    (s.store.state n = .init →
      ∃ t : Store, exec (.cmdListen n) s = .next { s with store := t } ∧
        t.state n = (if (s.store.net n).bindOk then .listen else .init) ∧
        t.widx n = s.store.widx n ∧ t.resOut n = s.store.resOut n ∧ t.resAcc n = s.store.resAcc n ∧
        t.events = s.store.events ++ [.listen n (s.store.port n)] ∧
        s.store.CellsKept t (fun _ => False) ∧ s.store.OthersKept t n) ∧
    (s.store.state n ≠ .init → exec (.cmdListen n) s = .next s)

/-- R243: CONNECT in `INIT` asks for DIPR and DPORT and becomes `ESTABLISHED` exactly where the connect succeeds; no
byte of memory and no other socket changes. In every other state it is a no-op. -/
def Obligations.ConnectRule : Prop :=
  ∀ (s : State) (n : Fin 4),
    (s.store.state n = .init →
      ∃ t : Store, exec (.cmdConnect n) s = .next { s with store := t } ∧
        t.state n = (if (s.store.net n).connectOk then .established else .init) ∧
        t.widx n = s.store.widx n ∧ t.resOut n = s.store.resOut n ∧ t.resAcc n = s.store.resAcc n ∧
        t.events = s.store.events ++ [.connect n (s.store.dipr n) (s.store.dport n)] ∧
        s.store.CellsKept t (fun _ => False) ∧ s.store.OthersKept t n) ∧
    (s.store.state n ≠ .init → exec (.cmdConnect n) s = .next s)

/-- R244, R245, R251: DISCON in `ESTABLISHED` and `UDP_READY`, and CLOSE in every state but `CLOSED`, release both
resources with one event where one is owned and become `CLOSED`; no byte of memory and no other socket changes. In
every other state each is a no-op. -/
def Obligations.DisconAndCloseRelease : Prop :=
  ∀ (s : State) (n : Fin 4),
    (∀ i : Instr, (i = .cmdDiscon n ∧ (s.store.state n = .established ∨ s.store.state n = .udpReady)) ∨
        (i = .cmdClose n ∧ s.store.state n ≠ .closed) →
      ∃ t : Store, exec i s = .next { s with store := t } ∧
        t.state n = .closed ∧ t.resOut n = false ∧ t.resAcc n = false ∧ t.widx n = s.store.widx n ∧
        t.events = s.store.events ++
          (if s.store.resAcc n = true ∨ s.store.resOut n = true then [.close n] else []) ∧
        s.store.CellsKept t (fun _ => False) ∧ s.store.OthersKept t n) ∧
    (s.store.state n ≠ .established → s.store.state n ≠ .udpReady → exec (.cmdDiscon n) s = .next s) ∧
    (s.store.state n = .closed → exec (.cmdClose n) s = .next s)

/-- R246, R249: SEND in `ESTABLISHED` hands the queued bytes to the connection, moves TX_RD to TX_WR, restores TX_FSR
to full and sets SEND_OK; every other byte and every other socket as before. Rests on the spec's own decisions D19,
D29, D31: log 8. -/
def Obligations.SendTcpDrainsTheRing : Prop :=
  ∀ (s : State) (n : Fin 4), s.store.state n = .established →
    ∃ t : Store, exec (.cmdSend n) s = .next { s with store := t } ∧
      (t.txRd n).toNat = (s.store.txWr n).toNat % 2048 ∧ t.txWr n = s.store.txWr n ∧ t.txFsr n = 0x0800 ∧
      t.ir n = s.store.ir n ||| 0x10 ∧ t.sock = s.store.sock ∧
      t.events = s.store.events ++ [.sendTcp n (s.store.queuedBytes n)] ∧
      s.store.CellsKept t (fun a => a = bankAddr n 0x02 ∨ (bankAddr n 0x20 ≤ a ∧ a ≤ bankAddr n 0x23)) ∧
      s.store.OthersKept t n

/-- R246, R249: SEND in `UDP_READY` to a port that is no loopback port hands the queued bytes to NetEnv with DIPR and
DPORT; the registers change as for TCP. Rests on the spec's own decisions D19, D29, D31, D32: log 8. -/
def Obligations.SendUdpDrainsTheRing : Prop :=
  ∀ (s : State) (n : Fin 4), s.store.state n = .udpReady →
    s.store.dport n ≠ s.store.cfg.dhcpPort → s.store.dport n ≠ s.store.cfg.ntpPort →
    ∃ t : Store, exec (.cmdSend n) s = .next { s with store := t } ∧
      (t.txRd n).toNat = (s.store.txWr n).toNat % 2048 ∧ t.txWr n = s.store.txWr n ∧ t.txFsr n = 0x0800 ∧
      t.ir n = s.store.ir n ||| 0x10 ∧ t.sock = s.store.sock ∧
      t.events = s.store.events ++
        [.sendUdp n (s.store.dipr n) (s.store.dport n) (s.store.queuedBytes n)] ∧
      s.store.CellsKept t (fun a => a = bankAddr n 0x02 ∨ (bankAddr n 0x20 ≤ a ∧ a ≤ bankAddr n 0x23)) ∧
      s.store.OthersKept t n

/-- R246, R306, R317: SEND to the address-assignment port with room for the reply delivers pseudo-header and reply
into the receive ring, emits nothing, and sets both flags. Rests on the spec's own decisions D19, D23 to D27, D40: log
8. -/
def Obligations.SendToDhcpPortIsAnswered : Prop :=
  ∀ (s : State) (n : Fin 4), s.store.state n = .udpReady → s.store.dport n = s.store.cfg.dhcpPort →
    270 ≤ s.store.rxRoom n →
    ∃ t : Store, exec (.cmdSend n) s = .next { s with store := t } ∧
      (∀ i : Nat, i < 270 → some (t.rx n (BitVec.ofNat 11 ((s.store.widx n).toNat + i))) =
        (pseudoHeader s.store.cfg.loopbackSrc s.store.cfg.dhcpPort 262 ++
          dhcpReply s.store.cfg (s.store.queuedBytes n))[i]?) ∧
      t.widx n = s.store.widx n + 270 ∧ t.rxRsr n = s.store.rxRsr n + 270 ∧
      (t.txRd n).toNat = (s.store.txWr n).toNat % 2048 ∧ t.txFsr n = 0x0800 ∧
      t.ir n = s.store.ir n ||| 0x14 ∧ t.state n = .udpReady ∧ t.events = s.store.events ∧ s.store.OthersKept t n ∧
      s.store.CellsKept t (fun a => a = bankAddr n 0x02 ∨ (bankAddr n 0x20 ≤ a ∧ a ≤ bankAddr n 0x23) ∨
        (bankAddr n 0x26 ≤ a ∧ a ≤ bankAddr n 0x27) ∨
        ∃ i : Nat, i < 270 ∧ a = rxAddr n (BitVec.ofNat 11 ((s.store.widx n).toNat + i)))

/-- R246, R311, R315, R317: SEND of a 48-byte request to the time-sync port with room for the reply delivers
pseudo-header and reply into the receive ring, emits nothing, and sets both flags. Rests on the spec's own decisions
D19, D23, D25, D28, D40: log 8, log 13. -/
def Obligations.SendToNtpPortIsAnswered : Prop :=
  ∀ (s : State) (n : Fin 4), s.store.cfg.Wf → s.store.cfg.ntpLen = 48 → s.store.state n = .udpReady →
    s.store.dport n = s.store.cfg.ntpPort → (s.store.queuedBytes n).length = 48 → 56 ≤ s.store.rxRoom n →
    ∃ t : Store, exec (.cmdSend n) s = .next { s with store := t } ∧
      (∀ i : Nat, i < 56 → some (t.rx n (BitVec.ofNat 11 ((s.store.widx n).toNat + i))) =
        (pseudoHeader s.store.cfg.loopbackSrc s.store.cfg.ntpPort 48 ++
          ntpReply (s.store.queuedBytes n) s.store.env.nowUnix)[i]?) ∧
      t.widx n = s.store.widx n + 56 ∧ t.rxRsr n = s.store.rxRsr n + 56 ∧
      (t.txRd n).toNat = (s.store.txWr n).toNat % 2048 ∧ t.txFsr n = 0x0800 ∧
      t.ir n = s.store.ir n ||| 0x14 ∧ t.state n = .udpReady ∧ t.events = s.store.events ∧ s.store.OthersKept t n ∧
      s.store.CellsKept t (fun a => a = bankAddr n 0x02 ∨ (bankAddr n 0x20 ≤ a ∧ a ≤ bankAddr n 0x23) ∨
        (bankAddr n 0x26 ≤ a ∧ a ≤ bankAddr n 0x27) ∨
        ∃ i : Nat, i < 56 ∧ a = rxAddr n (BitVec.ofNat 11 ((s.store.widx n).toNat + i)))

/-- R311, R317: a loopback request that gets no reply (time-sync of another length, or no room for the reply) still
completes: the ring is drained, SEND_OK alone is set, nothing is delivered and nothing emitted. Rests on the spec's
own decisions D19, D28, D40: log 8. -/
def Obligations.UnansweredLoopbackSendStillCompletes : Prop :=
  ∀ (s : State) (n : Fin 4), s.store.cfg.Wf → s.store.cfg.ntpLen = 48 → s.store.state n = .udpReady →
    (s.store.dport n = s.store.cfg.dhcpPort ∧ s.store.rxRoom n < 270) ∨
      (s.store.dport n = s.store.cfg.ntpPort ∧
        ((s.store.queuedBytes n).length ≠ 48 ∨ s.store.rxRoom n < 56)) →
    ∃ t : Store, exec (.cmdSend n) s = .next { s with store := t } ∧
      (t.txRd n).toNat = (s.store.txWr n).toNat % 2048 ∧ t.txFsr n = 0x0800 ∧
      t.ir n = s.store.ir n ||| 0x10 ∧ t.sock = s.store.sock ∧ t.events = s.store.events ∧
      s.store.CellsKept t (fun a => a = bankAddr n 0x02 ∨ (bankAddr n 0x20 ≤ a ∧ a ≤ bankAddr n 0x23)) ∧
      s.store.OthersKept t n

/-- R247, R41 item 7: RECV in `ESTABLISHED` and `UDP_READY` recomputes RX_RSR from the write index and RX_RD; nothing
else changes. In every other state it is a no-op. Rests on the spec's own decision D19: log 8. -/
def Obligations.RecvRecomputesReceivedSize : Prop :=
  ∀ (s : State) (n : Fin 4),
    (s.store.state n = .established ∨ s.store.state n = .udpReady →
      ∃ t : Store, exec (.cmdRecv n) s = .next { s with store := t } ∧
        (t.rxRsr n).toNat = ringDiff (s.store.widx n).toNat ((s.store.rxRd n).toNat % 2048) ∧ t.RsrTracks n ∧
        (t.rxRsr n).toNat < 2048 ∧ t.sock = s.store.sock ∧ t.events = s.store.events ∧
        s.store.CellsKept t (fun a => bankAddr n 0x26 ≤ a ∧ a ≤ bankAddr n 0x27) ∧ s.store.OthersKept t n) ∧
    (s.store.state n ≠ .established → s.store.state n ≠ .udpReady → exec (.cmdRecv n) s = .next s)

/-- R248, R252: every combination of command and state the matrix marks as a no-op leaves the state as it is,
`CMD.NOP` in every state included. Rests on the spec's own decisions D13, D42: log 8. -/
def Obligations.MatrixNoOps : Prop :=
  ∀ (s : State) (n : Fin 4) (v : Byte) (i : Instr),
    (i = .cmdOpen n ∧ (s.store.state n ≠ .closed ∨ (s.store.proto n ≠ 1 ∧ s.store.proto n ≠ 2))) ∨
      (i = .cmdListen n ∧ s.store.state n ≠ .init) ∨ (i = .cmdConnect n ∧ s.store.state n ≠ .init) ∨
      (i = .cmdDiscon n ∧ s.store.state n ≠ .established ∧ s.store.state n ≠ .udpReady) ∨
      (i = .cmdClose n ∧ s.store.state n = .closed) ∨
      (i = .cmdSend n ∧ s.store.state n ≠ .established ∧ s.store.state n ≠ .udpReady) ∨
      (i = .cmdRecv n ∧ s.store.state n ≠ .established ∧ s.store.state n ≠ .udpReady) ∨ i = .cmdNop n v →
    exec i s = .next s

/-! ### Events -/

/-- R287: a delivery that fits stores byte `i` at offset `widx + i` modulo `CAP`, moves `widx`, adds to RX_RSR and
sets IR bit 2; every other byte, every other socket and the rest of this one are as before. Rests on the spec's own
decisions D19, D22: log 8. -/
def Obligations.DeliveryIntoTheReceiveRing : Prop :=
  ∀ (st : Store) (n : Fin 4) (bytes : List Byte), bytes.length ≤ st.rxRoom n →
    let t := st.rxDeliver n bytes
    (∀ i : Nat, i < bytes.length → some (t.rx n (BitVec.ofNat 11 ((st.widx n).toNat + i))) = bytes[i]?) ∧
    (t.widx n).toNat = ((st.widx n).toNat + bytes.length) % 2048 ∧
    (t.rxRsr n).toNat = (st.rxRsr n).toNat + bytes.length ∧ t.ir n = st.ir n ||| 0x04 ∧
    t.state n = st.state n ∧ t.resOut n = st.resOut n ∧ t.resAcc n = st.resAcc n ∧ t.events = st.events ∧
    st.OthersKept t n ∧
    st.CellsKept t (fun a => a = bankAddr n 0x02 ∨ (bankAddr n 0x26 ≤ a ∧ a ≤ bankAddr n 0x27) ∨
      ∃ i : Nat, i < bytes.length ∧ a = rxAddr n (BitVec.ofNat 11 ((st.widx n).toNat + i)))

/-- R283: a pending connection is accepted: DIPR and DPORT take the peer's, the accepted resource is owned beside the
listening one, `ESTABLISHED`; no flag is set, no pointer moves. With none pending nothing changes. -/
def Obligations.AcceptRecordsThePeer : Prop :=
  ∀ (st : Store) (n : Fin 4), st.state n = .listen →
    (∀ p : Peer, (st.net n).pending = some p →
      (st.poll n).state n = .established ∧ (st.poll n).dipr n = p.ip ∧ (st.poll n).dport n = p.port ∧
      (st.poll n).resAcc n = true ∧ (st.poll n).resOut n = st.resOut n ∧ (st.poll n).widx n = st.widx n ∧
      (st.poll n).events = st.events ++ [.accept n] ∧
      st.CellsKept (st.poll n) (fun a => bankAddr n 0x0C ≤ a ∧ a ≤ bankAddr n 0x11) ∧ st.OthersKept (st.poll n) n) ∧
    ((st.net n).pending = none → st.poll n = st)

/-- R284: a peer disconnect closes the socket whatever data is offered: both resources are released with one event
where one is owned; no byte of memory changes, so received bytes stay readable. -/
def Obligations.PeerDisconnectWins : Prop :=
  ∀ (st : Store) (n : Fin 4), st.state n = .established → (st.net n).peerClosed = true →
    (st.poll n).state n = .closed ∧ (st.poll n).resOut n = false ∧ (st.poll n).resAcc n = false ∧
    (st.poll n).widx n = st.widx n ∧
    (st.poll n).events = st.events ++ (if st.resAcc n = true ∨ st.resOut n = true then [.close n] else []) ∧
    st.CellsKept (st.poll n) (fun _ => False) ∧ st.OthersKept (st.poll n) n

/-- R285: stream bytes are pulled in order, as many as there is room for, and delivered; with none, or no room,
nothing changes. Rests on the spec's own decisions D21, D22: log 8. -/
def Obligations.StreamPullTakesWhatFits : Prop :=
  ∀ (st : Store) (n : Fin 4), st.state n = .established → (st.net n).peerClosed = false →
    let k := min (st.net n).stream.length (2047 - (st.rxRsr n).toNat)
    (k = 0 → st.poll n = st) ∧
    (0 < k → (st.poll n).events = st.events ++ [.take n k] ∧
      (st.poll n).rxRsr n = st.rxRsr n + BitVec.ofNat 16 k ∧
      (st.poll n).widx n = st.widx n + BitVec.ofNat 11 k ∧ (st.poll n).ir n = st.ir n ||| 0x04 ∧
      (st.poll n).state n = .established ∧ (st.poll n).resOut n = st.resOut n ∧
      (st.poll n).resAcc n = st.resAcc n ∧ st.OthersKept (st.poll n) n ∧
      (∀ i : Nat, i < k →
        some ((st.poll n).rx n (BitVec.ofNat 11 ((st.widx n).toNat + i))) = (st.net n).stream[i]?) ∧
      st.CellsKept (st.poll n) (fun a => a = bankAddr n 0x02 ∨ (bankAddr n 0x26 ≤ a ∧ a ≤ bankAddr n 0x27) ∨
        ∃ i : Nat, i < k ∧ a = rxAddr n (BitVec.ofNat 11 ((st.widx n).toNat + i))))

/-- R286: a datagram is stored behind its pseudo-header whole where it fits, and left with NetEnv where it does not,
or where none is offered. Rests on the spec's own decisions D21 to D23: log 8, log 11. -/
def Obligations.DatagramIsWholeOrNothing : Prop :=
  ∀ (st : Store) (n : Fin 4), st.state n = .udpReady →
    ((st.net n).dgram = none → st.poll n = st) ∧
    ∀ d : Datagram, (st.net n).dgram = some d →
      (2047 - (st.rxRsr n).toNat < 8 + d.payload.length → st.poll n = st) ∧
      (8 + d.payload.length ≤ 2047 - (st.rxRsr n).toNat →
        (st.poll n).events = st.events ++ [.take n d.payload.length] ∧
        (st.poll n).rxRsr n = st.rxRsr n + BitVec.ofNat 16 (8 + d.payload.length) ∧
        (st.poll n).widx n = st.widx n + BitVec.ofNat 11 (8 + d.payload.length) ∧
        (st.poll n).ir n = st.ir n ||| 0x04 ∧
        (st.poll n).state n = .udpReady ∧ (st.poll n).resOut n = st.resOut n ∧
        (st.poll n).resAcc n = st.resAcc n ∧ st.OthersKept (st.poll n) n ∧
        (∀ i : Nat, i < 8 + d.payload.length →
          some ((st.poll n).rx n (BitVec.ofNat 11 ((st.widx n).toNat + i))) =
            (pseudoHeader d.ip d.port d.payload.length ++ d.payload)[i]?) ∧
        st.CellsKept (st.poll n) (fun a => a = bankAddr n 0x02 ∨ (bankAddr n 0x26 ≤ a ∧ a ≤ bankAddr n 0x27) ∨
          ∃ i : Nat, i < 8 + d.payload.length ∧ a = rxAddr n (BitVec.ofNat 11 ((st.widx n).toNat + i))))

/-- R288: `CLOSED` and `INIT` have no event. -/
def Obligations.ClosedAndInitHaveNoEvent : Prop :=
  ∀ (st : Store) (n : Fin 4), st.state n = .closed ∨ st.state n = .init → st.poll n = st

/-- R289, writes: the poll of socket `n` and a command to it leave every address of another socket, the common block
and the hidden state of the others as they are. -/
def Obligations.SocketsWriteOnlyTheirOwn : Prop :=
  ∀ (st : Store) (n m : Fin 4) (v : Byte), m ≠ n →
    (st.poll n).sock[m] = st.sock[m] ∧ (st.dispatch n v).sock[m] = st.sock[m] ∧
    st.CellsKept (st.poll n) (ownAddr n) ∧ st.CellsKept (st.dispatch n v) (ownAddr n)

/-- R289, reads: what the poll of socket `n` and a command to it leave in the socket depends on that socket, its own
NetEnv record and the wall clock alone: two chips that agree on these agree on the socket afterwards, whatever their
other cells and sockets hold and NetEnv answers the others. -/
def Obligations.SocketsReadOnlyTheirOwn : Prop :=
  ∀ (st su : Store) (n : Fin 4) (v : Byte), st.cfg = su.cfg → st.net n = su.net n →
    st.env.nowUnix = su.env.nowUnix → st.sock[n] = su.sock[n] →
    (∀ a : Nat, ownAddr n a → st.peek a = su.peek a) →
    (st.poll n).sock[n] = (su.poll n).sock[n] ∧ (st.dispatch n v).sock[n] = (su.dispatch n v).sock[n] ∧
    ∀ a : Nat, ownAddr n a →
      (st.poll n).peek a = (su.poll n).peek a ∧ (st.dispatch n v).peek a = (su.dispatch n v).peek a

/-- R338 (1): a delivery, of stream bytes or of a datagram, in the tick of a write that clears IR bit 2 sets the bit
again. Rests on the spec's own decisions D8, D35: log 8. -/
def Obligations.DeliveryAfterClearInOneTick : Prop :=
  ∀ (st : Store) (n : Fin 4) (v : Byte),
    (st.state n = .established ∧ (st.net n).peerClosed = false ∧ (st.net n).stream ≠ [] ∧
      (st.rxRsr n).toNat < 2047) ∨
      (st.state n = .udpReady ∧ ∃ d : Datagram, (st.net n).dgram = some d ∧
        8 + d.payload.length ≤ 2047 - (st.rxRsr n).toNat) →
    ((st.routerWrite (BitVec.ofNat 16 (bankAddr n 0x02)) v).endTick.ir n).getLsbD 2 = true

/-- R369: a burst that covers MR and CR stores MR first, so the OPEN in it sees the new MR. Rests on the spec's own
decisions D13, D16: log 8. -/
def Obligations.BurstStoresMrBeforeOpen : Prop :=
  ∀ (st : Store) (n : Fin 4), st.state n = .closed → (st.net n).createOk = true →
    regionBase st.cfg (bankBsb n) = some (BitVec.ofNat 16 (bankAddr n 0)) →
    ((st.regionWrites (bankBsb n) 0 0 [0x02, st.cfg.codeOpen]).state n = .udpReady ∧
      (st.regionWrites (bankBsb n) 0 0 [0x01, st.cfg.codeOpen]).state n = .init)

/-! ### Loopback responders -/

/-- R304, R305: what the source states of the address-assignment reply: 262 bytes, the reply opcode, transaction
identifier and hardware address echoed, leased and server address, the four options, and offer to a discover, else
acknowledge. Rests on the spec's own decisions D26, D27, the layout being general knowledge: log 8. -/
def Obligations.DhcpReplyLayout : Prop :=
  ∀ (c : Config) (req : List Byte),
    (dhcpReply c req).length = 262 ∧ (dhcpReply c req)[0]? = some 0x02 ∧
    (∀ i : Nat, i = 1 ∨ i = 2 ∨ (4 ≤ i ∧ i < 8) ∨ (28 ≤ i ∧ i < 44) → (dhcpReply c req)[i]? = some (reqByte req i)) ∧
    ((dhcpReply c req).drop 16).take 4 = ipBytes c.dhcpLease ∧
    ((dhcpReply c req).drop 20).take 4 = ipBytes c.dhcpServer ∧
    ((dhcpReply c req).drop 236).take 6 = [0x63, 0x82, 0x53, 0x63, 0x35, 0x01] ∧
    (dhcpReply c req)[242]? = some (if msgType req = some 1 then 2 else 5) ∧
    ((dhcpReply c req).drop 243).take 6 = [0x01, 0x04] ++ ipBytes c.dhcpMask ∧
    ((dhcpReply c req).drop 249).take 6 = [0x03, 0x04] ++ ipBytes c.dhcpRouter ∧
    ((dhcpReply c req).drop 255).take 6 = [0x36, 0x04] ++ ipBytes c.dhcpServerId ∧
    (dhcpReply c req)[261]? = some 0xFF ∧
    ∀ i : Nat, i = 3 ∨ (8 ≤ i ∧ i < 16) ∨ (24 ≤ i ∧ i < 28) ∨ (44 ≤ i ∧ i < 236) → (dhcpReply c req)[i]? = some 0x00

/-- R303: the message type is the first byte of the first option 53 with a value, behind any pads and other options;
an option 53 of length 0 is skipped. The end option gives none, and so does a truncated list: a request of at most 240
bytes, a list of pads, a tag with no length byte, an option 53 with no value byte, another option whose value is cut
short. Rests on the spec's own decision D27: log 8. -/
def Obligations.MessageTypeScan : Prop :=
  (∀ (hdr : List Byte) (pads : Nat) (l v : Byte) (rest : List Byte), hdr.length = 240 →
    (1 ≤ l.toNat → msgType (hdr ++ List.replicate pads 0 ++ 53 :: l :: v :: rest) = some v) ∧
    msgType (hdr ++ List.replicate pads 0 ++ 53 :: 0 :: rest) = msgType (hdr ++ rest) ∧
    msgType (hdr ++ List.replicate pads 0 ++ 255 :: rest) = none ∧
    msgType (hdr ++ List.replicate pads 0) = none ∧
    msgType (hdr ++ List.replicate pads 0 ++ [53, l]) = none ∧
    ∀ (t : Byte) (body : List Byte), t ≠ 0 →
      msgType (hdr ++ List.replicate pads 0 ++ [t]) = none ∧
      (t ≠ 53 → t ≠ 255 →
        (body.length = l.toNat →
          msgType (hdr ++ List.replicate pads 0 ++ t :: l :: (body ++ rest)) = msgType (hdr ++ rest)) ∧
        (body.length < l.toNat → msgType (hdr ++ List.replicate pads 0 ++ t :: l :: body) = none))) ∧
  ∀ req : List Byte, req.length ≤ 240 → msgType req = none

/-- R312, R313: the time-sync reply has the request's length and differs from it in bytes 40..47 alone, which hold the
seconds since 1900 modulo 2^32, big-endian, and a zero fraction. Rests on the spec's own decision D28: log 8. -/
def Obligations.NtpReplyLayout : Prop :=
  ∀ (req : List Byte) (now : Nat), req.length = 48 →
    (ntpReply req now).length = 48 ∧ (∀ i : Nat, i < 40 → (ntpReply req now)[i]? = req[i]?) ∧
    ∃ b0 b1 b2 b3 : Byte, (ntpReply req now).drop 40 = [b0, b1, b2, b3, 0, 0, 0, 0] ∧
      b0 ++ b1 ++ b2 ++ b3 = BitVec.ofNat 32 (now + 2208988800)

/-! ### Invariants -/

/-- R43, R41: the power-on state meets the invariant, for every choice of the parameters. Rests on the spec's own
decision D30: log 8; State.reset is Model A by the MODEL's choice: log 2. -/
def Obligations.InvAtReset : Prop :=
  (∀ c : Config, c.Wf → (State.resetWith c).Inv) ∧ State.reset.Inv

/-- R41 items 1, 2, 3, 5, 6, with the ranges of R26, R40, R177 and the canonical memory: every step keeps them, from
every state that has them. Rests on the spec's own decisions D2, D13, D16, D19 to D22 stand behind its clauses: log 8;
canonical memory is the MODEL's: log 15. -/
def Obligations.EveryStepKeepsInv : Prop :=
  ∀ s t : State, s.Inv → step s = .next t → t.Inv

/-- R41 item 4: a tick's polls and every router write but one to RX_RD of socket `n` keep `RX_RSR = (widx - RX_RD) mod
CAP`. Rests on the spec's own conflict C8 and decisions D20 to D22: log 8. -/
def Obligations.ReceivedSizeTracksTheRing : Prop :=
  ∀ (st : Store) (n : Fin 4), st.RsrTracks n →
    st.endTick.RsrTracks n ∧
    ∀ (a : Half) (v : Byte), a.toNat ≠ bankAddr n 0x28 → a.toNat ≠ bankAddr n 0x29 → (st.routerWrite a v).RsrTracks n

/-- R40: a socket's lifecycle moves only along these edges: a poll from `LISTEN` to `ESTABLISHED` and from
`ESTABLISHED` to `CLOSED`; a command from `CLOSED` to `INIT` or `UDP_READY`, from `INIT` to `LISTEN` or `ESTABLISHED`,
and to `CLOSED`. A write to any other cell moves none. Rests on the spec's own decisions D13, D42: log 8. -/
def Obligations.LifecycleTransitions : Prop :=
  ∀ (st : Store) (n : Fin 4),
    ((st.poll n).state n = st.state n ∨
      (st.state n = .listen ∧ (st.poll n).state n = .established) ∨
      (st.state n = .established ∧ (st.poll n).state n = .closed)) ∧
    (∀ v : Byte, (st.dispatch n v).state n = st.state n ∨
      (st.state n = .closed ∧ ((st.dispatch n v).state n = .init ∨ (st.dispatch n v).state n = .udpReady)) ∨
      (st.state n = .init ∧ ((st.dispatch n v).state n = .listen ∨ (st.dispatch n v).state n = .established)) ∨
      (st.state n ≠ .closed ∧ (st.dispatch n v).state n = .closed)) ∧
    ∀ (a : Half) (v : Byte), a.toNat ≠ bankAddr n 0x01 → (st.routerWrite a v).state n = st.state n

/-- R43: what every piece of state holds at power-on, for every choice of the parameters. The spec states the values
as its own decision (D30). Rests on the spec's own decision D30: log 8. -/
def Obligations.PowerOnValues : Prop :=
  ∀ c : Config, let s := State.resetWith c
    s.smp.bitcnt = 0 ∧ s.smp.shin = 0x00 ∧ s.smp.shout = 0x00 ∧ s.smp.prevClk = false ∧ s.smp.ready = false ∧
    s.smp.rxByte = 0x00 ∧ s.smp.dout = false ∧
    s.dec.st = (match c.model with | .a => DecSt.aWait | .b => DecSt.bWait) ∧ s.dec.addr = 0x0000 ∧
    s.dec.cmd = 0x00 ∧ s.dec.dir = .read ∧ s.dec.count = 0 ∧ (∀ i : Nat, s.dec.staged i = 0x00) ∧
    (∀ i : Byte, s.store.peek i.toNat = c.commonReset.getD i.toNat 0x00) ∧
    ∀ n : Fin 4, (∀ r : Byte, r ≠ 0x20 → r ≠ 0x21 → s.store.reg n r = 0x00) ∧ s.store.txFsr n = 0x0800 ∧
      (∀ i : BitVec 11, s.store.tx n i = 0x00 ∧ s.store.rx n i = 0x00) ∧
      s.store.widx n = 0 ∧ s.store.state n = .closed ∧ s.store.resOut n = false ∧ s.store.resAcc n = false
end

