-- ==== Sys2Proof/Laws/Memory.lean ====
section
/-! SUPPORT. The laws of the sparse memory: read after write, and the canonical form is kept. -/

namespace Sys2Proof.Machine

theorem Memory.read_erase (d : Nat → Byte) (m : Memory) (a b : Nat) :
    Memory.read d (Memory.erase m a) b = if b = a then d b else Memory.read d m b := by
  induction m with
  | nil => simp [Memory.erase, Memory.read]
  | cons c m ih =>
    obtain ⟨k, w⟩ := c
    by_cases hk : k = a
    · subst hk
      by_cases hb : b = k
      · simpa [Memory.erase, hb] using ih
      · have hkb : ¬ k = b := fun h => hb h.symm
        simpa [Memory.erase, Memory.read, hb, hkb] using ih
    · by_cases hb : k = b
      · have : ¬ b = a := fun h => hk (hb.trans h)
        simp [Memory.erase, Memory.read, hb, this]
      · simpa [Memory.erase, Memory.read, hk, hb] using ih

theorem Memory.read_insert (d : Nat → Byte) (m : Memory) (a : Nat) (v : Byte) (b : Nat) :
    Memory.read d (Memory.insert m a v) b = if b = a then v else Memory.read d m b := by
  induction m with
  | nil =>
    by_cases h : b = a
    · simp [Memory.insert, Memory.read, h]
    · have : ¬ a = b := fun e => h e.symm
      simp [Memory.insert, Memory.read, h, this]
  | cons c m ih =>
    obtain ⟨k, w⟩ := c
    simp only [Memory.insert]
    split
    · by_cases h : b = a
      · simp [Memory.read, h]
      · have : ¬ a = b := fun e => h e.symm
        simp [Memory.read, h, this]
    · split
      · rename_i h₁ h₂
        subst h₂
        by_cases h : b = k
        · simp [Memory.read, h]
        · have : ¬ k = b := fun e => h e.symm
          simp [Memory.read, h, this]
      · rename_i h₁ h₂
        by_cases h : k = b
        · have : ¬ b = a := fun e => h₂ (h.trans e)
          simp [Memory.read, h, this]
        · simp [Memory.read, h, ih]

/-- Read after write. -/
theorem Memory.read_write (d : Nat → Byte) (m : Memory) (a : Nat) (v : Byte) (b : Nat) :
    Memory.read d (Memory.write d m a v) b = if b = a then v else Memory.read d m b := by
  unfold Memory.write
  split
  · rename_i h
    rw [Memory.read_erase]
    split
    · rename_i hb
      rw [h, hb]
    · rfl
  · exact Memory.read_insert d m a v b

theorem Memory.rising_iff (m : Memory) : Memory.rising m = true ↔ m.Pairwise fun x y => x.1 < y.1 := by
  induction m with
  | nil => simp [Memory.rising]
  | cons c m ih =>
    cases m with
    | nil => simp [Memory.rising]
    | cons e m =>
      simp only [Memory.rising, Bool.and_eq_true, decide_eq_true_eq, ih, List.pairwise_cons, List.mem_cons,
        forall_eq_or_imp]
      constructor
      · rintro ⟨h, h₁, h₂⟩
        exact ⟨⟨h, fun x hx => h.trans (h₁ x hx)⟩, h₁, h₂⟩
      · rintro ⟨⟨h, _⟩, h₁, h₂⟩
        exact ⟨h, h₁, h₂⟩

theorem Memory.mem_insert (m : Memory) (a : Nat) (v : Byte) (c : Host.Cell) :
    c ∈ Memory.insert m a v → c = (a, v) ∨ c ∈ m := by
  induction m with
  | nil => simp [Memory.insert]
  | cons e m ih =>
    simp only [Memory.insert]
    split
    · simp
    · split
      · simp only [List.mem_cons]
        tauto
      · simp only [List.mem_cons]
        tauto

theorem Memory.rising_insert (m : Memory) (a : Nat) (v : Byte) (h : Memory.rising m = true) :
    Memory.rising (Memory.insert m a v) = true := by
  rw [Memory.rising_iff] at h ⊢
  induction m with
  | nil => simp [Memory.insert]
  | cons e m ih =>
    rw [List.pairwise_cons] at h
    simp only [Memory.insert]
    split
    · rename_i hlt
      refine List.pairwise_cons.2 ⟨?_, List.pairwise_cons.2 h⟩
      intro x hx
      rcases List.mem_cons.1 hx with rfl | hx
      · exact hlt
      · exact hlt.trans (h.1 x hx)
    · split
      · rename_i heq
        exact List.pairwise_cons.2 ⟨fun x hx => heq ▸ h.1 x hx, h.2⟩
      · rename_i h₁ h₂
        refine List.pairwise_cons.2 ⟨?_, ih h.2⟩
        intro x hx
        rcases Memory.mem_insert m a v x hx with rfl | hx
        · show e.1 < a
          omega
        · exact h.1 x hx

theorem Memory.wf_iff (d : Nat → Byte) (m : Memory) :
    Memory.wf d m = true ↔ Memory.rising m = true ∧ ∀ c ∈ m, c.2 ≠ d c.1 := by
  simp [Memory.wf]

/-- Every write keeps the canonical form. -/
theorem Memory.wf_write (d : Nat → Byte) (m : Memory) (a : Nat) (v : Byte) (h : Memory.wf d m = true) :
    Memory.wf d (Memory.write d m a v) = true := by
  rw [Memory.wf_iff] at h ⊢
  unfold Memory.write
  split
  · refine ⟨?_, fun c hc => h.2 c (List.mem_of_mem_filter hc)⟩
    have := (Memory.rising_iff m).1 h.1
    exact (Memory.rising_iff _).2 (this.filter _)
  · rename_i hv
    refine ⟨Memory.rising_insert m a v h.1, fun c hc => ?_⟩
    rcases Memory.mem_insert m a v c hc with rfl | hc
    · exact hv
    · exact h.2 c hc

/-- A write lists no address but its own. -/
theorem Memory.all_write (p : Nat → Bool) (d : Nat → Byte) (m : Memory) (a : Nat) (v : Byte)
    (h : m.all (fun c => p c.1) = true) (ha : p a = true) :
    (Memory.write d m a v).all (fun c => p c.1) = true := by
  rw [List.all_eq_true] at h ⊢
  unfold Memory.write
  split
  · exact fun c hc => h c (List.mem_of_mem_filter hc)
  · intro c hc
    rcases Memory.mem_insert m a v c hc with rfl | hc
    · exact ha
    · exact h c hc

end Sys2Proof.Machine
end

