-- ==== Sys2Proof/Laws/State.lean ====
section
/-! SUPPORT. The small lemmas of the state: one per field per update, and read after write for cells, registers and
16-bit fields. -/

namespace Sys2Proof.Machine

/-! ### Fields the cell updates leave alone -/

section
variable (st : Store) (a : Nat) (n m : Fin 4) (c : Byte) (v : Byte) (w : Half)

@[simp] theorem Store.poke_cfg : (st.poke a v).cfg = st.cfg := rfl
@[simp] theorem Store.poke_sock : (st.poke a v).sock = st.sock := rfl
@[simp] theorem Store.poke_envq : (st.poke a v).envq = st.envq := rfl
@[simp] theorem Store.poke_ticks : (st.poke a v).ticks = st.ticks := rfl
@[simp] theorem Store.poke_events : (st.poke a v).events = st.events := rfl
@[simp] theorem Store.poke_env : (st.poke a v).env = st.env := rfl
@[simp] theorem Store.poke_net : (st.poke a v).net m = st.net m := rfl
@[simp] theorem Store.poke_state : (st.poke a v).state m = st.state m := rfl
@[simp] theorem Store.poke_widx : (st.poke a v).widx m = st.widx m := rfl
@[simp] theorem Store.poke_resOut : (st.poke a v).resOut m = st.resOut m := rfl
@[simp] theorem Store.poke_resAcc : (st.poke a v).resAcc m = st.resAcc m := rfl

@[simp] theorem Store.setReg_cfg : (st.setReg n c v).cfg = st.cfg := rfl
@[simp] theorem Store.setReg_sock : (st.setReg n c v).sock = st.sock := rfl
@[simp] theorem Store.setReg_envq : (st.setReg n c v).envq = st.envq := rfl
@[simp] theorem Store.setReg_ticks : (st.setReg n c v).ticks = st.ticks := rfl
@[simp] theorem Store.setReg_events : (st.setReg n c v).events = st.events := rfl
@[simp] theorem Store.setReg_env : (st.setReg n c v).env = st.env := rfl
@[simp] theorem Store.setReg_net : (st.setReg n c v).net m = st.net m := rfl
@[simp] theorem Store.setReg_state : (st.setReg n c v).state m = st.state m := rfl
@[simp] theorem Store.setReg_widx : (st.setReg n c v).widx m = st.widx m := rfl
@[simp] theorem Store.setReg_resOut : (st.setReg n c v).resOut m = st.resOut m := rfl
@[simp] theorem Store.setReg_resAcc : (st.setReg n c v).resAcc m = st.resAcc m := rfl

@[simp] theorem Store.set16_cfg : (st.set16 n c w).cfg = st.cfg := by
  unfold Store.set16; split <;> rfl
@[simp] theorem Store.set16_sock : (st.set16 n c w).sock = st.sock := by
  unfold Store.set16; split <;> rfl
@[simp] theorem Store.set16_envq : (st.set16 n c w).envq = st.envq := by
  unfold Store.set16; split <;> rfl
@[simp] theorem Store.set16_ticks : (st.set16 n c w).ticks = st.ticks := by
  unfold Store.set16; split <;> rfl
@[simp] theorem Store.set16_events : (st.set16 n c w).events = st.events := by
  unfold Store.set16; split <;> rfl
@[simp] theorem Store.set16_env : (st.set16 n c w).env = st.env := by
  unfold Store.set16; split <;> rfl
@[simp] theorem Store.set16_net : (st.set16 n c w).net m = st.net m := by
  unfold Store.set16; split <;> rfl
@[simp] theorem Store.set16_state : (st.set16 n c w).state m = st.state m := by
  unfold Store.set16; split <;> rfl
@[simp] theorem Store.set16_widx : (st.set16 n c w).widx m = st.widx m := by
  unfold Store.set16; split <;> rfl
@[simp] theorem Store.set16_resOut : (st.set16 n c w).resOut m = st.resOut m := by
  unfold Store.set16; split <;> rfl
@[simp] theorem Store.set16_resAcc : (st.set16 n c w).resAcc m = st.resAcc m := by
  unfold Store.set16; split <;> rfl

end

/-! ### The hidden socket state -/

section
variable (st : Store) (n m : Fin 4) (k : Socket) (c : Byte) (a : Nat) (x : SockState) (i : BitVec 11) (b : Bool)
  (e : NetEvent)

@[simp] theorem Store.setSock_cfg : (st.setSock n k).cfg = st.cfg := rfl
@[simp] theorem Store.setSock_mem : (st.setSock n k).mem = st.mem := rfl
@[simp] theorem Store.setSock_envq : (st.setSock n k).envq = st.envq := rfl
@[simp] theorem Store.setSock_ticks : (st.setSock n k).ticks = st.ticks := rfl
@[simp] theorem Store.setSock_events : (st.setSock n k).events = st.events := rfl

@[simp] theorem Store.setState_cfg : (st.setState n x).cfg = st.cfg := rfl
@[simp] theorem Store.setState_mem : (st.setState n x).mem = st.mem := rfl
@[simp] theorem Store.setState_envq : (st.setState n x).envq = st.envq := rfl
@[simp] theorem Store.setState_ticks : (st.setState n x).ticks = st.ticks := rfl
@[simp] theorem Store.setState_events : (st.setState n x).events = st.events := rfl
@[simp] theorem Store.setState_peek : (st.setState n x).peek a = st.peek a := rfl
@[simp] theorem Store.setState_reg : (st.setState n x).reg m c = st.reg m c := rfl
@[simp] theorem Store.setState_get16 : (st.setState n x).get16 m c = st.get16 m c := rfl
@[simp] theorem Store.setState_net : (st.setState n x).net m = st.net m := rfl

@[simp] theorem Store.setWidx_cfg : (st.setWidx n i).cfg = st.cfg := rfl
@[simp] theorem Store.setWidx_mem : (st.setWidx n i).mem = st.mem := rfl
@[simp] theorem Store.setWidx_envq : (st.setWidx n i).envq = st.envq := rfl
@[simp] theorem Store.setWidx_ticks : (st.setWidx n i).ticks = st.ticks := rfl
@[simp] theorem Store.setWidx_events : (st.setWidx n i).events = st.events := rfl
@[simp] theorem Store.setWidx_peek : (st.setWidx n i).peek a = st.peek a := rfl
@[simp] theorem Store.setWidx_reg : (st.setWidx n i).reg m c = st.reg m c := rfl
@[simp] theorem Store.setWidx_get16 : (st.setWidx n i).get16 m c = st.get16 m c := rfl
@[simp] theorem Store.setWidx_net : (st.setWidx n i).net m = st.net m := rfl

@[simp] theorem Store.setResOut_cfg : (st.setResOut n b).cfg = st.cfg := rfl
@[simp] theorem Store.setResOut_mem : (st.setResOut n b).mem = st.mem := rfl
@[simp] theorem Store.setResOut_envq : (st.setResOut n b).envq = st.envq := rfl
@[simp] theorem Store.setResOut_ticks : (st.setResOut n b).ticks = st.ticks := rfl
@[simp] theorem Store.setResOut_events : (st.setResOut n b).events = st.events := rfl
@[simp] theorem Store.setResOut_peek : (st.setResOut n b).peek a = st.peek a := rfl
@[simp] theorem Store.setResOut_reg : (st.setResOut n b).reg m c = st.reg m c := rfl
@[simp] theorem Store.setResOut_get16 : (st.setResOut n b).get16 m c = st.get16 m c := rfl
@[simp] theorem Store.setResOut_net : (st.setResOut n b).net m = st.net m := rfl

@[simp] theorem Store.setResAcc_cfg : (st.setResAcc n b).cfg = st.cfg := rfl
@[simp] theorem Store.setResAcc_mem : (st.setResAcc n b).mem = st.mem := rfl
@[simp] theorem Store.setResAcc_envq : (st.setResAcc n b).envq = st.envq := rfl
@[simp] theorem Store.setResAcc_ticks : (st.setResAcc n b).ticks = st.ticks := rfl
@[simp] theorem Store.setResAcc_events : (st.setResAcc n b).events = st.events := rfl
@[simp] theorem Store.setResAcc_peek : (st.setResAcc n b).peek a = st.peek a := rfl
@[simp] theorem Store.setResAcc_reg : (st.setResAcc n b).reg m c = st.reg m c := rfl
@[simp] theorem Store.setResAcc_get16 : (st.setResAcc n b).get16 m c = st.get16 m c := rfl
@[simp] theorem Store.setResAcc_net : (st.setResAcc n b).net m = st.net m := rfl

/-- Replacing the hidden state of one socket leaves the others alone. -/
theorem Store.setSock_sock : (st.setSock n k).sock[m] = if m = n then k else st.sock[m] := by
  by_cases h : m = n
  · subst h; simp [Store.setSock]
  · have : ¬ n.val = m.val := fun e => h (Fin.ext e.symm)
    simp [Store.setSock, this, h]

@[simp] theorem Store.state_setState : (st.setState n x).state m = if m = n then x else st.state m := by
  unfold Store.state Store.setState; rw [Store.setSock_sock]; split <;> simp_all
@[simp] theorem Store.widx_setState : (st.setState n x).widx m = st.widx m := by
  unfold Store.widx Store.setState; rw [Store.setSock_sock]; split <;> simp_all
@[simp] theorem Store.resOut_setState : (st.setState n x).resOut m = st.resOut m := by
  unfold Store.resOut Store.setState; rw [Store.setSock_sock]; split <;> simp_all
@[simp] theorem Store.resAcc_setState : (st.setState n x).resAcc m = st.resAcc m := by
  unfold Store.resAcc Store.setState; rw [Store.setSock_sock]; split <;> simp_all

@[simp] theorem Store.state_setWidx : (st.setWidx n i).state m = st.state m := by
  unfold Store.state Store.setWidx; rw [Store.setSock_sock]; split <;> simp_all
@[simp] theorem Store.widx_setWidx : (st.setWidx n i).widx m = if m = n then i else st.widx m := by
  unfold Store.widx Store.setWidx; rw [Store.setSock_sock]; split <;> simp_all
@[simp] theorem Store.resOut_setWidx : (st.setWidx n i).resOut m = st.resOut m := by
  unfold Store.resOut Store.setWidx; rw [Store.setSock_sock]; split <;> simp_all
@[simp] theorem Store.resAcc_setWidx : (st.setWidx n i).resAcc m = st.resAcc m := by
  unfold Store.resAcc Store.setWidx; rw [Store.setSock_sock]; split <;> simp_all

@[simp] theorem Store.state_setResOut : (st.setResOut n b).state m = st.state m := by
  unfold Store.state Store.setResOut; rw [Store.setSock_sock]; split <;> simp_all
@[simp] theorem Store.widx_setResOut : (st.setResOut n b).widx m = st.widx m := by
  unfold Store.widx Store.setResOut; rw [Store.setSock_sock]; split <;> simp_all
@[simp] theorem Store.resOut_setResOut : (st.setResOut n b).resOut m = if m = n then b else st.resOut m := by
  unfold Store.resOut Store.setResOut; rw [Store.setSock_sock]; split <;> simp_all
@[simp] theorem Store.resAcc_setResOut : (st.setResOut n b).resAcc m = st.resAcc m := by
  unfold Store.resAcc Store.setResOut; rw [Store.setSock_sock]; split <;> simp_all

@[simp] theorem Store.state_setResAcc : (st.setResAcc n b).state m = st.state m := by
  unfold Store.state Store.setResAcc; rw [Store.setSock_sock]; split <;> simp_all
@[simp] theorem Store.widx_setResAcc : (st.setResAcc n b).widx m = st.widx m := by
  unfold Store.widx Store.setResAcc; rw [Store.setSock_sock]; split <;> simp_all
@[simp] theorem Store.resOut_setResAcc : (st.setResAcc n b).resOut m = st.resOut m := by
  unfold Store.resOut Store.setResAcc; rw [Store.setSock_sock]; split <;> simp_all
@[simp] theorem Store.resAcc_setResAcc : (st.setResAcc n b).resAcc m = if m = n then b else st.resAcc m := by
  unfold Store.resAcc Store.setResAcc; rw [Store.setSock_sock]; split <;> simp_all

/-! ### Events and the end of a tick -/

@[simp] theorem Store.emit_cfg : (st.emit e).cfg = st.cfg := rfl
@[simp] theorem Store.emit_mem : (st.emit e).mem = st.mem := rfl
@[simp] theorem Store.emit_sock : (st.emit e).sock = st.sock := rfl
@[simp] theorem Store.emit_envq : (st.emit e).envq = st.envq := rfl
@[simp] theorem Store.emit_ticks : (st.emit e).ticks = st.ticks := rfl
@[simp] theorem Store.emit_events : (st.emit e).events = st.events ++ [e] := rfl
@[simp] theorem Store.emit_peek : (st.emit e).peek a = st.peek a := rfl
@[simp] theorem Store.emit_reg : (st.emit e).reg m c = st.reg m c := rfl
@[simp] theorem Store.emit_get16 : (st.emit e).get16 m c = st.get16 m c := rfl
@[simp] theorem Store.emit_env : (st.emit e).env = st.env := rfl
@[simp] theorem Store.emit_net : (st.emit e).net m = st.net m := rfl
@[simp] theorem Store.emit_state : (st.emit e).state m = st.state m := rfl
@[simp] theorem Store.emit_widx : (st.emit e).widx m = st.widx m := rfl
@[simp] theorem Store.emit_resOut : (st.emit e).resOut m = st.resOut m := rfl
@[simp] theorem Store.emit_resAcc : (st.emit e).resAcc m = st.resAcc m := rfl

@[simp] theorem Store.advance_cfg : st.advance.cfg = st.cfg := rfl
@[simp] theorem Store.advance_mem : st.advance.mem = st.mem := rfl
@[simp] theorem Store.advance_sock : st.advance.sock = st.sock := rfl
@[simp] theorem Store.advance_envq : st.advance.envq = st.envq.tail := rfl
@[simp] theorem Store.advance_ticks : st.advance.ticks = st.ticks + 1 := rfl
@[simp] theorem Store.advance_events : st.advance.events = st.events := rfl
@[simp] theorem Store.advance_peek : st.advance.peek a = st.peek a := rfl
@[simp] theorem Store.advance_reg : st.advance.reg m c = st.reg m c := rfl
@[simp] theorem Store.advance_get16 : st.advance.get16 m c = st.get16 m c := rfl
@[simp] theorem Store.advance_state : st.advance.state m = st.state m := rfl
@[simp] theorem Store.advance_widx : st.advance.widx m = st.widx m := rfl
@[simp] theorem Store.advance_resOut : st.advance.resOut m = st.resOut m := rfl
@[simp] theorem Store.advance_resAcc : st.advance.resAcc m = st.resAcc m := rfl

end

/-! ### Addresses -/

theorem bankAddr_range (n : Fin 4) (c : Byte) : 0x400 ≤ bankAddr n c ∧ bankAddr n c < 0x800 := by
  unfold bankAddr; have := n.isLt; have := c.isLt; omega
theorem txAddr_range (n : Fin 4) (i : BitVec 11) : 0x4000 ≤ txAddr n i ∧ txAddr n i < 0x6000 := by
  unfold txAddr; have := n.isLt; have := i.isLt; omega
theorem rxAddr_range (n : Fin 4) (i : BitVec 11) : 0x6000 ≤ rxAddr n i ∧ rxAddr n i < 0x8000 := by
  unfold rxAddr; have := n.isLt; have := i.isLt; omega

theorem bankAddr_inj {n m : Fin 4} {c d : Byte} : bankAddr n c = bankAddr m d ↔ n = m ∧ c = d := by
  unfold bankAddr
  have := c.isLt; have := d.isLt
  constructor
  · intro h
    exact ⟨Fin.ext (by omega), BitVec.eq_of_toNat_eq (by omega)⟩
  · rintro ⟨rfl, rfl⟩; rfl
theorem txAddr_inj {n m : Fin 4} {i j : BitVec 11} : txAddr n i = txAddr m j ↔ n = m ∧ i = j := by
  unfold txAddr
  have := i.isLt; have := j.isLt
  constructor
  · intro h
    exact ⟨Fin.ext (by omega), BitVec.eq_of_toNat_eq (by omega)⟩
  · rintro ⟨rfl, rfl⟩; rfl
theorem rxAddr_inj {n m : Fin 4} {i j : BitVec 11} : rxAddr n i = rxAddr m j ↔ n = m ∧ i = j := by
  unfold rxAddr
  have := i.isLt; have := j.isLt
  constructor
  · intro h
    exact ⟨Fin.ext (by omega), BitVec.eq_of_toNat_eq (by omega)⟩
  · rintro ⟨rfl, rfl⟩; rfl

theorem isMapped_bankAddr (n : Fin 4) (c : Byte) : isMapped (bankAddr n c) = true := by
  have := bankAddr_range n c; simp [isMapped]; omega
theorem isMapped_txAddr (n : Fin 4) (i : BitVec 11) : isMapped (txAddr n i) = true := by
  have := txAddr_range n i; simp [isMapped]; omega
theorem isMapped_rxAddr (n : Fin 4) (i : BitVec 11) : isMapped (rxAddr n i) = true := by
  have := rxAddr_range n i; simp [isMapped]; omega

/-! ### Read after write -/

section
variable (st : Store) (n m : Fin 4) (a b : Nat) (c d : Byte) (v : Byte) (w : Half) (i : BitVec 11)

theorem Store.peek_poke : (st.poke a v).peek b = if b = a then v else st.peek b :=
  Memory.read_write (resetByte st.cfg) st.mem a v b

theorem Store.peek_setReg : (st.setReg n c v).peek b = if b = bankAddr n c then v else st.peek b :=
  st.peek_poke (bankAddr n c) b v

theorem Store.reg_setReg : (st.setReg n c v).reg m d = if m = n ∧ d = c then v else st.reg m d := by
  unfold Store.reg
  rw [Store.peek_setReg]
  simp only [bankAddr_inj]

@[simp] theorem Store.reg_setReg_same : (st.setReg n c v).reg n c = v := by simp [Store.reg_setReg]

theorem Store.reg_setReg_cell (h : d ≠ c) : (st.setReg n c v).reg m d = st.reg m d := by
  simp [Store.reg_setReg, h]

theorem Store.reg_setReg_bank (h : m ≠ n) : (st.setReg n c v).reg m d = st.reg m d := by
  simp [Store.reg_setReg, h]

@[simp] theorem Store.tx_setReg : (st.setReg n c v).tx m i = st.tx m i := by
  unfold Store.tx
  rw [Store.peek_setReg, if_neg]
  have := bankAddr_range n c; have := txAddr_range m i; omega

@[simp] theorem Store.rx_setReg : (st.setReg n c v).rx m i = st.rx m i := by
  unfold Store.rx
  rw [Store.peek_setReg, if_neg]
  have := bankAddr_range n c; have := rxAddr_range m i; omega

theorem Store.reg_poke_of_ge (h : 0x800 ≤ a) : (st.poke a v).reg m d = st.reg m d := by
  unfold Store.reg
  rw [Store.peek_poke, if_neg]
  have := bankAddr_range m d; omega

theorem Store.reg_poke_of_lt (h : a < 0x400) : (st.poke a v).reg m d = st.reg m d := by
  unfold Store.reg
  rw [Store.peek_poke, if_neg]
  have := bankAddr_range m d; omega

theorem Store.get16_poke_of_ge (h : 0x800 ≤ a) : (st.poke a v).get16 m d = st.get16 m d := by
  simp only [Store.get16, Store.poke_cfg, Store.reg_poke_of_ge st m a _ v h]

theorem Store.get16_poke_of_lt (h : a < 0x400) : (st.poke a v).get16 m d = st.get16 m d := by
  simp only [Store.get16, Store.poke_cfg, Store.reg_poke_of_lt st m a _ v h]

/-! ### 16-bit fields -/

theorem byte_ne_succ : c ≠ c + 1 := by
  intro h
  have := congrArg BitVec.toNat h
  have hc := c.isLt
  simp only [BitVec.toNat_add] at this
  simp only [show (1 : Byte).toNat = 1 from rfl] at this
  omega

theorem half_split : w.extractLsb' 8 8 ++ w.extractLsb' 0 8 = w := by
  apply BitVec.eq_of_getLsbD_eq
  intro i hi
  simp only [BitVec.getLsbD_append, BitVec.getLsbD_extractLsb']
  by_cases h : i < 8
  · simp [h]
  · have : i - 8 < 8 := by omega
    simp [h, this, show 8 + (i - 8) = i by omega]

theorem Store.peek_set16 (h₁ : b ≠ bankAddr n c) (h₂ : b ≠ bankAddr n (c + 1)) :
    (st.set16 n c w).peek b = st.peek b := by
  unfold Store.set16
  split <;> rw [Store.peek_setReg, if_neg h₂, Store.peek_setReg, if_neg h₁]

theorem Store.reg_set16_cell (h₁ : d ≠ c) (h₂ : d ≠ c + 1) : (st.set16 n c w).reg m d = st.reg m d := by
  unfold Store.reg
  exact st.peek_set16 n _ c w (fun e => h₁ (bankAddr_inj.1 e).2) (fun e => h₂ (bankAddr_inj.1 e).2)

theorem Store.reg_set16_bank (h : m ≠ n) : (st.set16 n c w).reg m d = st.reg m d := by
  unfold Store.reg
  exact st.peek_set16 n _ c w (fun e => h (bankAddr_inj.1 e).1) (fun e => h (bankAddr_inj.1 e).1)

@[simp] theorem Store.tx_set16 : (st.set16 n c w).tx m i = st.tx m i := by
  unfold Store.set16; split <;> simp

@[simp] theorem Store.rx_set16 : (st.set16 n c w).rx m i = st.rx m i := by
  unfold Store.set16; split <;> simp

/-- A 16-bit field reads back what was written. -/
@[simp] theorem Store.get16_set16_same : (st.set16 n c w).get16 n c = w := by
  have h := byte_ne_succ c
  have h' : c + 1 ≠ c := fun e => h e.symm
  cases ho : st.cfg.order with
  | le =>
    simp only [Store.get16, Store.set16, Store.setReg_cfg, ho]
    rw [Store.reg_setReg_same, Store.reg_setReg_cell _ _ _ _ _ _ h, Store.reg_setReg_same]
    exact half_split w
  | be =>
    simp only [Store.get16, Store.set16, Store.setReg_cfg, ho]
    rw [Store.reg_setReg_same, Store.reg_setReg_cell _ _ _ _ _ _ h, Store.reg_setReg_same]
    exact half_split w

theorem Store.get16_set16_cell (h₁ : d ≠ c) (h₂ : d ≠ c + 1) (h₃ : d + 1 ≠ c) :
    (st.set16 n c w).get16 m d = st.get16 m d := by
  have h₄ : d + 1 ≠ c + 1 := fun e => h₁ (add_right_cancel e)
  simp only [Store.get16, Store.set16_cfg, Store.reg_set16_cell st n m c _ w h₁ h₂,
    Store.reg_set16_cell st n m c _ w h₃ h₄]

theorem Store.get16_set16_bank (h : m ≠ n) : (st.set16 n c w).get16 m d = st.get16 m d := by
  simp only [Store.get16, Store.set16_cfg, Store.reg_set16_bank st n m c _ w h]

theorem Store.get16_setReg_cell (h₁ : d ≠ c) (h₂ : d + 1 ≠ c) :
    (st.setReg n c v).get16 m d = st.get16 m d := by
  simp only [Store.get16, Store.setReg_cfg, Store.reg_setReg_cell st n m c _ v h₁,
    Store.reg_setReg_cell st n m c _ v h₂]

theorem Store.get16_setReg_bank (h : m ≠ n) : (st.setReg n c v).get16 m d = st.get16 m d := by
  simp only [Store.get16, Store.setReg_cfg, Store.reg_setReg_bank st n m c _ v h]

end

/-! ### Canonical form and mapped addresses -/

/-- Every store to a mapped cell keeps the canonical form (and lists mapped addresses only). -/
theorem Store.poke_memOk (st : Store) (a : Nat) (v : Byte) (ha : isMapped a = true)
    (h : Memory.wf (resetByte st.cfg) st.mem = true ∧ st.mem.all (fun c => isMapped c.1) = true) :
    Memory.wf (resetByte (st.poke a v).cfg) (st.poke a v).mem = true ∧
      (st.poke a v).mem.all (fun c => isMapped c.1) = true :=
  ⟨Memory.wf_write _ _ _ _ h.1, Memory.all_write _ _ _ _ _ h.2 ha⟩

/-- The memory of the machine after reset is canonical. -/
theorem State.reset_mem_wf : Memory.wf (resetByte State.reset.store.cfg) State.reset.store.mem = true := rfl

end Sys2Proof.Machine
end

