-- ==== Sys2Proof/Laws/Frame.lean ====
section
/-! SUPPORT. What each shared operation can do, said once: `Local n P st t` says that going from `st` to `t` changed no
cell outside `P`, no hidden state but socket `n`'s, no parameter and nothing of the environment's side, only appended
events, and kept the memory canonical. One lemma per operation gives its `P`. -/

namespace Sys2Proof.Machine

/-- The effect of an operation of socket `n` that stores to cells in `P` only. -/
structure Store.Local (n : Fin 4) (P : Nat → Prop) (st t : Store) : Prop where
  cfg : t.cfg = st.cfg
  envq : t.envq = st.envq
  ticks : t.ticks = st.ticks
  events : st.events <+: t.events
  others : ∀ m : Fin 4, m ≠ n → t.sock[m] = st.sock[m]
  cells : st.CellsKept t P
  memOk : st.MemOk → t.MemOk

namespace Store.Local

variable {n : Fin 4} {P Q : Nat → Prop} {st t u : Store}

theorem refl : Store.Local n P st st :=
  ⟨rfl, rfl, rfl, List.prefix_refl _, fun _ _ => rfl, fun _ _ => rfl, id⟩

theorem trans (h₁ : Store.Local n P st t) (h₂ : Store.Local n P t u) : Store.Local n P st u :=
  ⟨h₂.cfg.trans h₁.cfg, h₂.envq.trans h₁.envq, h₂.ticks.trans h₁.ticks, h₁.events.trans h₂.events,
    fun m hm => (h₂.others m hm).trans (h₁.others m hm), fun a ha => (h₂.cells a ha).trans (h₁.cells a ha),
    fun h => h₂.memOk (h₁.memOk h)⟩

theorem mono (h : Store.Local n P st t) (hPQ : ∀ a, P a → Q a) : Store.Local n Q st t :=
  ⟨h.cfg, h.envq, h.ticks, h.events, h.others, fun a ha => h.cells a fun hp => ha (hPQ a hp), h.memOk⟩

theorem env (h : Store.Local n P st t) : t.env = st.env := by
  unfold Store.env; rw [h.envq, h.ticks]

theorem net (h : Store.Local n P st t) (m : Fin 4) : t.net m = st.net m := by
  unfold Store.net; rw [h.env]

theorem othersKept (h : Store.Local n P st t) : st.OthersKept t n := ⟨h.others, h.cfg, h.envq, h.ticks⟩

theorem state_other (h : Store.Local n P st t) {m : Fin 4} (hm : m ≠ n) : t.state m = st.state m := by
  unfold Store.state; rw [h.others m hm]

theorem widx_other (h : Store.Local n P st t) {m : Fin 4} (hm : m ≠ n) : t.widx m = st.widx m := by
  unfold Store.widx; rw [h.others m hm]

theorem resOut_other (h : Store.Local n P st t) {m : Fin 4} (hm : m ≠ n) : t.resOut m = st.resOut m := by
  unfold Store.resOut; rw [h.others m hm]

theorem resAcc_other (h : Store.Local n P st t) {m : Fin 4} (hm : m ≠ n) : t.resAcc m = st.resAcc m := by
  unfold Store.resAcc; rw [h.others m hm]

theorem reg (h : Store.Local n P st t) {m : Fin 4} {c : Byte} (hc : ¬ P (bankAddr m c)) : t.reg m c = st.reg m c :=
  h.cells _ hc

theorem get16 (h : Store.Local n P st t) {m : Fin 4} {c : Byte} (h₁ : ¬ P (bankAddr m c))
    (h₂ : ¬ P (bankAddr m (c + 1))) : t.get16 m c = st.get16 m c := by
  simp only [Store.get16, h.cfg, h.reg h₁, h.reg h₂]

end Store.Local

/-! ### The elementary updates -/

section
variable (st : Store) (n : Fin 4) {P : Nat → Prop}

theorem Store.local_poke {a : Nat} (v : Byte) (ha : P a) (hm : isMapped a = true) :
    Store.Local n P st (st.poke a v) :=
  ⟨rfl, rfl, rfl, List.prefix_refl _, fun _ _ => rfl,
    fun b hb => by rw [Store.peek_poke, if_neg]; rintro rfl; exact hb ha, fun h => st.poke_memOk a v hm h⟩

theorem Store.local_setReg {c : Byte} (v : Byte) (hc : P (bankAddr n c)) : Store.Local n P st (st.setReg n c v) :=
  st.local_poke n v hc (isMapped_bankAddr n c)

theorem Store.local_set16 {c : Byte} (w : Half) (h₁ : P (bankAddr n c)) (h₂ : P (bankAddr n (c + 1))) :
    Store.Local n P st (st.set16 n c w) := by
  unfold Store.set16
  split <;> exact (st.local_setReg n _ h₁).trans (Store.local_setReg _ n _ h₂)

theorem Store.local_setSock (k : Socket) : Store.Local n P st (st.setSock n k) :=
  ⟨rfl, rfl, rfl, List.prefix_refl _, fun m hm => by rw [Store.setSock_sock, if_neg hm], fun _ _ => rfl, id⟩

theorem Store.local_setState (x : SockState) : Store.Local n P st (st.setState n x) := st.local_setSock n _
theorem Store.local_setWidx (x : BitVec 11) : Store.Local n P st (st.setWidx n x) := st.local_setSock n _
theorem Store.local_setResOut (x : Bool) : Store.Local n P st (st.setResOut n x) := st.local_setSock n _
theorem Store.local_setResAcc (x : Bool) : Store.Local n P st (st.setResAcc n x) := st.local_setSock n _

theorem Store.local_emit (e : NetEvent) : Store.Local n P st (st.emit e) :=
  ⟨rfl, rfl, rfl, List.prefix_append _ _, fun _ _ => rfl, fun _ _ => rfl, id⟩

theorem Store.local_ite {c : Prop} [Decidable c] {t u : Store} (h₁ : c → Store.Local n P st t)
    (h₂ : ¬ c → Store.Local n P st u) : Store.Local n P st (if c then t else u) := by
  split
  · exact h₁ ‹_›
  · exact h₂ ‹_›

end

/-! ### The cells each shared operation stores to -/

/-- The cells `lo` to `hi` of bank `n`. -/
abbrev bankCells (n : Fin 4) (lo hi : Byte) (a : Nat) : Prop := bankAddr n lo ≤ a ∧ a ≤ bankAddr n hi

/-- The `len` receive ring cells of socket `n` from offset `off` on. -/
abbrev rxCells (n : Fin 4) (off len : Nat) (a : Nat) : Prop :=
  ∃ i : Nat, i < len ∧ a = rxAddr n (BitVec.ofNat 11 (off + i))

/-- What a delivery stores to (R287): IR, RX_RSR and the ring cells it fills. -/
abbrev deliveryCells (n : Fin 4) (off len : Nat) (a : Nat) : Prop :=
  a = bankAddr n 0x02 ∨ bankCells n 0x26 0x27 a ∨ rxCells n off len a

/-- What a drain stores to (R249): TX_FSR and TX_RD. -/
abbrev drainCells (n : Fin 4) (a : Nat) : Prop := bankCells n 0x20 0x23 a

theorem bankCells_of {n : Fin 4} {lo hi c : Byte} (h₁ : lo.toNat ≤ c.toNat) (h₂ : c.toNat ≤ hi.toNat) :
    bankCells n lo hi (bankAddr n c) := by
  unfold bankCells bankAddr; omega

theorem bankCells_iff {n m : Fin 4} {lo hi c : Byte} :
    bankCells n lo hi (bankAddr m c) ↔ m = n ∧ lo.toNat ≤ c.toNat ∧ c.toNat ≤ hi.toNat := by
  have := lo.isLt; have := hi.isLt; have := c.isLt
  unfold bankCells bankAddr
  constructor
  · intro h
    refine ⟨Fin.ext (by omega), ?_⟩
    omega
  · rintro ⟨rfl, h⟩; omega

theorem not_bankCells_tx {n m : Fin 4} {lo hi : Byte} {i : BitVec 11} : ¬ bankCells n lo hi (txAddr m i) := by
  have := bankAddr_range n hi; have := txAddr_range m i
  unfold bankCells; omega

theorem not_bankCells_rx {n m : Fin 4} {lo hi : Byte} {i : BitVec 11} : ¬ bankCells n lo hi (rxAddr m i) := by
  have := bankAddr_range n hi; have := rxAddr_range m i
  unfold bankCells; omega

theorem not_rxCells_bank {n m : Fin 4} {off len : Nat} {c : Byte} : ¬ rxCells n off len (bankAddr m c) := by
  rintro ⟨i, _, h⟩
  have := bankAddr_range m c; have := rxAddr_range n (BitVec.ofNat 11 (off + i)); omega

theorem not_rxCells_tx {n m : Fin 4} {off len : Nat} {i : BitVec 11} : ¬ rxCells n off len (txAddr m i) := by
  rintro ⟨j, _, h⟩
  have := txAddr_range m i; have := rxAddr_range n (BitVec.ofNat 11 (off + j)); omega

theorem ownAddr_bankCells {n : Fin 4} {lo hi : Byte} {a : Nat} (h : bankCells n lo hi a) : ownAddr n a := by
  refine Or.inl ⟨BitVec.ofNat 8 (a - (0x400 + 0x100 * n.val)), ?_⟩
  have h₁ := lo.isLt
  have h₂ := hi.isLt
  unfold bankCells bankAddr at h
  unfold bankAddr
  simp only [BitVec.toNat_ofNat]
  rw [Nat.mod_eq_of_lt (by omega)]
  omega

theorem ownAddr_deliveryCells {n : Fin 4} {off len : Nat} {a : Nat} (h : deliveryCells n off len a) : ownAddr n a := by
  rcases h with h | h | ⟨i, _, h⟩
  · exact Or.inl ⟨_, h⟩
  · exact ownAddr_bankCells h
  · exact Or.inr (Or.inr ⟨_, h⟩)

/-- Addresses of different sockets differ. -/
theorem ownAddr_inj {n m : Fin 4} {a : Nat} (h₁ : ownAddr n a) (h₂ : ownAddr m a) : n = m := by
  rcases h₁ with ⟨c, h₁⟩ | ⟨c, h₁⟩ | ⟨c, h₁⟩ <;> rcases h₂ with ⟨d, h₂⟩ | ⟨d, h₂⟩ | ⟨d, h₂⟩ <;>
    subst h₁
  · exact (bankAddr_inj.1 h₂).1
  · have := bankAddr_range n c; have := txAddr_range m d; omega
  · have := bankAddr_range n c; have := rxAddr_range m d; omega
  · have := bankAddr_range m d; have := txAddr_range n c; omega
  · exact (txAddr_inj.1 h₂).1
  · have := txAddr_range n c; have := rxAddr_range m d; omega
  · have := bankAddr_range m d; have := rxAddr_range n c; omega
  · have := txAddr_range m d; have := rxAddr_range n c; omega
  · exact (rxAddr_inj.1 h₂).1

section
variable (st : Store) (n : Fin 4) {P : Nat → Prop}

theorem Store.local_updateFsr : Store.Local n (bankCells n 0x20 0x21) st (st.updateFsr n) :=
  st.local_set16 n _ (bankCells_of (by decide) (by decide)) (bankCells_of (by decide) (by decide))

theorem Store.local_flagRecv : Store.Local n (fun a => a = bankAddr n 0x02) st (st.flagRecv n) :=
  st.local_setReg n _ rfl

theorem Store.local_flagSendOk : Store.Local n (fun a => a = bankAddr n 0x02) st (st.flagSendOk n) :=
  st.local_setReg n _ rfl

theorem Store.local_clearIr (v : Byte) : Store.Local n (fun a => a = bankAddr n 0x02) st (st.clearIr n v) :=
  st.local_setReg n _ rfl

theorem Store.local_setDipr (ip : Ip) : Store.Local n (bankCells n 0x0C 0x0F) st (st.setDipr n ip) := by
  unfold Store.setDipr
  refine Store.Local.trans (Store.Local.trans (Store.Local.trans (st.local_setReg n _ ?_)
    (Store.local_setReg _ n _ ?_)) (Store.local_setReg _ n _ ?_)) (Store.local_setReg _ n _ ?_) <;>
    exact bankCells_of (by decide) (by decide)

theorem Store.local_storeRx (off : Nat) (bytes : List Byte) :
    Store.Local n (rxCells n off bytes.length) st (st.storeRx n off bytes) := by
  induction bytes generalizing st off with
  | nil => exact .refl
  | cons b bs ih =>
    unfold Store.storeRx
    refine (st.local_poke n b ⟨0, by simp, by simp⟩ (isMapped_rxAddr n _)).trans ((ih _ (off + 1)).mono ?_)
    rintro a ⟨i, hi, rfl⟩
    exact ⟨i + 1, by simpa using hi, by rw [show off + 1 + i = off + (i + 1) by omega]⟩

/-- Everything a delivery can touch (R287). -/
theorem Store.local_rxDeliver (bytes : List Byte) :
    Store.Local n (deliveryCells n (st.widx n).toNat bytes.length) st (st.rxDeliver n bytes) := by
  unfold Store.rxDeliver
  refine (((st.local_storeRx n _ bytes).mono fun a h => Or.inr (Or.inr h)).trans
    (Store.local_setWidx _ n _)).trans ((Store.local_set16 _ n _ ?_ ?_).trans
    ((Store.local_flagRecv _ n).mono fun a h => Or.inl h))
  · exact Or.inr (Or.inl (bankCells_of (by decide) (by decide)))
  · exact Or.inr (Or.inl (bankCells_of (by decide) (by decide)))

theorem Store.local_release : Store.Local n (fun _ => False) st (st.release n) := by
  unfold Store.release
  exact ((st.local_ite n (fun _ => st.local_emit n _) fun _ => .refl).trans (Store.local_setResAcc _ n _)).trans
    (Store.local_setResOut _ n _)

theorem Store.local_closed : Store.Local n (fun _ => False) st ((st.release n).setState n .closed) :=
  (st.local_release n).trans (Store.local_setState _ n _)

theorem Store.local_pollAccept : Store.Local n (bankCells n 0x0C 0x11) st (st.pollAccept n) := by
  unfold Store.pollAccept
  split
  · exact .refl
  · refine (((st.local_emit n _).trans (Store.local_setResAcc _ n _)).trans
      (((Store.local_setDipr _ n _).mono fun a h => ?_).trans (Store.local_set16 _ n _ ?_ ?_))).trans
      (Store.local_setState _ n _)
    · unfold bankCells bankAddr at h ⊢
      exact ⟨h.1, h.2.trans (by simp)⟩
    · exact bankCells_of (by decide) (by decide)
    · exact bankCells_of (by decide) (by decide)

/-- Everything a poll can touch (R282, R289). -/
theorem Store.local_poll : Store.Local n (ownAddr n) st (st.poll n) := by
  unfold Store.poll
  split
  · exact (st.local_pollAccept n).mono fun a h => ownAddr_bankCells h
  · refine st.local_ite n (fun _ => (st.local_closed n).mono fun _ h => h.elim) fun _ => ?_
    unfold Store.pollStream
    exact st.local_ite n (fun _ => (st.local_emit n _).trans
      ((Store.local_rxDeliver _ n _).mono fun a h => ownAddr_deliveryCells h)) fun _ => .refl
  · unfold Store.pollDatagram
    split
    · exact .refl
    · exact st.local_ite n (fun _ => (st.local_emit n _).trans
        ((Store.local_rxDeliver _ n _).mono fun a h => ownAddr_deliveryCells h)) fun _ => .refl
  · exact .refl
  · exact .refl

theorem Store.local_drainTx : Store.Local n (drainCells n) st (st.drainTx n) := by
  unfold Store.drainTx
  refine (st.local_set16 n _ ?_ ?_).trans ((Store.local_updateFsr _ n).mono fun a h => ?_)
  · exact bankCells_of (by decide) (by decide)
  · exact bankCells_of (by decide) (by decide)
  · unfold bankCells bankAddr at h
    unfold drainCells bankCells bankAddr
    simp at h ⊢
    omega

theorem Store.local_resetRings : Store.Local n (bankCells n 0x20 0x29) st (st.resetRings n) := by
  unfold Store.resetRings
  refine Store.Local.trans (Store.Local.trans (Store.Local.trans (Store.Local.trans (Store.Local.trans
    (st.local_set16 n _ ?_ ?_) (Store.local_set16 _ n _ ?_ ?_)) (Store.local_set16 _ n _ ?_ ?_))
    (Store.local_set16 _ n _ ?_ ?_)) (Store.local_set16 _ n _ ?_ ?_)) (Store.local_setWidx _ n _) <;>
    exact bankCells_of (by decide) (by decide)

theorem Store.local_opened (x : SockState) : Store.Local n (bankCells n 0x20 0x29) st (st.opened n x) :=
  ((st.local_resetRings n).trans (Store.local_setResOut _ n _)).trans (Store.local_setState _ n _)

theorem Store.local_deliver (bytes : List Byte) :
    Store.Local n (deliveryCells n (st.widx n).toNat bytes.length) st (st.deliver n bytes) :=
  st.local_ite n (fun _ => st.local_rxDeliver n bytes) fun _ => .refl

theorem Store.local_sendUdp (data : List Byte) : Store.Local n (ownAddr n) st (st.sendUdp n data) := by
  unfold Store.sendUdp
  refine st.local_ite n (fun _ => (st.local_deliver n _).mono fun a h => ownAddr_deliveryCells h) fun _ => ?_
  refine st.local_ite n (fun _ => ?_) fun _ => st.local_emit n _
  exact st.local_ite n (fun _ => (st.local_deliver n _).mono fun a h => ownAddr_deliveryCells h) fun _ => .refl

theorem Store.local_openRule : Store.Local n (bankCells n 0x20 0x29) st (st.openRule n) := by
  unfold Store.openRule Store.openTcp Store.openUdp
  refine st.local_ite n (fun _ => ?_) fun _ => .refl
  refine st.local_ite n (fun _ => ?_) fun _ => st.local_ite n (fun _ => ?_) fun _ => .refl
  · exact st.local_ite n (fun _ => (st.local_emit n _).trans (Store.local_opened _ n _)) fun _ => st.local_emit n _
  · exact st.local_ite n (fun _ => (st.local_emit n _).trans (Store.local_opened _ n _)) fun _ => st.local_emit n _

theorem Store.local_listenRule : Store.Local n (fun _ => False) st (st.listenRule n) :=
  st.local_ite n (fun _ => st.local_ite n (fun _ => (st.local_emit n _).trans (Store.local_setState _ n _))
    fun _ => st.local_emit n _) fun _ => .refl

theorem Store.local_connectRule : Store.Local n (fun _ => False) st (st.connectRule n) :=
  st.local_ite n (fun _ => st.local_ite n (fun _ => (st.local_emit n _).trans (Store.local_setState _ n _))
    fun _ => st.local_emit n _) fun _ => .refl

theorem Store.local_disconRule : Store.Local n (fun _ => False) st (st.disconRule n) :=
  st.local_ite n (fun _ => st.local_closed n) fun _ => .refl

theorem Store.local_closeRule : Store.Local n (fun _ => False) st (st.closeRule n) :=
  st.local_ite n (fun _ => .refl) fun _ => st.local_closed n

/-- What SEND without a loopback delivery stores to: TX_FSR, TX_RD and IR (R246, R249). -/
abbrev sendCells (n : Fin 4) (a : Nat) : Prop := a = bankAddr n 0x02 ∨ drainCells n a

theorem Store.local_sendTcpRule : Store.Local n (sendCells n) st (st.sendTcpRule n) :=
  (((st.local_drainTx n).mono fun _ h => Or.inr h).trans (Store.local_emit _ n _)).trans
    ((Store.local_flagSendOk _ n).mono fun _ h => Or.inl h)

theorem Store.local_sendUdpRule : Store.Local n (ownAddr n) st (st.sendUdpRule n) :=
  (((st.local_drainTx n).mono fun _ h => ownAddr_bankCells h).trans (Store.local_sendUdp _ n _)).trans
    ((Store.local_flagSendOk _ n).mono fun _ h => Or.inl ⟨_, h⟩)

theorem Store.local_sendRule : Store.Local n (ownAddr n) st (st.sendRule n) := by
  unfold Store.sendRule
  split
  · exact (st.local_sendTcpRule n).mono fun a h => h.elim (fun h => Or.inl ⟨_, h⟩) ownAddr_bankCells
  · exact st.local_sendUdpRule n
  · exact .refl
  · exact .refl
  · exact .refl

theorem Store.local_recvRule : Store.Local n (bankCells n 0x26 0x27) st (st.recvRule n) :=
  st.local_ite n (fun _ => st.local_set16 n _ (bankCells_of (by decide) (by decide))
    (bankCells_of (by decide) (by decide))) fun _ => .refl

/-- Everything a command can touch (R240, R289). -/
theorem Store.local_dispatch (v : Byte) : Store.Local n (ownAddr n) st (st.dispatch n v) := by
  unfold Store.dispatch
  refine st.local_ite n (fun _ => (st.local_openRule n).mono fun _ h => ownAddr_bankCells h) fun _ => ?_
  refine st.local_ite n (fun _ => (st.local_listenRule n).mono fun _ h => h.elim) fun _ => ?_
  refine st.local_ite n (fun _ => (st.local_connectRule n).mono fun _ h => h.elim) fun _ => ?_
  refine st.local_ite n (fun _ => (st.local_disconRule n).mono fun _ h => h.elim) fun _ => ?_
  refine st.local_ite n (fun _ => (st.local_closeRule n).mono fun _ h => h.elim) fun _ => ?_
  refine st.local_ite n (fun _ => st.local_sendRule n) fun _ => ?_
  exact st.local_ite n (fun _ => (st.local_recvRule n).mono fun _ h => ownAddr_bankCells h) fun _ => .refl

theorem Store.local_writeCr (v : Byte) : Store.Local n (ownAddr n) st (st.writeCr n v) :=
  ((st.local_setReg n v (Or.inl ⟨_, rfl⟩)).trans (Store.local_dispatch _ n v)).trans
    (Store.local_setReg _ n _ (Or.inl ⟨_, rfl⟩))

/-- Everything a write to a bank cell can touch (R205, R289). -/
theorem Store.local_sockWrite (c v : Byte) : Store.Local n (ownAddr n) st (st.sockWrite n c v) := by
  unfold Store.sockWrite
  refine st.local_ite n (fun _ => st.local_writeCr n v) fun _ => ?_
  refine st.local_ite n (fun _ => (st.local_clearIr n v).mono fun _ h => Or.inl ⟨_, h⟩) fun _ => ?_
  refine st.local_ite n (fun _ => .refl) fun _ => ?_
  refine st.local_ite n (fun _ => ?_) fun _ => st.local_setReg n v (Or.inl ⟨_, rfl⟩)
  exact (st.local_setReg n v (Or.inl ⟨_, rfl⟩)).trans ((Store.local_updateFsr _ n).mono fun _ h => ownAddr_bankCells h)

end

end Sys2Proof.Machine
end

