-- ==== Sys2Proof/Laws/Loopback.lean ====
section
/-! SUPPORT. The option scan case by case (R303), and the lengths of the replies (R304, R312, R316). -/

namespace Sys2Proof.Machine

theorem pseudoHeader_length (ip : Ip) (port : Half) (len : Nat) : (pseudoHeader ip port len).length = 8 := rfl

theorem dhcpReply_length (c : Config) (req : List Byte) : (dhcpReply c req).length = 262 := by
  simp only [dhcpReply, List.length_append, List.length_map, List.length_range', List.length_replicate,
    List.length_cons, List.length_nil, ipBytes]

theorem ntpReply_length (req : List Byte) (now : Nat) (h : req.length = 48) : (ntpReply req now).length = 48 := by
  simp [ntpReply, be32, h]

/-- A pad is skipped. -/
theorem scanOptions_pad (r : List Byte) : scanOptions 0 (0 :: r) = scanOptions 0 r := by
  rw [scanOptions.eq_def]; simp only [if_true]

/-- The end option ends the list. -/
theorem scanOptions_end (r : List Byte) : scanOptions 0 (255 :: r) = none := by
  rw [scanOptions.eq_def]; simp only
  rw [if_neg (by decide), if_pos trivial]

/-- Option 53 with a value gives its first byte. -/
theorem scanOptions_type (l v : Byte) (r : List Byte) (hl : 1 ≤ l.toNat) :
    scanOptions 0 (53 :: l :: v :: r) = some v := by
  rw [scanOptions.eq_def]; simp only
  rw [if_neg (by decide), if_neg (by decide), if_pos ⟨trivial, hl, by simp⟩]
  rfl

/-- Any other option is skipped by its length. -/
theorem scanOptions_other (t l : Byte) (q : List Byte) (h₀ : t ≠ 0) (h₁ : t ≠ 53) (h₂ : t ≠ 255) :
    scanOptions 0 (t :: l :: q) = scanOptions (l.toNat + 1) (l :: q) := by
  rw [scanOptions.eq_def]; simp only
  rw [if_neg h₀, if_neg h₂, if_neg (fun h => h₁ h.1)]

/-- A tag with no length byte ends the list. -/
theorem scanOptions_tag (t : Byte) (h : t ≠ 0) : scanOptions 0 [t] = none := by
  rw [scanOptions.eq_def]; simp only
  rw [if_neg h]
  split <;> rfl

/-- An option 53 without a value is skipped. -/
theorem scanOptions_type_empty (r : List Byte) : scanOptions 0 (53 :: 0 :: r) = scanOptions 0 r := by
  rw [scanOptions.eq_def]; simp only
  rw [if_neg (by decide), if_neg (by decide), if_neg (fun h => absurd h.2.1 (by decide))]
  rfl

/-- Skipping more bytes than there are ends the list. -/
theorem scanOptions_short (k : Nat) (a : List Byte) (h : a.length ≤ k) : scanOptions k a = none := by
  induction k generalizing a with
  | zero => rw [List.length_eq_zero_iff.1 (Nat.le_zero.1 h)]; rfl
  | succ k ih =>
    match a, h with
    | [], _ => rfl
    | x :: a, h =>
      rw [scanOptions.eq_def]
      exact ih a (by simpa using h)

/-- An option 53 with no value byte ends the list. -/
theorem scanOptions_type_cut (l : Byte) : scanOptions 0 [53, l] = none := by
  rw [scanOptions.eq_def]; simp only
  rw [if_neg (by decide), if_neg (by decide), if_neg (fun h => absurd h.2.2 (by simp))]
  exact scanOptions_short _ _ (by simp)

/-- Skipping the bytes of a value. -/
theorem scanOptions_skip (k : Nat) (a b : List Byte) (h : a.length = k) : scanOptions k (a ++ b) = scanOptions 0 b := by
  induction k generalizing a with
  | zero => rw [List.length_eq_zero_iff.1 h]; rfl
  | succ k ih =>
    match a, h with
    | x :: a, h =>
      rw [List.cons_append, scanOptions.eq_def]
      exact ih a (by simpa using h)

theorem scanOptions_pads (p : Nat) (b : List Byte) :
    scanOptions 0 (List.replicate p 0 ++ b) = scanOptions 0 b := by
  induction p with
  | zero => rfl
  | succ p ih => rw [List.replicate_succ, List.cons_append, scanOptions_pad, ih]

end Sys2Proof.Machine
end

