-- ==== Sys2Proof/Laws/Router.lean ====
section
/-! SUPPORT. The address map read both ways, and what each router access can do. -/

namespace Sys2Proof.Machine

/-! ### Flat addresses -/

theorem toNat_bankAddr (n : Fin 4) (c : Byte) : (BitVec.ofNat 16 (bankAddr n c)).toNat = bankAddr n c := by
  have := bankAddr_range n c
  rw [BitVec.toNat_ofNat, Nat.mod_eq_of_lt (by omega)]

theorem toNat_txAddr (n : Fin 4) (i : BitVec 11) : (BitVec.ofNat 16 (txAddr n i)).toNat = txAddr n i := by
  have := txAddr_range n i
  rw [BitVec.toNat_ofNat, Nat.mod_eq_of_lt (by omega)]

theorem toNat_rxAddr (n : Fin 4) (i : BitVec 11) : (BitVec.ofNat 16 (rxAddr n i)).toNat = rxAddr n i := by
  have := rxAddr_range n i
  rw [BitVec.toNat_ofNat, Nat.mod_eq_of_lt (by omega)]

/-- What an address resolves to names the very cell at that address (R71). -/
theorem resolve_spec (a : Half) :
    match resolve a with
    | .common i => i.toNat = a.toNat
    | .bank n c => bankAddr n c = a.toNat
    | .tx n i => txAddr n i = a.toNat
    | .rx n i => rxAddr n i = a.toNat
    | .unmapped => isMapped a.toNat = false := by
  have ha := a.isLt
  unfold resolve
  simp only
  split
  · rename_i h
    split at h
    · cases h; simp only [BitVec.toNat_ofNat]; omega
    · repeat' split at h
      all_goals cases h
  · rename_i h
    repeat' split at h
    all_goals cases h
    simp only [bankAddr, Fin.ofNat, BitVec.toNat_ofNat]
    omega
  · rename_i h
    repeat' split at h
    all_goals cases h
    simp only [txAddr, Fin.ofNat, BitVec.toNat_ofNat]
    omega
  · rename_i h
    repeat' split at h
    all_goals cases h
    simp only [rxAddr, Fin.ofNat, BitVec.toNat_ofNat]
    omega
  · rename_i h
    repeat' split at h
    all_goals cases h
    simp only [isMapped, Bool.or_eq_false_iff, Bool.and_eq_false_iff, decide_eq_false_iff_not]
    omega

theorem resolve_bank (n : Fin 4) (c : Byte) : resolve (BitVec.ofNat 16 (bankAddr n c)) = .bank n c := by
  have hs := resolve_spec (BitVec.ofNat 16 (bankAddr n c))
  rw [toNat_bankAddr] at hs
  have hr := bankAddr_range n c
  revert hs
  cases resolve (BitVec.ofNat 16 (bankAddr n c)) with
  | common i => intro hs; have := i.isLt; simp only at hs; omega
  | bank m d => intro hs; obtain ⟨rfl, rfl⟩ := bankAddr_inj.1 hs; rfl
  | tx m i => intro hs; have := txAddr_range m i; simp only at hs; omega
  | rx m i => intro hs; have := rxAddr_range m i; simp only at hs; omega
  | unmapped => intro hs; rw [isMapped_bankAddr] at hs; cases hs

theorem resolve_tx (n : Fin 4) (i : BitVec 11) : resolve (BitVec.ofNat 16 (txAddr n i)) = .tx n i := by
  have hs := resolve_spec (BitVec.ofNat 16 (txAddr n i))
  rw [toNat_txAddr] at hs
  have hr := txAddr_range n i
  revert hs
  cases resolve (BitVec.ofNat 16 (txAddr n i)) with
  | common j => intro hs; have := j.isLt; simp only at hs; omega
  | bank m d => intro hs; have := bankAddr_range m d; simp only at hs; omega
  | tx m j => intro hs; obtain ⟨rfl, rfl⟩ := txAddr_inj.1 hs; rfl
  | rx m j => intro hs; have := rxAddr_range m j; simp only at hs; omega
  | unmapped => intro hs; rw [isMapped_txAddr] at hs; cases hs

theorem resolve_rx (n : Fin 4) (i : BitVec 11) : resolve (BitVec.ofNat 16 (rxAddr n i)) = .rx n i := by
  have hs := resolve_spec (BitVec.ofNat 16 (rxAddr n i))
  rw [toNat_rxAddr] at hs
  have hr := rxAddr_range n i
  revert hs
  cases resolve (BitVec.ofNat 16 (rxAddr n i)) with
  | common j => intro hs; have := j.isLt; simp only at hs; omega
  | bank m d => intro hs; have := bankAddr_range m d; simp only at hs; omega
  | tx m j => intro hs; have := txAddr_range m j; simp only at hs; omega
  | rx m j => intro hs; obtain ⟨rfl, rfl⟩ := rxAddr_inj.1 hs; rfl
  | unmapped => intro hs; rw [isMapped_rxAddr] at hs; cases hs

@[simp] theorem Store.routerWrite_bank (st : Store) (n : Fin 4) (c v : Byte) :
    st.routerWrite (BitVec.ofNat 16 (bankAddr n c)) v = st.sockWrite n c v := by
  unfold Store.routerWrite; rw [resolve_bank]

@[simp] theorem Store.routerRead_bank (st : Store) (n : Fin 4) (c : Byte) :
    st.routerRead (BitVec.ofNat 16 (bankAddr n c)) = st.sockRead n c := by
  unfold Store.routerRead; rw [resolve_bank]

/-! ### What a router write can do -/

/-- A write to an address outside the banks stores the byte there, or nothing where the address is unmapped. -/
theorem Store.routerWrite_plain (st : Store) (a : Half) (v : Byte)
    (h : ¬ (0x400 ≤ a.toNat ∧ a.toNat < 0x800)) :
    st.routerWrite a v = if isMapped a.toNat then st.poke a.toNat v else st := by
  have hs := resolve_spec a
  unfold Store.routerWrite
  revert hs
  cases resolve a with
  | common i =>
    intro hs; have := i.isLt; simp only at hs
    rw [if_pos (by simp [isMapped]; omega)]; simp only [hs]
  | bank m c => intro hs; have := bankAddr_range m c; simp only at hs; omega
  | tx m i => intro hs; simp only at hs ⊢; rw [← hs, if_pos (isMapped_txAddr m i)]
  | rx m i => intro hs; simp only at hs ⊢; rw [← hs, if_pos (isMapped_rxAddr m i)]
  | unmapped => intro hs; simp only at hs ⊢; rw [hs]; rfl

/-- A read outside the banks is the cell's byte, or 0x00 where the address is unmapped. -/
theorem Store.routerRead_plain (st : Store) (a : Half) (h : ¬ (0x400 ≤ a.toNat ∧ a.toNat < 0x800)) :
    st.routerRead a = if isMapped a.toNat then st.peek a.toNat else 0x00 := by
  have hs := resolve_spec a
  unfold Store.routerRead
  revert hs
  cases resolve a with
  | common i =>
    intro hs; have := i.isLt; simp only at hs
    rw [if_pos (by simp [isMapped]; omega)]; simp only [hs]
  | bank m c => intro hs; have := bankAddr_range m c; simp only at hs; omega
  | tx m i => intro hs; simp only at hs ⊢; rw [← hs, if_pos (isMapped_txAddr m i)]; rfl
  | rx m i => intro hs; simp only at hs ⊢; rw [← hs, if_pos (isMapped_rxAddr m i)]; rfl
  | unmapped => intro hs; simp only at hs ⊢; rw [hs]; rfl

/-- An address in the banks is a cell of one socket. -/
theorem exists_bankAddr {x : Nat} (h : 0x400 ≤ x ∧ x < 0x800) : ∃ (n : Fin 4) (c : Byte), x = bankAddr n c := by
  refine ⟨⟨(x - 0x400) / 0x100, by omega⟩, BitVec.ofNat 8 x, ?_⟩
  simp only [bankAddr, BitVec.toNat_ofNat]
  omega

/-- A router write is a write to a bank cell, or plain storage. -/
theorem Store.routerWrite_cases (st : Store) (a : Half) (v : Byte) :
    (∃ (n : Fin 4) (c : Byte), a.toNat = bankAddr n c ∧ st.routerWrite a v = st.sockWrite n c v) ∨
    (¬ (0x400 ≤ a.toNat ∧ a.toNat < 0x800) ∧ isMapped a.toNat = true ∧ st.routerWrite a v = st.poke a.toNat v) ∨
    (isMapped a.toNat = false ∧ st.routerWrite a v = st) := by
  by_cases h : 0x400 ≤ a.toNat ∧ a.toNat < 0x800
  · obtain ⟨n, c, hc⟩ := exists_bankAddr h
    have ha : a = BitVec.ofNat 16 (bankAddr n c) := by
      apply BitVec.eq_of_toNat_eq; rw [toNat_bankAddr, hc]
    exact Or.inl ⟨n, c, hc, by rw [ha, Store.routerWrite_bank]⟩
  · have := st.routerWrite_plain a v h
    cases hm : isMapped a.toNat
    · exact Or.inr (Or.inr ⟨rfl, by rw [this, hm]; rfl⟩)
    · exact Or.inr (Or.inl ⟨h, rfl, by rw [this, hm]; rfl⟩)

/-- The parts of the store no access changes: the parameters and the environment's side; events are only appended; the
memory stays canonical. -/
structure Store.Kept (st t : Store) : Prop where
  cfg : t.cfg = st.cfg
  envq : t.envq = st.envq
  ticks : t.ticks = st.ticks
  events : st.events <+: t.events
  memOk : st.MemOk → t.MemOk

theorem Store.Kept.refl (st : Store) : Store.Kept st st := ⟨rfl, rfl, rfl, List.prefix_refl _, id⟩

theorem Store.Kept.trans {st t u : Store} (h₁ : Store.Kept st t) (h₂ : Store.Kept t u) : Store.Kept st u :=
  ⟨h₂.cfg.trans h₁.cfg, h₂.envq.trans h₁.envq, h₂.ticks.trans h₁.ticks, h₁.events.trans h₂.events,
    fun h => h₂.memOk (h₁.memOk h)⟩

theorem Store.Local.kept {n : Fin 4} {P : Nat → Prop} {st t : Store} (h : Store.Local n P st t) : Store.Kept st t :=
  ⟨h.cfg, h.envq, h.ticks, h.events, h.memOk⟩

theorem Store.kept_routerWrite (st : Store) (a : Half) (v : Byte) : Store.Kept st (st.routerWrite a v) := by
  rcases st.routerWrite_cases a v with ⟨n, c, _, h⟩ | ⟨_, hm, h⟩ | ⟨_, h⟩
  · rw [h]; exact (st.local_sockWrite n c v).kept
  · rw [h]; exact (st.local_poke (P := fun _ => True) 0 v trivial hm).kept
  · rw [h]; exact .refl st

theorem Store.kept_regionWrite (st : Store) (bsb : BitVec 5) (addr k : Half) (v : Byte) :
    Store.Kept st (st.regionWrite bsb addr k v) := by
  unfold Store.regionWrite
  split
  · exact .refl st
  · exact st.kept_routerWrite _ v

theorem Store.kept_flush (st : Store) (d : Decoder) (k len : Nat) : Store.Kept st (st.flush d k len) := by
  induction len generalizing st k with
  | zero => exact .refl st
  | succ len ih => exact (st.kept_regionWrite _ _ _ _).trans (ih _ _)

theorem Store.kept_pollAll (st : Store) : Store.Kept st st.pollAll :=
  (((st.local_poll 0).kept.trans (Store.local_poll _ 1).kept).trans (Store.local_poll _ 2).kept).trans
    (Store.local_poll _ 3).kept

theorem Store.endTick_cfg (st : Store) : st.endTick.cfg = st.cfg := st.kept_pollAll.cfg
theorem Store.endTick_ticks (st : Store) : st.endTick.ticks = st.ticks + 1 :=
  congrArg (· + 1) st.kept_pollAll.ticks
theorem Store.endTick_envq (st : Store) : st.endTick.envq = st.envq.tail := congrArg List.tail st.kept_pollAll.envq
theorem Store.endTick_events (st : Store) : st.events <+: st.endTick.events := st.kept_pollAll.events

/-- A commit of the staged bytes is the burst of those bytes through the region (R171, R180). -/
theorem Store.flush_eq_regionWrites (st : Store) (d : Decoder) (k : Nat) (bs : List Byte)
    (h : ∀ i : Nat, i < bs.length → some (d.staged (k + i)) = bs[i]?) :
    st.flush d k bs.length = st.regionWrites (ctlBsb d.cmd) d.addr k bs := by
  induction bs generalizing st k with
  | nil => rfl
  | cons b bs ih =>
    have h0 : d.staged k = b := by have := h 0 (by simp); simpa using this
    show Store.flush (st.regionWrite (ctlBsb d.cmd) d.addr (BitVec.ofNat 16 k) (d.staged k)) d (k + 1) bs.length = _
    rw [h0]
    exact ih _ (k + 1) fun i hi => by
      have := h (i + 1) (by simpa using hi)
      rw [show k + 1 + i = k + (i + 1) by omega]
      simpa using this

end Sys2Proof.Machine
end

