-- ==== Sys2Proof/Laws/Ring.lean ====
section
/-! SUPPORT. The ring arithmetic and what the ring operations write: the drain of a transmit ring, the delivery into a
receive ring, the reset of both. -/

namespace Sys2Proof.Machine

/-! ### Differences modulo the capacity -/

theorem ringDiff_lt (a b : Nat) : ringDiff a b < 2048 := by unfold ringDiff; omega

theorem ringDiff_mod (a b : Nat) : ringDiff (a % 2048) (b % 2048) = ringDiff a b := by unfold ringDiff; omega

theorem ringDiff_mod_right (a b : Nat) : ringDiff a (b % 2048) = ringDiff a b := by unfold ringDiff; omega

/-- The read offset moved by the difference meets the write offset. -/
theorem ringDiff_add (a b : Nat) : (b % 2048 + ringDiff a b) % 2048 = a % 2048 := by unfold ringDiff; omega

theorem ringDiff_self_mod (a : Nat) : ringDiff a (a % 2048) = 0 := by unfold ringDiff; omega

theorem toNat_ofNat16 {x : Nat} (h : x < 65536) : (BitVec.ofNat 16 x).toNat = x := by
  rw [BitVec.toNat_ofNat, Nat.mod_eq_of_lt (by omega)]

/-! ### 16-bit fields of the bank, after one write among them

The cells of the five fields are literals, so every other field keeps its value. -/

section
variable (st : Store) (n : Fin 4)

theorem Store.updateFsr_fsrOk : (st.updateFsr n).FsrOk n := by
  have h := ringDiff_lt (st.txWr n).toNat (st.txRd n).toNat
  have h₁ : (st.updateFsr n).txWr n = st.txWr n := st.get16_set16_cell n n 0x20 0x24 _ (by decide) (by decide) (by decide)
  have h₂ : (st.updateFsr n).txRd n = st.txRd n := st.get16_set16_cell n n 0x20 0x22 _ (by decide) (by decide) (by decide)
  have h₃ : (st.updateFsr n).txFsr n =
      BitVec.ofNat 16 (2048 - ringDiff (st.txWr n).toNat (st.txRd n).toNat) := st.get16_set16_same n 0x20 _
  unfold Store.FsrOk
  rw [h₁, h₂, h₃, toNat_ofNat16 (by omega)]

/-! ### The drain (R249) -/

theorem Store.txQueued_eq : st.txQueued n = ringDiff (st.txWr n).toNat (st.txRd n).toNat := ringDiff_mod _ _

theorem Store.txBytes_eq (off len : Nat) :
    st.txBytes n off len = (List.range len).map fun i => st.tx n (BitVec.ofNat 11 (off + i)) := by
  induction len generalizing off with
  | zero => rfl
  | succ len ih =>
    rw [List.range_succ_eq_map, List.map_cons, List.map_map]
    show st.tx n (BitVec.ofNat 11 off) :: st.txBytes n (off + 1) len = _
    rw [ih (off + 1)]
    congr 1
    apply List.map_congr_left
    intro i _
    show st.tx n (BitVec.ofNat 11 (off + 1 + i)) = st.tx n (BitVec.ofNat 11 (off + (i + 1)))
    rw [show off + 1 + i = off + (i + 1) by omega]

/-- The bytes a drain returns are the queued ones. -/
theorem Store.drainData_eq : st.drainData n = st.queuedBytes n := by
  unfold Store.drainData Store.queuedBytes
  rw [Store.txBytes_eq, Store.txQueued_eq]
  apply List.map_congr_left
  intro i _
  congr 1
  apply BitVec.eq_of_toNat_eq
  simp only [BitVec.toNat_ofNat]
  omega

theorem Store.drainTx_txRd : (((st.drainTx n).txRd n).toNat = (st.txWr n).toNat % 2048) := by
  have h : (st.drainTx n).txRd n = BitVec.ofNat 16 (((st.txRd n).toNat % 2048 + st.txQueued n) % 2048) := by
    unfold Store.drainTx Store.updateFsr
    show Store.get16 _ n 0x22 = _
    rw [Store.get16_set16_cell _ n n 0x20 0x22 _ (by decide) (by decide) (by decide), Store.get16_set16_same]
  rw [h, Store.txQueued_eq, ringDiff_add, toNat_ofNat16 (by omega)]

theorem Store.drainTx_txWr : (st.drainTx n).txWr n = st.txWr n := by
  unfold Store.drainTx Store.updateFsr
  show Store.get16 _ n 0x24 = _
  rw [Store.get16_set16_cell _ n n 0x20 0x24 _ (by decide) (by decide) (by decide),
    Store.get16_set16_cell _ n n 0x22 0x24 _ (by decide) (by decide) (by decide)]
  rfl

theorem Store.drainTx_txFsr : (st.drainTx n).txFsr n = 0x0800 := by
  have h : (st.drainTx n).FsrOk n := Store.updateFsr_fsrOk _ n
  unfold Store.FsrOk at h
  rw [Store.drainTx_txRd, Store.drainTx_txWr, ringDiff_self_mod] at h
  exact BitVec.eq_of_toNat_eq h

/-! ### The delivery (R287) -/

@[simp] theorem Store.storeRx_sock (off : Nat) (bytes : List Byte) : (st.storeRx n off bytes).sock = st.sock := by
  induction bytes generalizing st off with
  | nil => rfl
  | cons b bs ih => exact (ih _ _).trans rfl

@[simp] theorem Store.storeRx_events (off : Nat) (bytes : List Byte) : (st.storeRx n off bytes).events = st.events := by
  induction bytes generalizing st off with
  | nil => rfl
  | cons b bs ih => exact (ih _ _).trans rfl

/-- Byte `i` of a store of at most `CAP` bytes stands at offset `off + i`. -/
theorem Store.storeRx_rx (off : Nat) (bytes : List Byte) (h : bytes.length ≤ 2048) (i : Nat) (hi : i < bytes.length) :
    some ((st.storeRx n off bytes).rx n (BitVec.ofNat 11 (off + i))) = bytes[i]? := by
  induction bytes generalizing st off i with
  | nil => simp at hi
  | cons b bs ih =>
    simp only [List.length_cons] at h hi
    show some ((Store.storeRx (st.poke (rxAddr n (BitVec.ofNat 11 off)) b) n (off + 1) bs).rx n _) = _
    cases i with
    | zero =>
      have hk := ((st.poke (rxAddr n (BitVec.ofNat 11 off)) b).local_storeRx n (off + 1) bs).cells
        (rxAddr n (BitVec.ofNat 11 (off + 0))) (by
          rintro ⟨j, hj, he⟩
          have := congrArg BitVec.toNat (rxAddr_inj.1 he).2
          simp only [BitVec.toNat_ofNat] at this
          omega)
      unfold Store.rx
      rw [hk, Store.peek_poke]
      simp
    | succ i =>
      rw [show off + (i + 1) = off + 1 + i by omega, ih _ (off + 1) (by omega) i (by omega)]
      simp

/-- Everything a delivery that fits writes. -/
theorem Store.rxDeliver_spec (bytes : List Byte) (h : bytes.length ≤ st.rxRoom n) :
    (∀ i : Nat, i < bytes.length →
      some ((st.rxDeliver n bytes).rx n (BitVec.ofNat 11 ((st.widx n).toNat + i))) = bytes[i]?) ∧
    (st.rxDeliver n bytes).widx n = BitVec.ofNat 11 ((st.widx n).toNat + bytes.length) ∧
    (st.rxDeliver n bytes).rxRsr n = BitVec.ofNat 16 ((st.rxRsr n).toNat + bytes.length) ∧
    (st.rxDeliver n bytes).ir n = st.ir n ||| 0x04 ∧
    (st.rxDeliver n bytes).state n = st.state n ∧ (st.rxDeliver n bytes).resOut n = st.resOut n ∧
    (st.rxDeliver n bytes).resAcc n = st.resAcc n ∧ (st.rxDeliver n bytes).events = st.events := by
  have hl := st.local_storeRx n (st.widx n).toNat bytes
  have hw : (st.storeRx n (st.widx n).toNat bytes).widx n = st.widx n := by
    unfold Store.widx; rw [Store.storeRx_sock]
  have hr : (st.storeRx n (st.widx n).toNat bytes).rxRsr n = st.rxRsr n := hl.get16 not_rxCells_bank not_rxCells_bank
  have hi : (st.storeRx n (st.widx n).toNat bytes).ir n = st.ir n := hl.reg not_rxCells_bank
  refine ⟨?_, ?_, ?_, ?_, ?_, ?_, ?_, ?_⟩
  · intro i hi
    have := st.storeRx_rx n (st.widx n).toNat bytes (by unfold Store.rxRoom at h; omega) i hi
    rw [← this]
    simp only [Store.rxDeliver, Store.flagRecv, Store.rx_setReg, Store.rx_set16]
    rfl
  · simp [Store.rxDeliver, Store.flagRecv, hw]
  · show Store.get16 _ n 0x26 = _
    simp only [Store.rxDeliver, Store.flagRecv]
    rw [Store.get16_setReg_cell _ n n 0x02 0x26 _ (by decide) (by decide), Store.get16_set16_same]
    show BitVec.ofNat 16 (((st.storeRx n (st.widx n).toNat bytes).rxRsr n).toNat + bytes.length) = _
    rw [hr]
  · unfold Store.rxDeliver Store.flagRecv
    show Store.reg _ n 0x02 = _
    rw [Store.reg_setReg_same]
    show Store.reg _ n 0x02 ||| 0x04 = _
    rw [Store.reg_set16_cell _ n n 0x26 0x02 _ (by decide) (by decide)]
    show (Store.ir (st.storeRx n (st.widx n).toNat bytes) n) ||| 0x04 = _
    rw [hi]
  · simp [Store.rxDeliver, Store.flagRecv]; simp [Store.state]
  · simp [Store.rxDeliver, Store.flagRecv]; simp [Store.resOut]
  · simp [Store.rxDeliver, Store.flagRecv]; simp [Store.resAcc]
  · simp [Store.rxDeliver, Store.flagRecv]

/-! ### The reset (R250) -/

/-- What a reset of the rings writes. -/
theorem Store.resetRings_spec :
    (st.resetRings n).txRd n = 0 ∧ (st.resetRings n).txWr n = 0 ∧ (st.resetRings n).txFsr n = 0x0800 ∧
    (st.resetRings n).rxRsr n = 0 ∧ (st.resetRings n).rxRd n = 0 ∧ (st.resetRings n).widx n = 0 := by
  unfold Store.resetRings
  simp only [Store.txRd, Store.txWr, Store.txFsr, Store.rxRsr, Store.rxRd, Store.setWidx_get16, Store.widx_setWidx]
  refine ⟨?_, ?_, ?_, ?_, ?_, by simp⟩
  · rw [Store.get16_set16_cell _ n n 0x28 0x22 _ (by decide) (by decide) (by decide),
      Store.get16_set16_cell _ n n 0x26 0x22 _ (by decide) (by decide) (by decide),
      Store.get16_set16_cell _ n n 0x20 0x22 _ (by decide) (by decide) (by decide),
      Store.get16_set16_cell _ n n 0x24 0x22 _ (by decide) (by decide) (by decide), Store.get16_set16_same]
  · rw [Store.get16_set16_cell _ n n 0x28 0x24 _ (by decide) (by decide) (by decide),
      Store.get16_set16_cell _ n n 0x26 0x24 _ (by decide) (by decide) (by decide),
      Store.get16_set16_cell _ n n 0x20 0x24 _ (by decide) (by decide) (by decide), Store.get16_set16_same]
  · rw [Store.get16_set16_cell _ n n 0x28 0x20 _ (by decide) (by decide) (by decide),
      Store.get16_set16_cell _ n n 0x26 0x20 _ (by decide) (by decide) (by decide), Store.get16_set16_same]
  · rw [Store.get16_set16_cell _ n n 0x28 0x26 _ (by decide) (by decide) (by decide), Store.get16_set16_same]
  · rw [Store.get16_set16_same]

end

end Sys2Proof.Machine
end

