-- ==== Sys2Proof/Laws/Transfer.lean ====
section
/-! SUPPORT. Ticks and transfers: what a tick does by its levels, and a transfer of one byte as one use of the decoder. -/

namespace Sys2Proof.Machine

/-! ### Waiting -/

theorem Store.wait_cons (st : Store) (k : Nat) : st.wait (k + 1) = st.endTick.wait k := rfl

theorem Store.wait_succ (st : Store) (k : Nat) : st.wait (k + 1) = (st.wait k).endTick := by
  induction k generalizing st with
  | zero => rfl
  | succ k ih => rw [Store.wait_cons st (k + 1), ih, Store.wait_cons st k]

theorem Store.wait_add (st : Store) (j k : Nat) : st.wait (j + k) = (st.wait j).wait k := by
  induction k with
  | zero => rfl
  | succ k ih => rw [← Nat.add_assoc, Store.wait_succ, ih, Store.wait_succ]

theorem Store.wait_cfg (st : Store) (k : Nat) : (st.wait k).cfg = st.cfg := by
  induction k with
  | zero => rfl
  | succ k ih => rw [Store.wait_succ, Store.endTick_cfg, ih]

/-- R325: a socket with nothing to do is left as it is. -/
theorem Store.poll_idle {st : Store} {n : Fin 4} (h : st.PollIdle n) : st.poll n = st := by
  rcases h with h | h | ⟨h, hp⟩ | ⟨h, hp, hs⟩ | ⟨h, hp⟩ <;> unfold Store.poll <;> rw [h]
  · unfold Store.pollAccept; simp only [hp]
  · unfold Store.pollStream; simp [hp, hs]
  · unfold Store.pollDatagram; simp only [hp]

/-- R325: with nothing to do for any socket, a tick's polls leave all as it is. -/
theorem Store.endTick_idle {st : Store} (h : ∀ n : Fin 4, st.PollIdle n) : st.endTick = st.advance := by
  unfold Store.endTick Store.pollAll
  rw [Store.poll_idle (h 0), Store.poll_idle (h 1), Store.poll_idle (h 2), Store.poll_idle (h 3)]

/-- Where no poll acts (R288), the end of a tick moves the tick counter and the input queue alone. -/
theorem Store.endTick_quiet (st : Store) (h : st.Quiet) : st.endTick = st.advance :=
  Store.endTick_idle fun n => (h n).imp id Or.inl

/-- Where no poll acts, waiting changes no cell, no socket and no event. -/
theorem Store.wait_quiet (st : Store) (h : st.Quiet) (k : Nat) :
    (st.wait k).mem = st.mem ∧ (st.wait k).sock = st.sock ∧ (st.wait k).events = st.events ∧
      (st.wait k).cfg = st.cfg ∧ (st.wait k).Quiet := by
  induction k with
  | zero => exact ⟨rfl, rfl, rfl, rfl, h⟩
  | succ k ih =>
    obtain ⟨h₁, h₂, h₃, h₄, h₅⟩ := ih
    rw [Store.wait_succ, Store.endTick_quiet _ h₅]
    exact ⟨h₁, h₂, h₃, h₄, h₅⟩

/-! ### What the decoder leaves alone -/

/-- The driven level, the ready flag's neighbours, the master's side; the store changes through the router alone. -/
structure State.Decodes (s t : State) : Prop where
  dout : t.smp.dout = s.smp.dout
  rxByte : t.smp.rxByte = s.smp.rxByte
  bitcnt : t.smp.bitcnt = s.smp.bitcnt
  prevClk : t.smp.prevClk = s.smp.prevClk
  ready : s.smp.ready = false → t.smp.ready = false
  received : t.received = s.received
  bus : t.bus = s.bus
  kept : Store.Kept s.store t.store

theorem State.Decodes.refl (s : State) : State.Decodes s s := ⟨rfl, rfl, rfl, rfl, id, rfl, rfl, .refl _⟩

theorem State.Decodes.trans {s t u : State} (h₁ : State.Decodes s t) (h₂ : State.Decodes t u) : State.Decodes s u :=
  ⟨h₂.dout.trans h₁.dout, h₂.rxByte.trans h₁.rxByte, h₂.bitcnt.trans h₁.bitcnt, h₂.prevClk.trans h₁.prevClk,
    fun h => h₂.ready (h₁.ready h), h₂.received.trans h₁.received, h₂.bus.trans h₁.bus, h₁.kept.trans h₂.kept⟩

section
variable (s : State) (b : Byte)

theorem State.decodes_consumed : State.Decodes s { s with smp := s.smp.consumed } :=
  ⟨rfl, rfl, rfl, rfl, fun _ => rfl, rfl, rfl, .refl _⟩

theorem State.decodes_deselectA : State.Decodes s s.deselectA := by
  unfold State.deselectA
  split <;> exact ⟨rfl, rfl, rfl, rfl, fun h => by first | rfl | exact h, rfl, rfl, .refl _⟩

theorem State.decodes_commandA : State.Decodes s (s.commandA b) := by
  unfold State.commandA
  split
  · exact ⟨rfl, rfl, rfl, rfl, id, rfl, rfl, .refl _⟩
  · split <;> exact ⟨rfl, rfl, rfl, rfl, id, rfl, rfl, .refl _⟩

theorem State.decodes_addrHiA : State.Decodes s (s.addrHiA b) := ⟨rfl, rfl, rfl, rfl, id, rfl, rfl, .refl _⟩

theorem State.decodes_addrLoA : State.Decodes s (s.addrLoA b) := by
  cases h : s.dec.dir <;> simp only [State.addrLoA, h] <;> exact ⟨rfl, rfl, rfl, rfl, id, rfl, rfl, .refl _⟩

theorem State.decodes_dataA : State.Decodes s (s.dataA b) := by
  cases h : s.dec.dir <;> simp only [State.dataA, h]
  · exact ⟨rfl, rfl, rfl, rfl, id, rfl, rfl, .refl _⟩
  · exact ⟨rfl, rfl, rfl, rfl, id, rfl, rfl, Store.kept_routerWrite _ _ _⟩

theorem State.decodes_byteA : State.Decodes s s.byteA := by
  refine s.decodes_consumed.trans ?_
  unfold State.byteA
  cases s.dec.st
  · exact State.decodes_commandA _ _
  · exact State.decodes_addrHiA _ _
  · exact State.decodes_addrLoA _ _
  · exact State.decodes_dataA _ _
  all_goals exact .refl _

theorem State.commitB_kept : Store.Kept s.store s.commitB := by
  unfold State.commitB
  split
  · exact Store.kept_flush _ _ _ _
  · exact .refl _

theorem State.decodes_deselectB : State.Decodes s s.deselectB := by
  unfold State.deselectB
  split <;> exact ⟨rfl, rfl, rfl, rfl, fun h => by first | rfl | exact h, rfl, rfl, s.commitB_kept⟩

theorem State.decodes_controlB : State.Decodes s (s.controlB b) := by
  cases h : ctlWrite b <;> simp only [State.controlB, h] <;> exact ⟨rfl, rfl, rfl, rfl, id, rfl, rfl, .refl _⟩

theorem State.decodes_stageB : State.Decodes s (s.stageB b) := by
  unfold State.stageB
  split <;> exact ⟨rfl, rfl, rfl, rfl, id, rfl, rfl, .refl _⟩

theorem State.decodes_byteB : State.Decodes s s.byteB := by
  refine s.decodes_consumed.trans ?_
  unfold State.byteB
  cases s.dec.st
  case bWait => exact ⟨rfl, rfl, rfl, rfl, id, rfl, rfl, .refl _⟩
  case bAddrLo => exact ⟨rfl, rfl, rfl, rfl, id, rfl, rfl, .refl _⟩
  case bCmd => exact State.decodes_controlB _ _
  case bData =>
    cases s.dec.dir
    · exact ⟨rfl, rfl, rfl, rfl, id, rfl, rfl, .refl _⟩
    · exact State.decodes_stageB _ _
  all_goals exact .refl _

/-- What every decoder step leaves alone. -/
theorem State.decodes_decoderStep (sel : Bool) : State.Decodes s (s.decoderStep sel) := by
  unfold State.decoderStep State.decoderStepA State.decoderStepB
  split
  · split
    · exact s.decodes_deselectA
    · split
      · exact .refl s
      · exact s.decodes_byteA
  · split
    · exact s.decodes_deselectB
    · split
      · exact .refl s
      · exact s.decodes_byteB

end

/-! ### Ticks -/

theorem State.decoderStep_no_byte (s : State) (h : s.smp.ready = false) : s.decoderStep true = s := by
  unfold State.decoderStep State.decoderStepA State.decoderStepB Sampler.isDataReady
  split <;> simp [h]

/-- A selected tick in which no byte is complete changes the sampler, and the store through the polls (R152, R172). -/
theorem State.drive_no_byte (s : State) (l : Lines) (hl : l.selN = false) (hr : (s.smp.step l).ready = false) :
    s.drive l = { s with smp := s.smp.step l, store := s.store.endTick } := by
  unfold State.drive isSelected
  rw [hl]
  simp only [Bool.not_false]
  rw [State.decoderStep_no_byte { s with smp := s.smp.step l } hr]

theorem State.drive_cfg (s : State) (l : Lines) : (s.drive l).store.cfg = s.store.cfg := by
  unfold State.drive
  simp only [Store.endTick_cfg]
  exact (State.decodes_decoderStep { s with smp := s.smp.step l } _).kept.cfg

theorem State.drive_events (s : State) (l : Lines) : s.store.events <+: (s.drive l).store.events := by
  unfold State.drive
  exact (State.decodes_decoderStep { s with smp := s.smp.step l } _).kept.events.trans (Store.endTick_events _)

theorem State.drive_bus (s : State) (l : Lines) : (s.drive l).bus = s.bus :=
  (State.decodes_decoderStep { s with smp := s.smp.step l } _).bus

/-! ### One bit, one byte -/

/-- The sampler after a bit that does not complete a byte. -/
def Sampler.mid (p : Sampler) (d : Bool) : Sampler :=
  { p with
    bitcnt := p.bitcnt + 1, shin := shiftIn p.shin d, shout := p.shout <<< 1, prevClk := true
    dout := p.shout.getLsbD 7 }

/-- The sampler after a bit that completes a byte, before the decoder consumes it. -/
def Sampler.last (p : Sampler) (d : Bool) : Sampler :=
  { bitcnt := 0, shin := shiftIn p.shin d, shout := p.shout <<< 1, prevClk := true, ready := true
    rxByte := shiftIn p.shin d, dout := p.shout.getLsbD 7 }

theorem Sampler.step_low (p : Sampler) (d : Bool) : p.step ⟨false, false, d⟩ = { p with prevClk := false } := by
  simp [Sampler.step, Sampler.steady]

theorem Sampler.pulse_mid (p : Sampler) (d : Bool) (h : p.bitcnt ≠ 7) :
    (p.step ⟨false, false, d⟩).step ⟨false, true, d⟩ = p.mid d := by
  rw [Sampler.step_low]
  unfold Sampler.step Sampler.edge Sampler.mid
  simp only [Bool.not_false, Bool.and_self, if_true, Bool.false_eq_true, if_false]
  rw [if_neg h]

theorem Sampler.pulse_last (p : Sampler) (d : Bool) (h : p.bitcnt = 7) :
    (p.step ⟨false, false, d⟩).step ⟨false, true, d⟩ = p.last d := by
  rw [Sampler.step_low]
  unfold Sampler.step Sampler.edge Sampler.last
  simp only [Bool.not_false, Bool.and_self, if_true, Bool.false_eq_true, if_false]
  rw [if_pos h]
  rfl

/-- A bit that does not complete a byte. -/
theorem State.clockBit_mid (s : State) (d : Bool) (hb : s.smp.bitcnt ≠ 7) (hr : s.smp.ready = false) :
    s.clockBit d = { s with smp := s.smp.mid d, store := s.store.wait 2 } := by
  unfold State.clockBit
  have h := Sampler.pulse_mid s.smp d hb
  rw [State.drive_no_byte s _ rfl (by rw [Sampler.step_low]; exact hr), State.drive_no_byte _ _ rfl (by
    simp only [h]; exact hr)]
  simp only [h]
  rfl

/-- The bit that completes a byte: one use of the decoder. -/
theorem State.clockBit_last (s : State) (d : Bool) (hb : s.smp.bitcnt = 7) (hr : s.smp.ready = false) :
    s.clockBit d =
      let t := State.decoderStep { s with smp := s.smp.last d, store := s.store.wait 1 } true
      { t with store := t.store.endTick } := by
  unfold State.clockBit
  have h := Sampler.pulse_last s.smp d hb
  rw [State.drive_no_byte s _ rfl (by rw [Sampler.step_low]; exact hr)]
  unfold State.drive
  simp only [h]
  rfl

/-- The bits the master collects while the shift register holds `w`. -/
def readOut (r w : Byte) : Nat → Byte
  | 0 => r
  | k + 1 => readOut (shiftIn r (w.getLsbD 7)) (w <<< 1) k

theorem State.clockBits_mid (ds : List Bool) (s : State) (r : Byte) (hb : s.smp.bitcnt.toNat + ds.length ≤ 7)
    (hr : s.smp.ready = false) :
    s.clockBits r ds =
      ({ s with smp := ds.foldl Sampler.mid s.smp, store := s.store.wait (2 * ds.length) },
        readOut r s.smp.shout ds.length) := by
  induction ds generalizing s r with
  | nil => rfl
  | cons d ds ih =>
    simp only [List.length_cons] at hb
    have hne : s.smp.bitcnt ≠ 7 := by
      intro h; rw [h] at hb
      simp only [show (7 : BitVec 3).toNat = 7 from rfl] at hb; omega
    have hsucc : (s.smp.bitcnt + 1).toNat = s.smp.bitcnt.toNat + 1 := by
      rw [BitVec.toNat_add]; simp only [show (1 : BitVec 3).toNat = 1 from rfl]; omega
    simp only [State.clockBits]
    rw [State.clockBit_mid s d hne hr,
      ih { s with smp := s.smp.mid d, store := s.store.wait 2 } _
        (by show (s.smp.bitcnt + 1).toNat + ds.length ≤ 7; rw [hsucc]; omega) hr]
    rw [List.length_cons, show 2 * (ds.length + 1) = 2 + 2 * ds.length by omega, Store.wait_add]
    rfl

theorem State.clockBits_append (ds es : List Bool) (s : State) (r : Byte) :
    s.clockBits r (ds ++ es) = (s.clockBits r ds).1.clockBits (s.clockBits r ds).2 es := by
  induction ds generalizing s r with
  | nil => rfl
  | cons d ds ih => simp only [List.cons_append, State.clockBits, ih]

/-- The last bit of a byte, with what the master reads. -/
theorem State.clockBits_last (s : State) (r : Byte) (d : Bool) (hb : s.smp.bitcnt = 7) (hr : s.smp.ready = false) :
    s.clockBits r [d] =
      let t := State.decoderStep { s with smp := s.smp.last d, store := s.store.wait 1 } true
      ({ t with store := t.store.endTick }, shiftIn r (s.smp.shout.getLsbD 7)) := by
  simp only [State.clockBits]
  rw [State.clockBit_last s d hb hr]
  simp only [(State.decodes_decoderStep _ _).dout]
  rfl

theorem shiftIn_bits (r v : Byte) :
    shiftIn (shiftIn (shiftIn (shiftIn (shiftIn (shiftIn (shiftIn (shiftIn r (v.getLsbD 7)) (v.getLsbD 6))
      (v.getLsbD 5)) (v.getLsbD 4)) (v.getLsbD 3)) (v.getLsbD 2)) (v.getLsbD 1)) (v.getLsbD 0) = v := by
  apply BitVec.eq_of_getLsbD_eq
  intro i hi
  unfold shiftIn
  have : i = 0 ∨ i = 1 ∨ i = 2 ∨ i = 3 ∨ i = 4 ∨ i = 5 ∨ i = 6 ∨ i = 7 := by omega
  rcases this with rfl | rfl | rfl | rfl | rfl | rfl | rfl | rfl <;> simp

/-- The sampler at the end of a transfer of `v`, before the decoder consumes the byte. -/
def Sampler.full (p : Sampler) (v : Byte) : Sampler :=
  { bitcnt := 0, shin := v, shout := 0, prevClk := true, ready := true, rxByte := v, dout := p.shout.getLsbD 0 }

theorem readOut_eight : ∀ w : Byte, shiftIn (readOut 0 w 7) ((w <<< 7).getLsbD 7) = w := by decide +kernel
theorem shl_eight : ∀ w : Byte, (w <<< 7) <<< 1 = 0 := by decide +kernel
theorem shl_seven_top : ∀ w : Byte, (w <<< 7).getLsbD 7 = w.getLsbD 0 := by decide +kernel
theorem shl_seven : ∀ w : Byte, w <<< 1 <<< 1 <<< 1 <<< 1 <<< 1 <<< 1 <<< 1 = w <<< 7 := by decide +kernel

/-- A transfer of one byte: fifteen ticks of polls, then one use of the decoder with the byte complete; the master reads
the byte that was primed (R112, R139, R140). -/
theorem State.xfer_spec (s : State) (v : Byte) (hb : s.smp.bitcnt = 0) (hr : s.smp.ready = false) :
    s.xfer v =
      let t := State.decoderStep { s with smp := s.smp.full v, store := s.store.wait 15 } true
      { t with store := t.store.endTick, received := s.received ++ [s.smp.shout] } := by
  have hbits : bitsMsb v = [v.getLsbD 7, v.getLsbD 6, v.getLsbD 5, v.getLsbD 4, v.getLsbD 3, v.getLsbD 2, v.getLsbD 1]
      ++ [v.getLsbD 0] := rfl
  let p := [v.getLsbD 7, v.getLsbD 6, v.getLsbD 5, v.getLsbD 4, v.getLsbD 3, v.getLsbD 2, v.getLsbD 1].foldl
    Sampler.mid s.smp
  have hp : p.bitcnt = 7 ∧ p.ready = false ∧ p.shout = s.smp.shout <<< 7 := by
    refine ⟨?_, hr, ?_⟩
    · show s.smp.bitcnt + 1 + 1 + 1 + 1 + 1 + 1 + 1 = 7
      rw [hb]; rfl
    · exact shl_seven _
  have hl : p.last (v.getLsbD 0) = s.smp.full v := by
    show ({ bitcnt := 0, shin := _, shout := p.shout <<< 1, prevClk := true, ready := true, rxByte := _
            dout := p.shout.getLsbD 7 } : Sampler) = _
    rw [hp.2.2, shl_eight, shl_seven_top]
    unfold Sampler.full
    rw [Sampler.mk.injEq]
    exact ⟨rfl, shiftIn_bits _ v, rfl, rfl, rfl, shiftIn_bits _ v, rfl⟩
  have h := State.clockBits_last { s with smp := p, store := s.store.wait 14 } (readOut 0 s.smp.shout 7) (v.getLsbD 0)
    hp.1 hp.2.1
  simp only [hl, ← Store.wait_add, hp.2.2, readOut_eight] at h
  have hm := State.clockBits_mid
    [v.getLsbD 7, v.getLsbD 6, v.getLsbD 5, v.getLsbD 4, v.getLsbD 3, v.getLsbD 2, v.getLsbD 1] s 0
    (by rw [hb]; simp) hr
  have hall : s.clockBits 0 (bitsMsb v) =
      ({ State.decoderStep { s with smp := s.smp.full v, store := s.store.wait 15 } true with
          store := (State.decoderStep { s with smp := s.smp.full v, store := s.store.wait 15 } true).store.endTick },
        s.smp.shout) := by
    rw [hbits, State.clockBits_append, hm]
    exact h
  unfold State.xfer
  rw [hall]
  simp only [(State.decodes_decoderStep _ _).received]

end Sys2Proof.Machine
end

