-- ==== Sys2Proof/Laws/Transactions.lean ====
section
/-! SUPPORT. One transfer per decoder state: what `XFER` of a byte does in each, polls of its sixteen ticks included; and
the select ticks around a transaction. -/

namespace Sys2Proof.Machine

/-- The sampler after a transfer of `v` that left `w` primed. -/
def Sampler.after (p : Sampler) (v w : Byte) : Sampler :=
  { bitcnt := 0, shin := v, shout := w, prevClk := true, ready := false, rxByte := v, dout := p.shout.getLsbD 0 }

/-- `SEL` (R112). -/
theorem State.sel_spec (s : State) (hr : s.smp.ready = false) :
    s.sel = { s with smp := { s.smp with prevClk := false }, store := s.store.wait 1 } := by
  unfold State.sel
  rw [State.drive_no_byte s _ rfl (by rw [Sampler.step_low]; exact hr), Sampler.step_low]
  rfl

/-! ### A deselected tick -/

theorem Sampler.drained (p : Sampler) :
    (if p.isDataReady = true then p.consumed else p) = { p with ready := false } := by
  rcases p with ⟨b, i, o, c, r, x, d⟩
  cases r <;> rfl

/-- A deselected tick under Model A (R131, R151). -/
theorem State.drive_deselect_a {s : State} (l : Lines) (hl : l.selN = true) (hm : s.store.cfg.model = .a) :
    s.drive l = { s with
      smp := { s.smp.deselected with ready := false }
      store := s.store.endTick
      dec := { s.dec with st := .aWait, addr := 0, cmd := 0, dir := .read } } := by
  have hs : s.smp.step l = s.smp.deselected := by unfold Sampler.step; rw [hl]; rfl
  have hd : ∀ t : State, t.store.cfg.model = .a → t.decoderStep false = t.deselectA := by
    intro t ht; unfold State.decoderStep State.decoderStepA; rw [ht]; rfl
  unfold State.drive isSelected
  simp only [hs, hl, Bool.not_true]
  rw [hd { s with smp := s.smp.deselected } hm]
  simp only [State.deselectA, Sampler.drained]

/-- A deselected tick under Model B (R131, R171). -/
theorem State.drive_deselect_b {s : State} (l : Lines) (hl : l.selN = true) (hm : s.store.cfg.model = .b) :
    s.drive l = { s with
      smp := { s.smp.deselected with ready := false }
      store := s.commitB.endTick
      dec := { s.dec with st := .bWait, addr := 0, cmd := 0, dir := .read, count := 0 } } := by
  have hs : s.smp.step l = s.smp.deselected := by unfold Sampler.step; rw [hl]; rfl
  have hd : ∀ t : State, t.store.cfg.model = .b → t.decoderStep false = t.deselectB := by
    intro t ht; unfold State.decoderStep State.decoderStepB; rw [ht]; rfl
  unfold State.drive isSelected
  simp only [hs, hl, Bool.not_true]
  rw [hd { s with smp := s.smp.deselected } hm]
  simp only [State.deselectB, Sampler.drained]
  rfl

/-! ### Model A -/

section
variable {s : State} (v : Byte) (hm : s.store.cfg.model = .a) (hb : s.smp.bitcnt = 0) (hr : s.smp.ready = false)
include hm hb hr

theorem State.xfer_a : s.xfer v =
    let t := State.byteA { s with smp := s.smp.full v, store := s.store.wait 15 }
    { t with store := t.store.endTick, received := s.received ++ [s.smp.shout] } := by
  rw [State.xfer_spec s v hb hr]
  unfold State.decoderStep State.decoderStepA Sampler.isDataReady
  simp only [Store.wait_cfg, hm]
  rfl

/-- In `A_WAIT` (R153, R154). -/
theorem State.xfer_commandA (hd : s.dec.st = .aWait) : s.xfer v =
    { s with
      smp := s.smp.after v 0
      store := s.store.wait 16
      dec := if v = 0xF0 then { s.dec with cmd := v, dir := .write, st := .aAddrHi }
        else if v = 0x0F then { s.dec with cmd := v, dir := .read, st := .aAddrHi } else s.dec
      received := s.received ++ [s.smp.shout] } := by
  rw [State.xfer_a v hm hb hr]
  unfold State.byteA
  simp only [hd]
  have hself : ({ s.dec with st := .aWait } : Decoder) = s.dec := by rw [← hd]
  rw [Store.wait_succ s.store 15]
  generalize s.store.wait 15 = w
  by_cases h₁ : v = 0xF0
  · have h : ∀ t : State, t.commandA v = { t with dec := { t.dec with cmd := v, dir := .write, st := .aAddrHi } } :=
      fun t => if_pos h₁
    rw [if_pos h₁]
    simp only [Sampler.getByte, Sampler.full, h]
    rfl
  · by_cases h₂ : v = 0x0F
    · have h : ∀ t : State, t.commandA v = { t with dec := { t.dec with cmd := v, dir := .read, st := .aAddrHi } } :=
        fun t => (if_neg h₁).trans (if_pos h₂)
      rw [if_neg h₁, if_pos h₂]
      simp only [Sampler.getByte, Sampler.full, h]
      rfl
    · have h : ∀ t : State, t.commandA v = { t with dec := { t.dec with st := .aWait } } :=
        fun t => (if_neg h₁).trans (if_neg h₂)
      rw [if_neg h₁, if_neg h₂]
      simp only [Sampler.getByte, Sampler.full, h, hself]
      rfl

/-- In `A_ADDR_HI` (R155). -/
theorem State.xfer_addrHiA (hd : s.dec.st = .aAddrHi) : s.xfer v =
    { s with
      smp := s.smp.after v 0
      store := s.store.wait 16
      dec := { s.dec with addr := addrOf v 0, st := .aAddrLo }
      received := s.received ++ [s.smp.shout] } := by
  rw [State.xfer_a v hm hb hr]
  unfold State.byteA
  simp only [hd]
  rw [Store.wait_succ s.store 15]
  generalize s.store.wait 15 = w
  rfl

/-- In `A_ADDR_LO` (R156). -/
theorem State.xfer_addrLoA (hd : s.dec.st = .aAddrLo) : s.xfer v =
    { s with
      smp := s.smp.after v (match s.dec.dir with
        | .read => (s.store.wait 15).routerRead (s.dec.addr ||| BitVec.zeroExtend 16 v)
        | .write => 0)
      store := s.store.wait 16
      dec := { s.dec with addr := s.dec.addr ||| BitVec.zeroExtend 16 v, st := .aData }
      received := s.received ++ [s.smp.shout] } := by
  rw [State.xfer_a v hm hb hr]
  unfold State.byteA
  simp only [hd]
  rw [Store.wait_succ s.store 15]
  generalize s.store.wait 15 = w
  unfold State.addrLoA
  cases hdir : s.dec.dir <;> simp only [hdir] <;> rfl

/-- In `A_DATA` (R157). -/
theorem State.xfer_dataA (hd : s.dec.st = .aData) : s.xfer v =
    { s with
      smp := s.smp.after v 0
      store := (match s.dec.dir with
        | .read => s.store.wait 15
        | .write => (s.store.wait 15).routerWrite s.dec.addr v).endTick
      dec := { s.dec with st := .aWait }
      received := s.received ++ [s.smp.shout] } := by
  rw [State.xfer_a v hm hb hr]
  unfold State.byteA
  simp only [hd]
  generalize s.store.wait 15 = w
  unfold State.dataA
  cases hdir : s.dec.dir <;> simp only [hdir] <;> rfl

end

/-- `DESEL` under Model A (R131, R151). -/
theorem State.desel_a {s : State} (hm : s.store.cfg.model = .a) (hr : s.smp.ready = false) :
    s.desel = { s with
      smp := s.smp.deselected, store := s.store.endTick
      dec := { s.dec with st := .aWait, addr := 0, cmd := 0, dir := .read } } := by
  unfold State.desel
  rw [State.drive_deselect_a _ rfl hm, ← hr]
  rfl

/-! ### Model B -/

section
variable {s : State} (v : Byte) (hm : s.store.cfg.model = .b) (hb : s.smp.bitcnt = 0) (hr : s.smp.ready = false)
include hm hb hr

theorem State.xfer_b : s.xfer v =
    let t := State.byteB { s with smp := s.smp.full v, store := s.store.wait 15 }
    { t with store := t.store.endTick, received := s.received ++ [s.smp.shout] } := by
  rw [State.xfer_spec s v hb hr]
  unfold State.decoderStep State.decoderStepB Sampler.isDataReady
  simp only [Store.wait_cfg, hm]
  rfl

/-- In `B_WAIT` (R173). -/
theorem State.xfer_addrHiB (hd : s.dec.st = .bWait) : s.xfer v =
    { s with
      smp := s.smp.after v 0
      store := s.store.wait 16
      dec := { s.dec with addr := addrOf v 0, st := .bAddrLo }
      received := s.received ++ [s.smp.shout] } := by
  rw [State.xfer_b v hm hb hr]
  unfold State.byteB
  simp only [hd]
  rw [Store.wait_succ s.store 15]
  generalize s.store.wait 15 = w
  rfl

/-- In `B_ADDR_LO` (R174). -/
theorem State.xfer_addrLoB (hd : s.dec.st = .bAddrLo) : s.xfer v =
    { s with
      smp := s.smp.after v 0
      store := s.store.wait 16
      dec := { s.dec with addr := s.dec.addr ||| BitVec.zeroExtend 16 v, st := .bCmd }
      received := s.received ++ [s.smp.shout] } := by
  rw [State.xfer_b v hm hb hr]
  unfold State.byteB
  simp only [hd]
  rw [Store.wait_succ s.store 15]
  generalize s.store.wait 15 = w
  rfl

/-- In `B_CMD` (R175). -/
theorem State.xfer_controlB (hd : s.dec.st = .bCmd) : s.xfer v =
    { s with
      smp := s.smp.after v (if ctlWrite v then 0 else (s.store.wait 15).regionRead (ctlBsb v) s.dec.addr 0)
      store := s.store.wait 16
      dec := { s.dec with cmd := v, dir := if ctlWrite v then .write else .read, count := 0, st := .bData }
      received := s.received ++ [s.smp.shout] } := by
  rw [State.xfer_b v hm hb hr]
  unfold State.byteB
  simp only [hd]
  rw [Store.wait_succ s.store 15]
  generalize s.store.wait 15 = w
  unfold State.controlB
  simp only [Sampler.getByte, Sampler.consumed, Sampler.full]
  rcases Bool.eq_false_or_eq_true (ctlWrite v) with hw | hw <;>
    simp only [hw, if_true, Bool.false_eq_true, if_false, Sampler.after, Sampler.setOutputByte]

/-- In `B_DATA` of a read (R176). -/
theorem State.xfer_readB (hd : s.dec.st = .bData) (hdir : s.dec.dir = .read) : s.xfer v =
    { s with
      smp := s.smp.after v ((s.store.wait 15).regionRead (ctlBsb s.dec.cmd) s.dec.addr (s.dec.count + 1))
      store := s.store.wait 16
      dec := { s.dec with count := s.dec.count + 1 }
      received := s.received ++ [s.smp.shout] } := by
  rw [State.xfer_b v hm hb hr]
  unfold State.byteB
  simp only [hd, hdir]
  unfold State.prefetchB
  rw [Store.wait_succ s.store 15]
  generalize s.store.wait 15 = w
  simp only [Sampler.full, Sampler.consumed, Sampler.setOutputByte, Sampler.after, hd, hdir]

/-- In `B_DATA` of a write (R177). -/
theorem State.xfer_stageB (hd : s.dec.st = .bData) (hdir : s.dec.dir = .write) : s.xfer v =
    { s with
      smp := s.smp.after v 0
      store := s.store.wait 16
      dec := if s.dec.count.toNat < s.store.cfg.stageCap then
          { s.dec with
            stage := Memory.write stageResetByte s.dec.stage s.dec.count.toNat v, count := s.dec.count + 1 }
        else s.dec
      received := s.received ++ [s.smp.shout] } := by
  rw [State.xfer_b v hm hb hr]
  unfold State.byteB
  simp only [hd, hdir]
  unfold State.stageB
  simp only [Store.wait_cfg]
  rw [Store.wait_succ s.store 15]
  generalize s.store.wait 15 = w
  split <;> simp only [hd, hdir, Sampler.full, Sampler.consumed, Sampler.getByte, Sampler.after]

end

/-- `DESEL` under Model B (R131, R171). -/
theorem State.desel_b {s : State} (hm : s.store.cfg.model = .b) (hr : s.smp.ready = false) :
    s.desel = { s with
      smp := s.smp.deselected, store := s.commitB.endTick
      dec := { s.dec with st := .bWait, addr := 0, cmd := 0, dir := .read, count := 0 } } := by
  unfold State.desel
  rw [State.drive_deselect_b _ rfl hm, ← hr]
  rfl

/-! ### Operand assembly -/

theorem addrOf_or (hi lo : Byte) : addrOf hi 0 ||| BitVec.zeroExtend 16 lo = addrOf hi lo := by
  apply BitVec.eq_of_getLsbD_eq
  intro i h16
  have h₁ : (addrOf hi 0).getLsbD i = if i < 8 then (0 : Byte).getLsbD i else hi.getLsbD (i - 8) := by
    have := BitVec.getLsbD_append (x := hi) (y := (0 : Byte)) (i := i)
    exact this
  have h₂ : (addrOf hi lo).getLsbD i = if i < 8 then lo.getLsbD i else hi.getLsbD (i - 8) := by
    have := BitVec.getLsbD_append (x := hi) (y := lo) (i := i)
    exact this
  rw [BitVec.getLsbD_or, h₁, h₂]
  by_cases h : i < 8
  · simp [h, h16]
  · simp [h, BitVec.getLsbD_of_ge lo i (by omega)]

theorem addrOf_hi_lo (a : Half) : addrOf (hiByte a) (loByte a) = a := half_split a

/-- The two address bytes give the address back (R107). -/
theorem addrOf_bytes (a : Half) : addrOf (hiByte a) 0 ||| BitVec.zeroExtend 16 (loByte a) = a := by
  rw [addrOf_or, addrOf_hi_lo]

theorem ctlBsb_ctlByte : ∀ (bsb : BitVec 5) (w : Bool) (mm : BitVec 2), ctlBsb (ctlByte bsb w mm) = bsb := by
  decide +kernel

theorem ctlWrite_ctlByte : ∀ (bsb : BitVec 5) (w : Bool) (mm : BitVec 2), ctlWrite (ctlByte bsb w mm) = w := by
  decide +kernel

theorem ctlMm_ctlByte : ∀ (bsb : BitVec 5) (w : Bool) (mm : BitVec 2), ctlMm (ctlByte bsb w mm) = mm := by
  decide +kernel

theorem ctlByte_fields : ∀ b : Byte, ctlByte (ctlBsb b) (ctlWrite b) (ctlMm b) = b := by
  decide +kernel

end Sys2Proof.Machine
end

