-- ==== Sys2Proof/Laws/Commands.lean ====
section
/-! SUPPORT. What the operations the socket commands share can do: closing (R251), the drain of a SEND (R249), a loopback
delivery after it (R317), and the decoded command against the dispatch (R240). And two facts about whole
transactions: the parameters stay, an address is its two bytes. -/

namespace Sys2Proof.Machine

/-- R251: what a socket is after its resources are released and its state is `CLOSED`. -/
theorem Store.closed_spec (st : Store) (n : Fin 4) :
    let t := (st.release n).setState n .closed
    t.state n = .closed ∧ t.resOut n = false ∧ t.resAcc n = false ∧ t.widx n = st.widx n ∧
      t.events = st.events ++ (if st.resAcc n = true ∨ st.resOut n = true then [.close n] else []) := by
  intro t
  simp only [t, Store.release]
  by_cases h : st.resAcc n = true ∨ st.resOut n = true
  · have : (st.resAcc n || st.resOut n) = true := by simpa using h
    simp [this, h]
  · have : (st.resAcc n || st.resOut n) = false := by simpa using h
    simp [this, h]

/-- R249: a drain leaves the sockets' hidden state, the events and IR as they are. -/
theorem Store.drainTx_sock (st : Store) (n : Fin 4) :
    (st.drainTx n).sock = st.sock ∧ (st.drainTx n).events = st.events ∧ (st.drainTx n).ir n = st.ir n := by
  have h := (st.local_drainTx n).reg (m := n) (c := 0x02) (by unfold drainCells; rw [bankCells_iff]; simp)
  refine ⟨by simp [Store.drainTx, Store.updateFsr], by simp [Store.drainTx, Store.updateFsr], h⟩

/-- R249: what a SEND still reads after its drain is as before it. -/
theorem Store.drainTx_keeps (st : Store) (n : Fin 4) :
    (st.drainTx n).dport n = st.dport n ∧ (st.drainTx n).dipr n = st.dipr n ∧ (st.drainTx n).rxRsr n = st.rxRsr n ∧
      (st.drainTx n).widx n = st.widx n ∧ (st.drainTx n).cfg = st.cfg ∧ (st.drainTx n).env = st.env := by
  have h := st.local_drainTx n
  have k : ∀ c : Byte, c.toNat < 0x20 ∨ 0x23 < c.toNat → ¬ drainCells n (bankAddr n c) := by
    intro c hc; unfold drainCells; rw [bankCells_iff]; simp; omega
  refine ⟨h.get16 (k _ (by decide)) (k _ (by decide)), ?_, h.get16 (k _ (by decide)) (k _ (by decide)), ?_, h.cfg, h.env⟩
  · unfold Store.dipr
    rw [h.reg (k _ (by decide)), h.reg (k _ (by decide)), h.reg (k _ (by decide)), h.reg (k _ (by decide))]
  · unfold Store.widx; rw [(st.drainTx_sock n).1]

/-- R246, R317: a drain, a delivery that fits and the SEND_OK flag, in this order. -/
theorem Store.drain_deliver_spec (st : Store) (n : Fin 4) (bytes : List Byte) (hb : bytes.length ≤ st.rxRoom n) :
    let t := ((st.drainTx n).rxDeliver n bytes).flagSendOk n
    (∀ i : Nat, i < bytes.length → some (t.rx n (BitVec.ofNat 11 ((st.widx n).toNat + i))) = bytes[i]?) ∧
      t.widx n = st.widx n + BitVec.ofNat 11 bytes.length ∧ t.rxRsr n = st.rxRsr n + BitVec.ofNat 16 bytes.length ∧
      (t.txRd n).toNat = (st.txWr n).toNat % 2048 ∧ t.txFsr n = 0x0800 ∧
      t.ir n = st.ir n ||| 0x14 ∧ t.state n = st.state n ∧ t.events = st.events ∧ st.OthersKept t n ∧
      st.CellsKept t (fun a => a = bankAddr n 0x02 ∨ (bankAddr n 0x20 ≤ a ∧ a ≤ bankAddr n 0x23) ∨
        (bankAddr n 0x26 ≤ a ∧ a ≤ bankAddr n 0x27) ∨
        ∃ i : Nat, i < bytes.length ∧ a = rxAddr n (BitVec.ofNat 11 ((st.widx n).toNat + i))) := by
  intro t
  obtain ⟨d1, d2, d3⟩ := st.drainTx_sock n
  obtain ⟨k1, k2, k3, k4, k5, k6⟩ := st.drainTx_keeps n
  have hroom : bytes.length ≤ (st.drainTx n).rxRoom n := by unfold Store.rxRoom at hb ⊢; rw [k3]; exact hb
  obtain ⟨r1, r2, r3, r4, r5, r6, r7, r8⟩ := (st.drainTx n).rxDeliver_spec n bytes hroom
  have hld := (st.drainTx n).local_rxDeliver n bytes
  rw [k4] at r1 r2 hld
  rw [k3] at r3
  have nd : ∀ c : Byte, c = 0x22 ∨ c = 0x23 ∨ c = 0x20 ∨ c = 0x21 → ¬ deliveryCells n (st.widx n).toNat bytes.length (bankAddr n c) := by
    rintro c hc (h | h | h)
    · have := (bankAddr_inj.1 h).2; rcases hc with rfl | rfl | rfl | rfl <;> cases this
    · have := (bankCells_iff.1 h).2.1; rcases hc with rfl | rfl | rfl | rfl <;> simp at this
    · exact not_rxCells_bank h
  have hl : Store.Local n (fun a => a = bankAddr n 0x02 ∨ (bankAddr n 0x20 ≤ a ∧ a ≤ bankAddr n 0x23) ∨
        (bankAddr n 0x26 ≤ a ∧ a ≤ bankAddr n 0x27) ∨
        ∃ i : Nat, i < bytes.length ∧ a = rxAddr n (BitVec.ofNat 11 ((st.widx n).toNat + i))) st t := by
    refine (((st.local_drainTx n).mono fun a h => Or.inr (Or.inl h)).trans (hld.mono ?_)).trans ((Store.local_flagSendOk _ n).mono fun a h => Or.inl h)
    rintro a (h | h | h)
    · exact Or.inl h
    · exact Or.inr (Or.inr (Or.inl h))
    · exact Or.inr (Or.inr (Or.inr h))
  refine ⟨?_, ?_, ?_, ?_, ?_, ?_, ?_, ?_, hl.othersKept, hl.cells⟩
  · intro i hi; rw [← r1 i hi]; simp only [t, Store.flagSendOk, Store.rx_setReg]
  · simp only [t, Store.flagSendOk, Store.setReg_widx]; rw [r2]; simp [BitVec.ofNat_add]
  · simp only [t, Store.flagSendOk, Store.rxRsr]; rw [Store.get16_setReg_cell _ _ _ _ _ _ (by decide) (by decide)]
    show Store.rxRsr _ n = _; rw [r3]; simp [BitVec.ofNat_add]; rfl
  · rw [← Store.drainTx_txRd]; simp only [t, Store.flagSendOk, Store.txRd]; rw [Store.get16_setReg_cell _ _ _ _ _ _ (by decide) (by decide)]
    rw [hld.get16 (nd _ (by decide)) (nd _ (by decide))]
  · rw [← Store.drainTx_txFsr st n]; simp only [t, Store.flagSendOk, Store.txFsr]; rw [Store.get16_setReg_cell _ _ _ _ _ _ (by decide) (by decide)]
    rw [hld.get16 (nd _ (by decide)) (nd _ (by decide))]
  · have : t.ir n = ((st.drainTx n).rxDeliver n bytes).ir n ||| 0x10 := Store.reg_setReg_same _ _ _ _
    rw [this, r4, d3, BitVec.or_assoc]; rfl
  · simp only [t, Store.flagSendOk, Store.setReg_state]; rw [r5]; unfold Store.state; rw [d1]
  · simp only [t, Store.flagSendOk, Store.setReg_events]; rw [r8, d2]

/-- R109, R240: the command a CR byte decodes to has the meaning `Dispatch` gives the byte. -/
theorem exec_decodeCommand (s : State) (n : Fin 4) (v : Byte) :
    exec (decodeCommand s.store.cfg n v) s = .next { s with store := s.store.dispatch n v } := by
  unfold decodeCommand Store.dispatch
  by_cases h1 : v = s.store.cfg.codeOpen
  · rw [if_pos h1, if_pos h1]; rfl
  rw [if_neg h1, if_neg h1]
  by_cases h1 : v = s.store.cfg.codeListen
  · rw [if_pos h1, if_pos h1]; rfl
  rw [if_neg h1, if_neg h1]
  by_cases h1 : v = s.store.cfg.codeConnect
  · rw [if_pos h1, if_pos h1]; rfl
  rw [if_neg h1, if_neg h1]
  by_cases h1 : v = s.store.cfg.codeDiscon
  · rw [if_pos h1, if_pos h1]; rfl
  rw [if_neg h1, if_neg h1]
  by_cases h1 : v = s.store.cfg.codeClose
  · rw [if_pos h1, if_pos h1]; rfl
  rw [if_neg h1, if_neg h1]
  by_cases h1 : v = s.store.cfg.codeSend
  · rw [if_pos h1, if_pos h1]; rfl
  rw [if_neg h1, if_neg h1]
  by_cases h1 : v = s.store.cfg.codeRecv
  · rw [if_pos h1, if_pos h1]; rfl
  rw [if_neg h1, if_neg h1]; rfl

/-- R289: what the poll of socket `n` leaves of another socket. -/
theorem Store.poll_other {st : Store} {n m : Fin 4} (h : m ≠ n) :
    (st.poll n).ir m = st.ir m ∧ (st.poll n).state m = st.state m ∧ (st.poll n).rxRsr m = st.rxRsr m ∧
      (st.poll n).net m = st.net m := by
  have hl := st.local_poll n
  have hc : ∀ c, ¬ ownAddr n (bankAddr m c) := fun c ho => h (ownAddr_inj (Or.inl ⟨c, rfl⟩) ho)
  exact ⟨hl.reg (hc _), hl.state_other h, hl.get16 (hc _) (hc _), hl.net m⟩

/-! ### Whole transactions -/

theorem State.clockBits_cfg (s : State) (r : Byte) (ds : List Bool) :
    (s.clockBits r ds).1.store.cfg = s.store.cfg := by
  induction ds generalizing s r with
  | nil => rfl
  | cons d ds ih => simp only [State.clockBits]; rw [ih]; simp only [State.clockBit, State.drive_cfg]

theorem State.xfer_cfg (s : State) (b : Byte) : (s.xfer b).store.cfg = s.store.cfg :=
  s.clockBits_cfg 0 (bitsMsb b)

theorem State.xfers_cfg (s : State) (bs : List Byte) : (s.xfers bs).store.cfg = s.store.cfg := by
  unfold State.xfers
  induction bs generalizing s with
  | nil => rfl
  | cons b bs ih => rw [List.foldl_cons, ih, State.xfer_cfg]

/-- R322: a transaction leaves the parameters as they are. -/
theorem State.runFrame_cfg (s : State) (bs : List Byte) : (s.runFrame bs).store.cfg = s.store.cfg := by
  unfold State.runFrame State.desel
  rw [State.drive_cfg, State.xfers_cfg]
  exact State.drive_cfg _ _

/-- R107: the two bytes of an assembled address are those it was assembled from. -/
theorem hiByte_loByte_addrOf (hi lo : Byte) : hiByte (addrOf hi lo) = hi ∧ loByte (addrOf hi lo) = lo := by
  constructor
  · apply BitVec.eq_of_getLsbD_eq
    intro i h
    have := BitVec.getLsbD_append (x := hi) (y := lo) (i := 8 + i)
    unfold hiByte
    rw [BitVec.getLsbD_extractLsb']
    show (decide (i < 8) && (hi ++ lo).getLsbD (8 + i)) = _
    rw [this]; simp [h]
  · apply BitVec.eq_of_getLsbD_eq
    intro i h
    have := BitVec.getLsbD_append (x := hi) (y := lo) (i := i)
    unfold loByte
    rw [BitVec.getLsbD_extractLsb']
    show (decide (i < 8) && (hi ++ lo).getLsbD (0 + i)) = _
    rw [Nat.zero_add, this]; simp [h]

end Sys2Proof.Machine
end

