-- ==== Sys2Proof/Laws/Independence.lean ====
section
/-! SUPPORT. Two stores that agree on one socket, and the operations that keep them in agreement (R289). -/

namespace Sys2Proof.Machine

/-- The two stores hold the same socket `n`, parameters, NetEnv record and wall clock. -/
structure Store.Agree (n : Fin 4) (st su : Store) : Prop where
  cfg : st.cfg = su.cfg
  net : st.net n = su.net n
  now : st.env.nowUnix = su.env.nowUnix
  sock : st.sock[n] = su.sock[n]
  cells : ∀ a : Nat, ownAddr n a → st.peek a = su.peek a

namespace Store.Agree

variable {n : Fin 4} {st su : Store} (h : Store.Agree n st su)
include h

theorem reg (c : Byte) : st.reg n c = su.reg n c := h.cells _ (Or.inl ⟨c, rfl⟩)

theorem get16 (c : Byte) : st.get16 n c = su.get16 n c := by
  simp only [Store.get16, h.cfg, h.reg]

theorem tx (i : BitVec 11) : st.tx n i = su.tx n i := h.cells _ (Or.inr (Or.inl ⟨i, rfl⟩))

theorem state : st.state n = su.state n := by unfold Store.state; rw [h.sock]
theorem widx : st.widx n = su.widx n := by unfold Store.widx; rw [h.sock]
theorem resOut : st.resOut n = su.resOut n := by unfold Store.resOut; rw [h.sock]
theorem resAcc : st.resAcc n = su.resAcc n := by unfold Store.resAcc; rw [h.sock]
theorem rxRoom : st.rxRoom n = su.rxRoom n := by unfold Store.rxRoom Store.rxRsr; rw [h.get16]
theorem dipr : st.dipr n = su.dipr n := by unfold Store.dipr; simp only [h.reg]

theorem poke (a : Nat) (v : Byte) : Store.Agree n (st.poke a v) (su.poke a v) :=
  ⟨h.cfg, h.net, h.now, h.sock, fun b hb => by rw [Store.peek_poke, Store.peek_poke, h.cells b hb]⟩

theorem setReg (c v : Byte) : Store.Agree n (st.setReg n c v) (su.setReg n c v) := h.poke _ v

theorem set16 (c : Byte) (w : Half) : Store.Agree n (st.set16 n c w) (su.set16 n c w) := by
  unfold Store.set16
  rw [h.cfg]
  cases su.cfg.order
  · exact (h.setReg _ _).setReg _ _
  · exact (h.setReg _ _).setReg _ _

theorem setSock (k : Socket) : Store.Agree n (st.setSock n k) (su.setSock n k) :=
  ⟨h.cfg, h.net, h.now, by rw [Store.setSock_sock, Store.setSock_sock, if_pos rfl, if_pos rfl], h.cells⟩

theorem setState (x : SockState) : Store.Agree n (st.setState n x) (su.setState n x) := by
  unfold Store.setState; rw [h.sock]; exact h.setSock _
theorem setWidx (x : BitVec 11) : Store.Agree n (st.setWidx n x) (su.setWidx n x) := by
  unfold Store.setWidx; rw [h.sock]; exact h.setSock _
theorem setResOut (x : Bool) : Store.Agree n (st.setResOut n x) (su.setResOut n x) := by
  unfold Store.setResOut; rw [h.sock]; exact h.setSock _
theorem setResAcc (x : Bool) : Store.Agree n (st.setResAcc n x) (su.setResAcc n x) := by
  unfold Store.setResAcc; rw [h.sock]; exact h.setSock _

theorem emit (e f : NetEvent) : Store.Agree n (st.emit e) (su.emit f) := ⟨h.cfg, h.net, h.now, h.sock, h.cells⟩

theorem updateFsr : Store.Agree n (st.updateFsr n) (su.updateFsr n) := by
  unfold Store.updateFsr Store.txWr Store.txRd
  rw [h.get16, h.get16]
  exact h.set16 _ _

theorem flagRecv : Store.Agree n (st.flagRecv n) (su.flagRecv n) := by
  unfold Store.flagRecv Store.ir; rw [h.reg]; exact h.setReg _ _

theorem flagSendOk : Store.Agree n (st.flagSendOk n) (su.flagSendOk n) := by
  unfold Store.flagSendOk Store.ir; rw [h.reg]; exact h.setReg _ _

theorem setDipr (ip : Ip) : Store.Agree n (st.setDipr n ip) (su.setDipr n ip) :=
  (((h.setReg _ _).setReg _ _).setReg _ _).setReg _ _

omit h in
theorem storeRx (bytes : List Byte) : ∀ {st su : Store} (off : Nat), Store.Agree n st su →
    Store.Agree n (st.storeRx n off bytes) (su.storeRx n off bytes) := by
  induction bytes with
  | nil => exact fun _ h => h
  | cons b bs ih => exact fun off h => ih (off + 1) (h.poke _ b)

theorem rxDeliver (bytes : List Byte) : Store.Agree n (st.rxDeliver n bytes) (su.rxDeliver n bytes) := by
  have h₁ := storeRx bytes (st.widx n).toNat h
  rw [show su.rxDeliver n bytes =
    (let st1 := su.storeRx n (st.widx n).toNat bytes
     let st2 := st1.setWidx n (BitVec.ofNat 11 ((st1.widx n).toNat + bytes.length))
     let st3 := st2.set16 n 0x26 (BitVec.ofNat 16 ((st2.rxRsr n).toNat + bytes.length))
     st3.flagRecv n) by rw [h.widx]; rfl]
  unfold Store.rxDeliver
  simp only
  rw [h₁.widx]
  have h₂ := h₁.setWidx (BitVec.ofNat 11 (((su.storeRx n (st.widx n).toNat bytes).widx n).toNat + bytes.length))
  rw [show ∀ x : Store, x.rxRsr n = x.get16 n 0x26 from fun _ => rfl,
    show ∀ x : Store, x.rxRsr n = x.get16 n 0x26 from fun _ => rfl, h₂.get16]
  exact (h₂.set16 _ _).flagRecv

theorem release : Store.Agree n (st.release n) (su.release n) := by
  unfold Store.release
  rw [h.resAcc, h.resOut]
  split
  · exact ((h.emit _ _).setResAcc _).setResOut _
  · exact (h.setResAcc _).setResOut _

/-- A poll keeps two stores in agreement on its socket. -/
theorem poll : Store.Agree n (st.poll n) (su.poll n) := by
  unfold Store.poll Store.pollAccept Store.pollDisconnect Store.pollStream Store.pollDatagram
  simp only
  rw [h.state, h.net, h.rxRoom]
  split
  · split
    · exact h
    · exact ((((h.emit _ _).setResAcc _).setDipr _).set16 _ _).setState _
  · split
    · exact h.release.setState _
    · split
      · exact (h.emit _ _).rxDeliver _
      · exact h
  · split
    · exact h
    · split
      · exact (h.emit _ _).rxDeliver _
      · exact h
  · exact h
  · exact h

theorem drainTx : Store.Agree n (st.drainTx n) (su.drainTx n) := by
  unfold Store.drainTx Store.txQueued Store.txWr Store.txRd
  rw [h.get16, h.get16]
  exact (h.set16 _ _).updateFsr

theorem txBytes (off len : Nat) : st.txBytes n off len = su.txBytes n off len := by
  induction len generalizing off with
  | zero => rfl
  | succ len ih => unfold Store.txBytes; rw [h.tx, ih]

theorem drainData : st.drainData n = su.drainData n := by
  unfold Store.drainData Store.txQueued Store.txWr Store.txRd
  rw [h.get16, h.get16, h.txBytes]

theorem deliver (bytes : List Byte) : Store.Agree n (st.deliver n bytes) (su.deliver n bytes) := by
  unfold Store.deliver
  rw [h.rxRoom]
  split
  · exact h.rxDeliver _
  · exact h

theorem sendUdp (data : List Byte) : Store.Agree n (st.sendUdp n data) (su.sendUdp n data) := by
  unfold Store.sendUdp Store.loopbackDhcp Store.loopbackNtp Store.dport
  simp only
  rw [h.get16, h.cfg, h.now]
  split
  · exact h.deliver _
  · split
    · split
      · exact h.deliver _
      · exact h
    · exact h.emit _ _

theorem resetRings : Store.Agree n (st.resetRings n) (su.resetRings n) :=
  (((((h.set16 _ _).set16 _ _).set16 _ _).set16 _ _).set16 _ _).setWidx _

theorem opened (x : SockState) : Store.Agree n (st.opened n x) (su.opened n x) :=
  (h.resetRings.setResOut _).setState _

theorem openTcp : Store.Agree n (st.openTcp n) (su.openTcp n) := by
  unfold Store.openTcp
  simp only
  rw [(h.emit (.openTcp n) (.openTcp n)).net]
  split
  · exact (h.emit _ _).opened _
  · exact h.emit _ _

theorem openUdp : Store.Agree n (st.openUdp n) (su.openUdp n) := by
  unfold Store.openUdp
  simp only
  rw [(h.emit (.openUdp n (st.port n) (st.multi n)) (.openUdp n (su.port n) (su.multi n))).net]
  split
  · exact (h.emit _ _).opened _
  · exact h.emit _ _

theorem openRule : Store.Agree n (st.openRule n) (su.openRule n) := by
  unfold Store.openRule Store.proto Store.mr
  rw [h.state, h.reg]
  split
  · split
    · exact h.openTcp
    · split
      · exact h.openUdp
      · exact h
  · exact h

theorem listenRule : Store.Agree n (st.listenRule n) (su.listenRule n) := by
  unfold Store.listenRule
  simp only
  rw [h.state, (h.emit (.listen n (st.port n)) (.listen n (su.port n))).net]
  split
  · split
    · exact (h.emit _ _).setState _
    · exact h.emit _ _
  · exact h

theorem connectRule : Store.Agree n (st.connectRule n) (su.connectRule n) := by
  unfold Store.connectRule
  simp only
  rw [h.state, (h.emit (.connect n (st.dipr n) (st.dport n)) (.connect n (su.dipr n) (su.dport n))).net]
  split
  · split
    · exact (h.emit _ _).setState _
    · exact h.emit _ _
  · exact h

theorem sendRule : Store.Agree n (st.sendRule n) (su.sendRule n) := by
  unfold Store.sendRule Store.sendTcpRule Store.sendUdpRule
  rw [h.state, h.drainData]
  split
  · exact (h.drainTx.emit _ _).flagSendOk
  · exact (h.drainTx.sendUdp _).flagSendOk
  all_goals exact h

theorem recvRule : Store.Agree n (st.recvRule n) (su.recvRule n) := by
  unfold Store.recvRule Store.rxRd
  rw [h.state, h.widx, h.get16]
  split
  · exact h.set16 _ _
  · exact h

/-- A command keeps two stores in agreement on its socket. -/
theorem dispatch (v : Byte) : Store.Agree n (st.dispatch n v) (su.dispatch n v) := by
  unfold Store.dispatch Store.disconRule Store.closeRule Store.nopRule
  rw [h.cfg, h.state]
  split
  · exact h.openRule
  split
  · exact h.listenRule
  split
  · exact h.connectRule
  split
  · split
    · exact h.release.setState _
    · exact h
  split
  · split
    · exact h
    · exact h.release.setState _
  split
  · exact h.sendRule
  split
  · exact h.recvRule
  · exact h

end Store.Agree

end Sys2Proof.Machine
end

