-- ==== Sys2Proof/Laws/Invariant.lean ====
section
/-! SUPPORT. What each shared operation does to the socket invariant of R41 (`Store.SockOk`), operation by operation. -/

namespace Sys2Proof.Machine

/-- `SockOk` without the clause on CR, which a command breaks until the router clears the cell (R207). -/
abbrev Store.SockCore (st : Store) (n : Fin 4) : Prop :=
  st.FsrOk n ∧ (st.txRd n).toNat < 2048 ∧ (st.rxRsr n).toNat < 2048 ∧ st.ir n &&& 0xEB = 0x00 ∧
  (st.resOut n = true ↔ st.state n ≠ .closed) ∧ (st.resAcc n = true → st.state n = .established)

theorem Store.sockOk_iff (st : Store) (n : Fin 4) : st.SockOk n ↔ st.SockCore n ∧ st.reg n 0x01 = 0x00 := by
  unfold Store.SockOk Store.SockCore
  tauto

/-- The cells the invariant reads, CR apart. -/
abbrev watchedCell (c : Byte) : Prop :=
  c = 0x02 ∨ c = 0x20 ∨ c = 0x21 ∨ c = 0x22 ∨ c = 0x23 ∨ c = 0x24 ∨ c = 0x25 ∨ c = 0x26 ∨ c = 0x27

theorem Store.sockCore_congr {st t : Store} {n : Fin 4} (hcfg : t.cfg = st.cfg) (hs : t.sock[n] = st.sock[n])
    (hr : ∀ c : Byte, watchedCell c → t.reg n c = st.reg n c) (h : st.SockCore n) : t.SockCore n := by
  have g : ∀ c : Byte, watchedCell c → watchedCell (c + 1) → t.get16 n c = st.get16 n c := by
    intro c h₁ h₂
    simp only [Store.get16, hcfg, hr c h₁, hr (c + 1) h₂]
  have e₁ : t.txFsr n = st.txFsr n := g 0x20 (by decide) (by decide)
  have e₂ : t.txRd n = st.txRd n := g 0x22 (by decide) (by decide)
  have e₃ : t.txWr n = st.txWr n := g 0x24 (by decide) (by decide)
  have e₄ : t.rxRsr n = st.rxRsr n := g 0x26 (by decide) (by decide)
  have e₅ : t.ir n = st.ir n := hr 0x02 (by decide)
  unfold Store.SockCore Store.FsrOk Store.state Store.resOut Store.resAcc
  rw [e₁, e₂, e₃, e₄, e₅, hs]
  exact h

/-- An operation of socket `n` keeps the invariant of every other socket. -/
theorem Store.Local.sockOk_other {n m : Fin 4} {st t : Store} (hl : Store.Local n (ownAddr n) st t) (hm : m ≠ n)
    (h : st.SockOk m) : t.SockOk m := by
  have hc : ∀ c : Byte, t.reg m c = st.reg m c := fun c =>
    hl.reg fun ho => hm (ownAddr_inj (Or.inl ⟨c, rfl⟩) ho)
  rw [Store.sockOk_iff] at h ⊢
  exact ⟨Store.sockCore_congr hl.cfg (hl.others m hm) (fun c _ => hc c) h.1, (hc 0x01).trans h.2⟩

section
variable {st : Store} {n : Fin 4}

theorem Store.sockCore_setReg {c : Byte} (v : Byte) (hc : ¬ watchedCell c) (h : st.SockCore n) :
    (st.setReg n c v).SockCore n :=
  Store.sockCore_congr (st := st) (t := st.setReg n c v) rfl rfl
    (fun d hd => Store.reg_setReg_cell _ _ _ _ _ _ (by rintro rfl; exact hc hd)) h

theorem Store.sockCore_emit (e : NetEvent) (h : st.SockCore n) : (st.emit e).SockCore n := h

theorem Store.sockCore_setWidx (x : BitVec 11) (h : st.SockCore n) : (st.setWidx n x).SockCore n := by
  simpa [Store.SockCore, Store.FsrOk, Store.txFsr, Store.txRd, Store.txWr, Store.rxRsr, Store.ir] using h

/-- A new value of IR with the reserved bits clear. -/
theorem Store.sockCore_setIr (v : Byte) (hv : v &&& 0xEB = 0x00) (h : st.SockCore n) :
    (st.setReg n 0x02 v).SockCore n := by
  have g : ∀ c : Byte, c ≠ 0x02 → c + 1 ≠ 0x02 → (st.setReg n 0x02 v).get16 n c = st.get16 n c :=
    fun c h₁ h₂ => Store.get16_setReg_cell _ _ _ _ _ _ h₁ h₂
  have e₁ : (st.setReg n 0x02 v).txFsr n = st.txFsr n := g 0x20 (by decide) (by decide)
  have e₂ : (st.setReg n 0x02 v).txRd n = st.txRd n := g 0x22 (by decide) (by decide)
  have e₃ : (st.setReg n 0x02 v).txWr n = st.txWr n := g 0x24 (by decide) (by decide)
  have e₄ : (st.setReg n 0x02 v).rxRsr n = st.rxRsr n := g 0x26 (by decide) (by decide)
  have e₅ : (st.setReg n 0x02 v).ir n = v := Store.reg_setReg_same _ _ _ _
  unfold Store.SockCore Store.FsrOk
  rw [e₁, e₂, e₃, e₄, e₅]
  exact ⟨h.1, h.2.1, h.2.2.1, hv, h.2.2.2.2⟩

theorem ir_or_recv : ∀ x : Byte, x &&& 0xEB = 0x00 → (x ||| 0x04) &&& 0xEB = 0x00 := by decide +kernel
theorem ir_or_sendOk : ∀ x : Byte, x &&& 0xEB = 0x00 → (x ||| 0x10) &&& 0xEB = 0x00 := by decide +kernel
theorem ir_clear (x v : Byte) (h : x &&& 0xEB = 0x00) : (x &&& ~~~v) &&& 0xEB = 0x00 := by
  rw [BitVec.and_assoc, BitVec.and_comm (~~~v), ← BitVec.and_assoc, h]
  exact BitVec.zero_and

theorem Store.sockCore_flagRecv (h : st.SockCore n) : (st.flagRecv n).SockCore n :=
  Store.sockCore_setIr _ (ir_or_recv _ h.2.2.2.1) h
theorem Store.sockCore_flagSendOk (h : st.SockCore n) : (st.flagSendOk n).SockCore n :=
  Store.sockCore_setIr _ (ir_or_sendOk _ h.2.2.2.1) h
theorem Store.sockCore_clearIr (v : Byte) (h : st.SockCore n) : (st.clearIr n v).SockCore n :=
  Store.sockCore_setIr _ (ir_clear _ v h.2.2.2.1) h

/-- A recomputed TX_FSR: the equation holds whatever TX_WR was. -/
theorem Store.sockCore_updateFsr (h₁ : (st.txRd n).toNat < 2048) (h₂ : (st.rxRsr n).toNat < 2048)
    (h₃ : st.ir n &&& 0xEB = 0x00) (h₄ : st.resOut n = true ↔ st.state n ≠ .closed)
    (h₅ : st.resAcc n = true → st.state n = .established) : (st.updateFsr n).SockCore n := by
  have e₂ : (st.updateFsr n).txRd n = st.txRd n :=
    Store.get16_set16_cell _ _ _ _ _ _ (by decide) (by decide) (by decide)
  have e₄ : (st.updateFsr n).rxRsr n = st.rxRsr n :=
    Store.get16_set16_cell _ _ _ _ _ _ (by decide) (by decide) (by decide)
  have e₅ : (st.updateFsr n).ir n = st.ir n := Store.reg_set16_cell _ _ _ _ _ _ (by decide) (by decide)
  refine ⟨Store.updateFsr_fsrOk st n, by rw [e₂]; exact h₁, by rw [e₄]; exact h₂, by rw [e₅]; exact h₃, ?_, ?_⟩
  · simpa [Store.updateFsr] using h₄
  · simpa [Store.updateFsr] using h₅

/-- A host write to TX_WR (R211). -/
theorem Store.sockCore_writeTxWr {c : Byte} (v : Byte) (hc : c = 0x24 ∨ c = 0x25) (h : st.SockCore n) :
    (st.writeTxWr n c v).SockCore n := by
  have g : ∀ d : Byte, d ≠ c → d + 1 ≠ c → (st.setReg n c v).get16 n d = st.get16 n d :=
    fun d h₁ h₂ => Store.get16_setReg_cell _ _ _ _ _ _ h₁ h₂
  have e₂ : (st.setReg n c v).txRd n = st.txRd n :=
    g 0x22 (by rcases hc with rfl | rfl <;> decide) (by rcases hc with rfl | rfl <;> decide)
  have e₄ : (st.setReg n c v).rxRsr n = st.rxRsr n :=
    g 0x26 (by rcases hc with rfl | rfl <;> decide) (by rcases hc with rfl | rfl <;> decide)
  have e₅ : (st.setReg n c v).ir n = st.ir n :=
    Store.reg_setReg_cell _ _ _ _ _ _ (by rcases hc with rfl | rfl <;> decide)
  exact Store.sockCore_updateFsr (by rw [e₂]; exact h.2.1) (by rw [e₄]; exact h.2.2.1) (by rw [e₅]; exact h.2.2.2.1)
    h.2.2.2.2.1 h.2.2.2.2.2

/-- A write of RX_RSR in its range. -/
theorem Store.sockCore_setRsr {x : Nat} (hx : x < 2048) (h : st.SockCore n) :
    (st.set16 n 0x26 (BitVec.ofNat 16 x)).SockCore n := by
  have g : ∀ d : Byte, d ≠ 0x26 → d ≠ 0x27 → d + 1 ≠ 0x26 →
      (st.set16 n 0x26 (BitVec.ofNat 16 x)).get16 n d = st.get16 n d :=
    fun d h₁ h₂ h₃ => Store.get16_set16_cell _ _ _ _ _ _ h₁ h₂ h₃
  have e₁ : (st.set16 n 0x26 (BitVec.ofNat 16 x)).txFsr n = st.txFsr n := g 0x20 (by decide) (by decide) (by decide)
  have e₂ : (st.set16 n 0x26 (BitVec.ofNat 16 x)).txRd n = st.txRd n := g 0x22 (by decide) (by decide) (by decide)
  have e₃ : (st.set16 n 0x26 (BitVec.ofNat 16 x)).txWr n = st.txWr n := g 0x24 (by decide) (by decide) (by decide)
  have e₄ : (st.set16 n 0x26 (BitVec.ofNat 16 x)).rxRsr n = BitVec.ofNat 16 x := Store.get16_set16_same _ _ _ _
  have e₅ : (st.set16 n 0x26 (BitVec.ofNat 16 x)).ir n = st.ir n :=
    Store.reg_set16_cell _ _ _ _ _ _ (by decide) (by decide)
  unfold Store.SockCore Store.FsrOk
  rw [e₁, e₂, e₃, e₄, e₅, toNat_ofNat16 (by omega)]
  simp only [Store.set16_resOut, Store.set16_state, Store.set16_resAcc]
  exact ⟨h.1, h.2.1, hx, h.2.2.2⟩

theorem Store.sockCore_storeRx (off : Nat) (bytes : List Byte) (h : st.SockCore n) :
    (st.storeRx n off bytes).SockCore n := by
  have hl := st.local_storeRx n off bytes
  exact Store.sockCore_congr hl.cfg (by rw [Store.storeRx_sock]) (fun c _ => hl.reg not_rxCells_bank) h

/-- A delivery that fits (R287). -/
theorem Store.sockCore_rxDeliver (bytes : List Byte) (hb : bytes.length ≤ st.rxRoom n) (h : st.SockCore n) :
    (st.rxDeliver n bytes).SockCore n := by
  have hr : (((st.storeRx n (st.widx n).toNat bytes)).rxRsr n) = st.rxRsr n :=
    (st.local_storeRx n _ bytes).get16 not_rxCells_bank not_rxCells_bank
  have hlt := h.2.2.1
  unfold Store.rxRoom at hb
  unfold Store.rxDeliver
  refine Store.sockCore_flagRecv (Store.sockCore_setRsr ?_ (Store.sockCore_setWidx _ (Store.sockCore_storeRx _ _ h)))
  show ((st.storeRx n (st.widx n).toNat bytes).rxRsr n).toNat + bytes.length < 2048
  rw [hr]
  omega

theorem Store.sockCore_deliver (bytes : List Byte) (h : st.SockCore n) : (st.deliver n bytes).SockCore n := by
  unfold Store.deliver
  split
  · exact Store.sockCore_rxDeliver bytes ‹_› h
  · exact h

/-- Release and `CLOSED` (R244, R245, R284). -/
theorem Store.sockCore_closed (h : st.SockCore n) : ((st.release n).setState n .closed).SockCore n := by
  have hr : ∀ c : Byte, ((st.release n).setState n .closed).reg n c = st.reg n c :=
    fun c => (st.local_closed n).cells _ id
  have hg : ∀ c : Byte, ((st.release n).setState n .closed).get16 n c = st.get16 n c :=
    fun c => (st.local_closed n).get16 id id
  unfold Store.SockCore Store.FsrOk Store.txFsr Store.txRd Store.txWr Store.rxRsr Store.ir
  rw [hg, hg, hg, hg, hr]
  refine ⟨h.1, h.2.1, h.2.2.1, h.2.2.2.1, ?_, ?_⟩
  · simp [Store.release]
  · simp [Store.release]

/-- Reset rings, resource owned, an open state (R241, R250). -/
theorem Store.sockCore_opened {x : SockState} (hx : x ≠ .closed) (hacc : st.resAcc n = false)
    (hir : st.ir n &&& 0xEB = 0x00) : (st.opened n x).SockCore n := by
  obtain ⟨h₁, h₂, h₃, h₄, _, _⟩ := st.resetRings_spec n
  have e₁ : (st.opened n x).txRd n = 0 := h₁
  have e₂ : (st.opened n x).txWr n = 0 := h₂
  have e₃ : (st.opened n x).txFsr n = 0x0800 := h₃
  have e₄ : (st.opened n x).rxRsr n = 0 := h₄
  have e₅ : (st.opened n x).ir n = st.ir n :=
    (st.local_opened n x).reg (by rw [bankCells_iff]; simp)
  unfold Store.SockCore Store.FsrOk
  rw [e₁, e₂, e₃, e₄, e₅]
  refine ⟨by decide, by decide, by decide, hir, ?_, ?_⟩
  · simp [Store.opened, hx]
  · simp [Store.opened, Store.resetRings, hacc]

theorem Store.sockCore_drainTx (h : st.SockCore n) : (st.drainTx n).SockCore n := by
  have hx : ((st.txRd n).toNat % 2048 + st.txQueued n) % 2048 < 2048 := by omega
  generalize hw : ((st.txRd n).toNat % 2048 + st.txQueued n) % 2048 = x at hx
  have e₂ : (st.set16 n 0x22 (BitVec.ofNat 16 x)).txRd n = BitVec.ofNat 16 x := Store.get16_set16_same _ _ _ _
  have e₄ : (st.set16 n 0x22 (BitVec.ofNat 16 x)).rxRsr n = st.rxRsr n :=
    Store.get16_set16_cell _ _ _ _ _ _ (by decide) (by decide) (by decide)
  have e₅ : (st.set16 n 0x22 (BitVec.ofNat 16 x)).ir n = st.ir n :=
    Store.reg_set16_cell _ _ _ _ _ _ (by decide) (by decide)
  unfold Store.drainTx
  rw [hw]
  refine Store.sockCore_updateFsr (by rw [e₂, toNat_ofNat16 (by omega)]; exact hx) (by rw [e₄]; exact h.2.2.1)
    (by rw [e₅]; exact h.2.2.2.1) ?_ ?_
  · simpa using h.2.2.2.2.1
  · simpa using h.2.2.2.2.2

theorem Store.sockCore_sendUdp (data : List Byte) (h : st.SockCore n) : (st.sendUdp n data).SockCore n := by
  unfold Store.sendUdp Store.loopbackDhcp Store.loopbackNtp
  split
  · exact Store.sockCore_deliver _ h
  · split
    · split
      · exact Store.sockCore_deliver _ h
      · exact h
    · exact h

/-- A change of lifecycle that keeps both ownership clauses. -/
theorem Store.sockCore_setState {x : SockState} (hx : x ≠ .closed) (hs : st.state n ≠ .closed)
    (ha : st.resAcc n = true → x = .established) (h : st.SockCore n) : (st.setState n x).SockCore n := by
  have h₅ := h.2.2.2.2.1
  refine ⟨h.1, h.2.1, h.2.2.1, h.2.2.2.1, ?_, ?_⟩
  · simp only [Store.resOut_setState, Store.state_setState, if_true]
    exact ⟨fun _ => hx, fun _ => h₅.2 hs⟩
  · simp only [Store.resAcc_setState, Store.state_setState, if_true]
    exact ha

/-- Every command keeps the invariant but for CR (R240). -/
theorem Store.sockCore_dispatch (v : Byte) (h : st.SockCore n) : (st.dispatch n v).SockCore n := by
  have hacc : ∀ {x : SockState}, st.state n = x → x ≠ .established → st.resAcc n = false := by
    intro x hx hne
    cases hr : st.resAcc n with
    | false => rfl
    | true => exact absurd (hx.symm.trans (h.2.2.2.2.2 hr)) hne
  have hopen : (st.openRule n).SockCore n := by
    unfold Store.openRule Store.openTcp Store.openUdp
    split
    · have ha := hacc ‹_› (by decide)
      split
      · simp only
        split
        · exact Store.sockCore_opened (by decide) ha h.2.2.2.1
        · exact h
      · split
        · simp only
          split
          · exact Store.sockCore_opened (by decide) ha h.2.2.2.1
          · exact h
        · exact h
    · exact h
  have hlisten : (st.listenRule n).SockCore n := by
    unfold Store.listenRule
    split
    · rename_i hs
      simp only
      split
      · refine Store.sockCore_setState (by decide) (by show st.state n ≠ _; rw [hs]; decide) ?_ h
        intro hr
        have := hacc hs (by decide)
        simp only [Store.emit_resAcc, this] at hr
        cases hr
      · exact h
    · exact h
  have hconnect : (st.connectRule n).SockCore n := by
    unfold Store.connectRule
    split
    · rename_i hs
      simp only
      split
      · exact Store.sockCore_setState (by decide) (by show st.state n ≠ _; rw [hs]; decide) (fun _ => rfl) h
      · exact h
    · exact h
  have hdiscon : (st.disconRule n).SockCore n := by
    unfold Store.disconRule
    split
    · exact Store.sockCore_closed h
    · exact h
  have hclose : (st.closeRule n).SockCore n := by
    unfold Store.closeRule
    split
    · exact h
    · exact Store.sockCore_closed h
  have hsend : (st.sendRule n).SockCore n := by
    unfold Store.sendRule Store.sendTcpRule Store.sendUdpRule
    split
    · exact Store.sockCore_flagSendOk (Store.sockCore_emit _ (Store.sockCore_drainTx h))
    · exact Store.sockCore_flagSendOk (Store.sockCore_sendUdp _ (Store.sockCore_drainTx h))
    all_goals exact h
  have hrecv : (st.recvRule n).SockCore n := by
    unfold Store.recvRule
    split
    · exact Store.sockCore_setRsr (ringDiff_lt _ _) h
    · exact h
  unfold Store.dispatch Store.nopRule
  repeat' (split; assumption)
  exact h

/-- Every router write to socket `n` keeps its invariant. -/
theorem Store.sockOk_sockWrite (c v : Byte) (h : st.SockOk n) : (st.sockWrite n c v).SockOk n := by
  rw [Store.sockOk_iff] at h ⊢
  have keep : ∀ {t : Store}, t.SockCore n → t.reg n 0x01 = st.reg n 0x01 → t.SockCore n ∧ t.reg n 0x01 = 0x00 :=
    fun h₁ h₂ => ⟨h₁, h₂.trans h.2⟩
  unfold Store.sockWrite
  split
  · exact ⟨Store.sockCore_setReg _ (by decide) (Store.sockCore_dispatch v (Store.sockCore_setReg v (by decide) h.1)),
      Store.reg_setReg_same _ _ _ _⟩
  · split
    · exact keep (Store.sockCore_clearIr v h.1) (Store.reg_setReg_cell _ _ _ _ _ _ (by decide))
    · split
      · exact h
      · split
        · rename_i hc
          refine keep (Store.sockCore_writeTxWr v hc h.1) ?_
          unfold Store.writeTxWr Store.updateFsr
          rw [Store.reg_set16_cell _ _ _ _ _ _ (by decide) (by decide),
            Store.reg_setReg_cell _ _ _ _ _ _ (by rcases hc with rfl | rfl <;> decide)]
        · rename_i h₁ h₂ h₃ h₄
          refine keep (Store.sockCore_setReg v ?_ h.1) (Store.reg_setReg_cell _ _ _ _ _ _ (fun e => h₁ e.symm))
          rintro (rfl | rfl | rfl | rfl | rfl | rfl | rfl | rfl | rfl)
          · exact h₂ rfl
          · exact h₃ rfl
          · exact h₃ rfl
          · exact h₃ rfl
          · exact h₃ rfl
          · exact h₄ (Or.inl rfl)
          · exact h₄ (Or.inr rfl)
          · exact h₃ rfl
          · exact h₃ rfl

/-- Every poll of socket `n` keeps its invariant. -/
theorem Store.sockOk_poll (h : st.SockOk n) : (st.poll n).SockOk n := by
  rw [Store.sockOk_iff] at h ⊢
  have keep : ∀ {P : Nat → Prop} {t : Store}, Store.Local n P st t → ¬ P (bankAddr n 0x01) → t.SockCore n →
      t.SockCore n ∧ t.reg n 0x01 = 0x00 := fun hl hp hc => ⟨hc, (hl.reg hp).trans h.2⟩
  have hdel : ∀ {off len : Nat}, ¬ deliveryCells n off len (bankAddr n 0x01) := by
    rintro off len (e | e | e)
    · exact absurd (bankAddr_inj.1 e).2 (by decide)
    · rw [bankCells_iff] at e; simp at e
    · exact not_rxCells_bank e
  unfold Store.poll
  split
  · rename_i hs
    refine keep (st.local_pollAccept n) (by rw [bankCells_iff]; simp) ?_
    unfold Store.pollAccept
    split
    · exact h.1
    · rename_i p _
      have h₁ : ((st.emit (.accept n)).setResAcc n true).resOut n = true := by
        simp [h.1.2.2.2.2.1.2 (by rw [hs]; decide)]
      have hl := (Store.local_setDipr ((st.emit (.accept n)).setResAcc n true) n p.ip).mono
        (Q := fun a => bankCells n 0x0C 0x11 a) (fun a ha => by
          unfold bankCells bankAddr at ha ⊢
          exact ⟨ha.1, ha.2.trans (by simp)⟩)
      have hl₂ := hl.trans (Store.local_set16 (P := bankCells n 0x0C 0x11) _ n p.port
        (bankCells_of (c := 0x10) (by decide) (by decide)) (bankCells_of (by decide) (by decide)))
      have hsock : ((((st.emit (.accept n)).setResAcc n true).setDipr n p.ip).set16 n 0x10 p.port).sock =
          ((st.emit (.accept n)).setResAcc n true).sock := by simp [Store.setDipr]
      have hcell : ∀ c : Byte, watchedCell c → ¬ bankCells n 0x0C 0x11 (bankAddr n c) := by
        intro c hc
        rw [bankCells_iff]
        rintro ⟨_, h₁, h₂⟩
        rcases hc with rfl | rfl | rfl | rfl | rfl | rfl | rfl | rfl | rfl <;> simp at h₁ h₂
      have g : ∀ c : Byte, watchedCell c → watchedCell (c + 1) →
          ((((st.emit (.accept n)).setResAcc n true).setDipr n p.ip).set16 n 0x10 p.port).get16 n c = st.get16 n c :=
        fun c h₁ h₂ => hl₂.get16 (hcell c h₁) (hcell _ h₂)
      refine ⟨?_, ?_, ?_, ?_, ?_, ?_⟩
      · show ((Store.get16 _ n 0x20).toNat = 2048 - ringDiff (Store.get16 _ n 0x24).toNat (Store.get16 _ n 0x22).toNat)
        simp only [Store.setState_get16]
        rw [g 0x20 (by decide) (by decide), g 0x24 (by decide) (by decide), g 0x22 (by decide) (by decide)]
        exact h.1.1
      · show (Store.get16 _ n 0x22).toNat < 2048
        simp only [Store.setState_get16]
        rw [g 0x22 (by decide) (by decide)]
        exact h.1.2.1
      · show (Store.get16 _ n 0x26).toNat < 2048
        simp only [Store.setState_get16]
        rw [g 0x26 (by decide) (by decide)]
        exact h.1.2.2.1
      · show Store.reg _ n 0x02 &&& 0xEB = 0
        simp only [Store.setState_reg]
        rw [hl₂.reg (hcell 0x02 (by decide))]
        exact h.1.2.2.2.1
      · simp only [Store.resOut_setState, Store.state_setState, if_true]
        unfold Store.resOut at h₁ ⊢
        rw [hsock]
        exact ⟨fun _ => by decide, fun _ => h₁⟩
      · simp
  · split
    · exact keep (st.local_closed n) id (Store.sockCore_closed h.1)
    · refine keep (P := deliveryCells n (st.widx n).toNat
        ((st.net n).stream.take (min (st.net n).stream.length (st.rxRoom n))).length) ?_ hdel ?_
      · unfold Store.pollStream
        exact st.local_ite n (fun _ => (st.local_emit n _).trans (Store.local_rxDeliver (st.emit _) n _))
          fun _ => .refl
      · unfold Store.pollStream
        simp only
        split
        · refine Store.sockCore_rxDeliver _ ?_ (Store.sockCore_emit _ h.1)
          rw [List.length_take]
          show _ ≤ st.rxRoom n
          omega
        · exact h.1
  · unfold Store.pollDatagram
    split
    · exact h
    · split
      · rename_i d _ hle
        refine keep ((st.local_emit n _).trans (Store.local_rxDeliver _ n _)) hdel
          (Store.sockCore_rxDeliver _ ?_ (Store.sockCore_emit _ h.1))
        rw [List.length_append]
        exact hle
      · exact h
  · exact h
  · exact h

end

/-- A poll keeps the invariants of all sockets. -/
theorem Store.allOk_poll {st : Store} (n : Fin 4) (h : ∀ m : Fin 4, st.SockOk m) (m : Fin 4) : (st.poll n).SockOk m := by
  by_cases hm : m = n
  · subst hm; exact Store.sockOk_poll (h m)
  · exact (st.local_poll n).sockOk_other hm (h m)

/-- A router write keeps the invariants of all sockets. -/
theorem Store.allOk_routerWrite {st : Store} (a : Half) (v : Byte) (h : ∀ m : Fin 4, st.SockOk m) (m : Fin 4) :
    (st.routerWrite a v).SockOk m := by
  rcases st.routerWrite_cases a v with ⟨n, c, _, e⟩ | ⟨hb, _, e⟩ | ⟨_, e⟩
  · rw [e]
    by_cases hm : m = n
    · subst hm; exact Store.sockOk_sockWrite c v (h m)
    · exact (st.local_sockWrite n c v).sockOk_other hm (h m)
  · rw [e]
    have hr : ∀ c : Byte, (st.poke a.toNat v).reg m c = st.reg m c := by
      intro c
      have := bankAddr_range m c
      unfold Store.reg
      rw [Store.peek_poke, if_neg (by intro he; rw [he] at this; exact hb this)]
    have hm := (Store.sockOk_iff st m).1 (h m)
    exact (Store.sockOk_iff _ m).2
      ⟨Store.sockCore_congr (st := st) rfl rfl (fun c _ => hr c) hm.1, (hr 0x01).trans hm.2⟩
  · rw [e]; exact h m

end Sys2Proof.Machine
end

