-- ==== Sys2Proof/Laws/PerInstr.lean ====
section
/-! SUPPORT. A family of per-instruction statements: every instruction is at least one byte (R102 to R104, R109). -/

namespace Sys2Proof.Laws

/-- The encoding of `i` has a first byte, whatever the parameters. -/
def EncodeNonempty.Statement (i : Instr) : Prop := ∀ c : Config, encode c i ≠ []

theorem EncodeNonempty.aWrite (addr : Half) (data : Byte) : Statement (.aWrite addr data) := fun _ => List.cons_ne_nil _ _
theorem EncodeNonempty.aRead (addr : Half) (dummy : Byte) : Statement (.aRead addr dummy) := fun _ => List.cons_ne_nil _ _
theorem EncodeNonempty.aNop (op : Byte) : Statement (.aNop op) := fun _ => List.cons_ne_nil _ _
theorem EncodeNonempty.bRead (bsb : BitVec 5) (mm : BitVec 2) (addr : Half) (dummies : List Byte) :
    Statement (.bRead bsb mm addr dummies) := fun _ => List.cons_ne_nil _ _
theorem EncodeNonempty.bWrite (bsb : BitVec 5) (mm : BitVec 2) (addr : Half) (data : List Byte) :
    Statement (.bWrite bsb mm addr data) := fun _ => List.cons_ne_nil _ _
theorem EncodeNonempty.cmdOpen (n : Fin 4) : Statement (.cmdOpen n) := fun _ => List.cons_ne_nil _ _
theorem EncodeNonempty.cmdListen (n : Fin 4) : Statement (.cmdListen n) := fun _ => List.cons_ne_nil _ _
theorem EncodeNonempty.cmdConnect (n : Fin 4) : Statement (.cmdConnect n) := fun _ => List.cons_ne_nil _ _
theorem EncodeNonempty.cmdDiscon (n : Fin 4) : Statement (.cmdDiscon n) := fun _ => List.cons_ne_nil _ _
theorem EncodeNonempty.cmdClose (n : Fin 4) : Statement (.cmdClose n) := fun _ => List.cons_ne_nil _ _
theorem EncodeNonempty.cmdSend (n : Fin 4) : Statement (.cmdSend n) := fun _ => List.cons_ne_nil _ _
theorem EncodeNonempty.cmdRecv (n : Fin 4) : Statement (.cmdRecv n) := fun _ => List.cons_ne_nil _ _
theorem EncodeNonempty.cmdNop (n : Fin 4) (v : Byte) : Statement (.cmdNop n v) := fun _ => List.cons_ne_nil _ _

end Sys2Proof.Laws
end

