-- ==== Sys2Proof/Laws/Reset.lean ====
section
/-! SUPPORT. The power-on content of the cells, by address (R43). -/

namespace Sys2Proof.Machine

theorem resetByte_bank (c : Config) (n : Fin 4) (r : Byte) :
    resetByte c (bankAddr n r) =
      match c.order with
      | .le => if r = 0x21 then 0x08 else 0x00
      | .be => if r = 0x20 then 0x08 else 0x00 := by
  have hr := bankAddr_range n r
  have hm : bankAddr n r % 0x100 = r.toNat := by unfold bankAddr; have := r.isLt; omega
  have heq : ∀ x : Byte, r.toNat = x.toNat ↔ r = x := fun x => ⟨BitVec.eq_of_toNat_eq, fun h => by rw [h]⟩
  have h₁ := heq 0x21
  have h₀ := heq 0x20
  simp only [show (0x21 : Byte).toNat = 0x21 from rfl, show (0x20 : Byte).toNat = 0x20 from rfl] at h₁ h₀
  unfold resetByte
  rw [if_neg (by omega), if_pos hr, hm]
  cases c.order <;> simp only [h₁, h₀]

theorem resetByte_ring (c : Config) {a : Nat} (h : 0x800 ≤ a) : resetByte c a = 0x00 := by
  unfold resetByte
  rw [if_neg (by omega), if_neg (by omega)]

theorem resetByte_common (c : Config) {a : Nat} (h : a < 0x100) : resetByte c a = c.commonReset.getD a 0 := by
  unfold resetByte
  rw [if_pos h]

/-- A cell of the machine at power-on. -/
theorem State.resetWith_peek (c : Config) (a : Nat) : (State.resetWith c).store.peek a = resetByte c a := rfl

theorem State.resetWith_reg (c : Config) (n : Fin 4) (r : Byte) :
    (State.resetWith c).store.reg n r =
      match c.order with
      | .le => if r = 0x21 then 0x08 else 0x00
      | .be => if r = 0x20 then 0x08 else 0x00 := resetByte_bank c n r

/-- The hidden state of every socket at power-on. -/
theorem State.resetWith_sock (c : Config) (n : Fin 4) : (State.resetWith c).store.sock[n] = Socket.reset := by
  fin_cases n <;> rfl

end Sys2Proof.Machine
end

