-- ==== Sys2Proof/Tests/Slice0.lean ====
section
/-! SUPPORT. Tests: ill-formed terms refused, words written out from the encodings, one step per instruction against
spec/95_test_vectors.md (each names its vector), and for each statement with hypotheses a witness that meets them. -/

namespace Sys2Proof.Tests

open Sys2Proof Sys2Proof.Machine

-- The tests are elaborated one after another: beside each other they hold too many threads.
set_option Elab.async false

/-! ### Helpers -/

/-- Nothing offered, everything granted: the draws a vector does not mention (95_test_vectors.md, Conventions). -/
def calm : NetIn := ⟨true, true, true, none, false, [], none⟩

/-- One tick's input with the draws `e` for socket 0. -/
def draws (e : NetIn) : EnvIn := ⟨#v[e, calm, calm, calm], 1700000000⟩

/-- A chip of variant `m` with socket 0 in state `k` with write index `w`, the given cells, and the draws `e` in the
coming ticks. -/
def chip (m : Model) (k : SockState) (w : BitVec 11) (cells : List Host.Cell) (e : NetIn) : State :=
  let s := State.resetWith (defaultConfig m)
  { s with store := { s.store with
      mem := cells.foldl (fun mem c => Memory.write (resetByte s.store.cfg) mem c.1 c.2) []
      sock := s.store.sock.set 0 ⟨k, w, k != .closed, false⟩
      envq := List.replicate 130 (draws e) } }

/-- A chip with a closed socket 0 and the given cells. -/
def quiet (m : Model) (cells : List Host.Cell) : State := chip m .closed 0 cells calm

/-- A chip whose bus master will send the bytes of one selection. -/
def sending (m : Model) (bytes : List Byte) (cells : List Host.Cell) : State :=
  { quiet m cells with bus := [.frame bytes] }

/-- The state an outcome goes on with. -/
def after : Host.Outcome State Fault Refusal → Option State
  | .next t => some t
  | .fault _ => none
  | .refused _ => none

/-- Cells `a`, `a + 1`, … of the state an outcome goes on with. -/
def cellsAfter (o : Host.Outcome State Fault Refusal) (a k : Nat) : Option (List Byte) :=
  (after o).map fun t => (List.range k).map fun i => t.store.peek (a + i)

/-- The bytes the master read in the step. -/
def readAfter (o : Host.Outcome State Fault Refusal) : Option (List Byte) := (after o).map fun t => t.received

/-- The events the chip emitted. -/
def eventsAfter (o : Host.Outcome State Fault Refusal) : Option (List NetEvent) :=
  (after o).map fun t => t.store.events

/-- The lifecycle state of socket 0. -/
def stateAfter (o : Host.Outcome State Fault Refusal) : Option SockState := (after o).map fun t => t.store.state 0

/-- 192.0.2.1 in DIPR and 80 in DPORT of socket 0 (P4). -/
def remote : List Host.Cell := [(0x40C, 0xC0), (0x40E, 0x02), (0x40F, 0x01), (0x410, 0x50)]

/-! ### Well-formedness: an ill-formed term for each check -/

theorem test_wf_aWrite_other_variant : (Instr.aWrite 0 0).wellFormed (defaultConfig .b) = false := by decide
theorem test_wf_aRead_other_variant : (Instr.aRead 0 0).wellFormed (defaultConfig .b) = false := by decide
theorem test_wf_aNop_other_variant : (Instr.aNop 0x55).wellFormed (defaultConfig .b) = false := by decide
theorem test_wf_aNop_write_byte : (Instr.aNop 0xF0).wellFormed (defaultConfig .a) = false := by decide
theorem test_wf_aNop_read_byte : (Instr.aNop 0x0F).wellFormed (defaultConfig .a) = false := by decide
theorem test_wf_bRead_other_variant : (Instr.bRead 0 0 0 []).wellFormed (defaultConfig .a) = false := by decide
theorem test_wf_bWrite_other_variant : (Instr.bWrite 0 0 0 []).wellFormed (defaultConfig .a) = false := by decide
theorem test_wf_cmdNop_command_code :
    [0x01, 0x02, 0x04, 0x08, 0x10, 0x20, 0x40].all
      (fun v => (Instr.cmdNop 0 v).wellFormed (defaultConfig .a) == false) = true := by decide

/-! ### Decoding: words written out from R102 to R105 and R109 -/

-- 1111_0000  0001_0010 0011_0100  1010_0101
theorem test_decode_aWrite : decode (defaultConfig .a) .bus [0b11110000, 0b00010010, 0b00110100, 0b10100101]
    = .ok (.aWrite 0x1234 0xA5) := by decide
-- 0000_1111  1000_0000 0000_0001  ignored
theorem test_decode_aRead : decode (defaultConfig .a) .bus [0b00001111, 0b10000000, 0b00000001, 0b11001100]
    = .ok (.aRead 0x8001 0xCC) := by decide
theorem test_decode_aNop : decode (defaultConfig .a) .bus [0b01010101] = .ok (.aNop 0x55) := by decide
-- address 0x0026, control bbbbb=00101 w=0 mm=11, two ignored bytes
theorem test_decode_bRead : decode (defaultConfig .b) .bus [0x00, 0b00100110, 0b00101011, 0x00, 0xFF]
    = .ok (.bRead 5 3 0x0026 [0x00, 0xFF]) := by decide
-- address 0x07FE, control bbbbb=11111 w=1 mm=01, one byte
theorem test_decode_bWrite : decode (defaultConfig .b) .bus [0b00000111, 0b11111110, 0b11111101, 0x42]
    = .ok (.bWrite 31 1 0x07FE [0x42]) := by decide
theorem test_decode_cmdOpen : decode (defaultConfig .a) (.cr 0) [0b00000001] = .ok (.cmdOpen 0) := by decide
theorem test_decode_cmdListen : decode (defaultConfig .a) (.cr 1) [0b00000010] = .ok (.cmdListen 1) := by decide
theorem test_decode_cmdConnect : decode (defaultConfig .a) (.cr 2) [0b00000100] = .ok (.cmdConnect 2) := by decide
theorem test_decode_cmdDiscon : decode (defaultConfig .b) (.cr 3) [0b00001000] = .ok (.cmdDiscon 3) := by decide
theorem test_decode_cmdClose : decode (defaultConfig .b) (.cr 0) [0b00010000] = .ok (.cmdClose 0) := by decide
theorem test_decode_cmdSend : decode (defaultConfig .b) (.cr 1) [0b00100000] = .ok (.cmdSend 1) := by decide
theorem test_decode_cmdRecv : decode (defaultConfig .b) (.cr 2) [0b01000000] = .ok (.cmdRecv 2) := by decide
theorem test_decode_cmdNop : decode (defaultConfig .a) (.cr 3) [0b00100001] = .ok (.cmdNop 3 0x21) := by decide
-- refused by name: select dropped inside a header, two transactions under one select, no byte (R101, R161)
theorem test_decode_aborted : decode (defaultConfig .a) .bus [0xF0, 0x00, 0x30] = .error .aborted := by decide
theorem test_decode_aborted_header : decode (defaultConfig .b) .bus [0x00, 0x00] = .error .aborted := by decide
theorem test_decode_chained :
    decode (defaultConfig .a) .bus [0xF0, 0x00, 0x20, 0x11, 0x55] = .error .chained := by decide
theorem test_decode_empty : decode (defaultConfig .a) .bus [] = .error .empty := by decide

/-! ### Words of spec/opcode_table.json -/

theorem test_word_aWrite : decodeTableWord 32 0xF01234A5 = some (.aWrite 0x1234 0xA5) := by decide
theorem test_word_aRead : decodeTableWord 32 0x0F800100 = some (.aRead 0x8001 0x00) := by decide
theorem test_word_aNop : decodeTableWord 8 0x55 = some (.aNop 0x55) := by decide
theorem test_word_bRead : decodeTableWord 24 0x00262B = some (.bRead 5 3 0x0026 []) := by decide
theorem test_word_bWrite : decodeTableWord 32 0x4207FEFD = some (.bWrite 31 1 0x07FE [0x42]) := by decide
theorem test_word_commands :
    [0x01, 0x02, 0x04, 0x08, 0x10, 0x20, 0x40, 0x00].map (decodeTableWord 8) =
      [some (.cmdOpen 0), some (.cmdListen 0), some (.cmdConnect 0), some (.cmdDiscon 0), some (.cmdClose 0),
       some (.cmdSend 0), some (.cmdRecv 0), some (.cmdNop 0 0x00)] := by decide
-- a placed word is run by the very next step: the byte written, and OPEN emitted for MR = 1
theorem test_placed_write :
    cellsAfter (step (State.reset.withFetchWord 32 0xF00010A5)) 0x10 1 = some [0xA5] := by decide +kernel
theorem test_placed_open :
    eventsAfter (step ((quiet .a [(0x400, 0x01)]).withFetchWord 8 0x01)) = some [.openTcp 0] := by decide

/-! ### Bus transactions -/

-- V10
theorem test_aWrite_V10 :
    cellsAfter (step (sending .a [0xF0, 0x00, 0x10, 0xA5] [])) 0x0F 3 = some [0x00, 0xA5, 0x00] := by decide +kernel
-- V15: an unmapped address drops the write
theorem test_aWrite_unmapped_V15 :
    (after (step (sending .a [0xF0, 0x90, 0x00, 0xFF] []))).map (fun t => t.store.mem) = some [] := by decide +kernel
-- V11, S5
theorem test_aRead_V11 :
    readAfter (step (sending .a [0x0F, 0x00, 0x10, 0x00] [(0x10, 0x5A)])) = some [0x00, 0x00, 0x00, 0x5A] := by
  decide +kernel
-- V12: the ignored byte shifts out 0x00 and the decoder stays where it was
theorem test_aNop_V12 :
    (after (step (sending .a [0x55] [(0x10, 0x5A)]))).map (fun t => (t.received, t.dec.st)) =
      some ([0x00], .aWait) := by decide +kernel
-- V20
theorem test_bRead_V20 :
    readAfter (step (sending .b [0x00, 0x10, 0x00, 0x00, 0x00] [(0x10, 0x81), (0x11, 0x7E), (0x12, 0x33)])) =
      some [0x00, 0x00, 0x00, 0x81, 0x7E] := by decide +kernel
-- V21: a reserved selector reads 0x00
theorem test_bRead_reserved_V21 :
    readAfter (step (sending .b [0x00, 0x00, 0x20, 0x00, 0x00] [(0x00, 0x99)])) = some [0, 0, 0, 0, 0] := by
  decide +kernel
-- V22: a burst leaves the ring of socket 0 for the ring of socket 1
theorem test_bWrite_V22 :
    cellsAfter (step (sending .b [0x07, 0xFE, 0x14, 0x01, 0x02, 0x03, 0x04] [])) 0x47FE 4 =
      some [0x01, 0x02, 0x03, 0x04] := by decide +kernel
-- V24: MR is stored before the OPEN of the same burst
theorem test_bWrite_V24 :
    (stateAfter (step (sending .b [0x00, 0x00, 0x0C, 0x02, 0x01] [])),
      eventsAfter (step (sending .b [0x00, 0x00, 0x0C, 0x02, 0x01] []))) =
      (some .udpReady, some [.openUdp 0 0 false]) := by decide +kernel
-- V14: a frame cut in the data byte writes nothing
theorem test_aborted_frame :
    (after (step (sending .a [0xF0, 0x00, 0x30] []))).map (fun t => (t.store.mem, t.dec.st)) =
      some ([], .aWait) := by decide +kernel

-- P3 step 2, and R113 at the last cell of a bank: S(0) + 0xFF, then S(0) + 0x100
theorem test_wr16_R113 :
    opWr16 (defaultConfig .a) 0 0x04 5000 = [.frame [0xF0, 0x04, 0x04, 0x88], .frame [0xF0, 0x04, 0x05, 0x13]] ∧
    opWr16 (defaultConfig .a) 0 0xFF 0x1234 = [.frame [0xF0, 0x04, 0xFF, 0x34], .frame [0xF0, 0x05, 0x00, 0x12]] ∧
    opWr16 (defaultConfig .b) 0 0xFF 0x1234 = [.frame [0x00, 0xFF, 0x0C, 0x34, 0x12]] := by decide
-- R1: the identity of both variants
theorem test_identity_R1 : State.reset.identity = ⟨"dsandy12/simulavr", "5100"⟩ ∧
    (State.resetWith (defaultConfig .b)).identity = ⟨"dsandy12/simulavr", "5500"⟩ := by decide

/-! ### Socket commands -/

-- V42
theorem test_open_V42 :
    (stateAfter (exec (.cmdOpen 0) (quiet .a [(0x400, 0x01), (0x424, 0x07)])),
      cellsAfter (exec (.cmdOpen 0) (quiet .a [(0x400, 0x01), (0x424, 0x07)])) 0x420 10) =
      (some .init, some [0x00, 0x08, 0, 0, 0, 0, 0, 0, 0, 0]) := by decide
-- V41: a creation that fails changes nothing
theorem test_open_fails_V41 :
    (after (exec (.cmdOpen 0)
        (chip .a .closed 0 [(0x400, 0x01), (0x424, 0x07)] { calm with createOk := false }))).map
      (fun t => (t.store.state 0, t.store.txWr 0, t.store.events)) =
      some (.closed, 0x0007, [.openTcp 0]) := by decide
-- R242, with PORT = 8080
theorem test_listen :
    (stateAfter (exec (.cmdListen 0) (chip .a .init 0 [(0x404, 0x90), (0x405, 0x1F)] calm)),
      eventsAfter (exec (.cmdListen 0) (chip .a .init 0 [(0x404, 0x90), (0x405, 0x1F)] calm))) =
      (some .listen, some [.listen 0 8080]) := by decide
-- V45
theorem test_connect_V45 :
    (stateAfter (exec (.cmdConnect 0) (chip .a .init 0 remote calm)),
      eventsAfter (exec (.cmdConnect 0) (chip .a .init 0 remote calm))) =
      (some .established, some [.connect 0 ⟨192, 0, 2, 1⟩ 80]) := by decide
theorem test_connect_fails_V45 :
    stateAfter (exec (.cmdConnect 0) (chip .a .init 0 remote { calm with connectOk := false })) = some .init := by
  decide
-- V50: DISCON in LISTEN is a no-op, CLOSE releases
theorem test_discon_V50 : exec (.cmdDiscon 0) (chip .a .listen 0 [] calm) = .next (chip .a .listen 0 [] calm) := rfl
theorem test_discon_established :
    stateAfter (exec (.cmdDiscon 0) (chip .a .established 0 [] calm)) = some .closed := by decide
theorem test_close_V50 :
    (after (exec (.cmdClose 0) (chip .a .listen 0 [] calm))).map
      (fun t => (t.store.state 0, t.store.resOut 0, t.store.events)) =
      some (.closed, false, [.close 0]) := by decide
-- V46: the drain wraps
theorem test_send_V46 :
    (after (exec (.cmdSend 0) (chip .a .established 0
        [(0x422, 0xFE), (0x423, 0x07), (0x424, 0x02), (0x47FE, 0x0A), (0x47FF, 0x0B), (0x4000, 0x0C), (0x4001, 0x0D)]
        calm))).map
      (fun t => (t.store.events, t.store.txRd 0, t.store.txFsr 0, t.store.ir 0)) =
      some ([.sendTcp 0 [0x0A, 0x0B, 0x0C, 0x0D]], 2, 0x0800, 0x10) := by decide
-- V37: TX_WR above the capacity is masked at use and kept
theorem test_send_V37 :
    (after (exec (.cmdSend 0) (chip .a .established 0
        [(0x424, 0x03), (0x425, 0x08), (0x4000, 0x01), (0x4001, 0x02), (0x4002, 0x03)] calm))).map
      (fun t => (t.store.events, t.store.txRd 0, t.store.txWr 0)) =
      some ([.sendTcp 0 [0x01, 0x02, 0x03]], 3, 0x0803) := by decide
-- V48
theorem test_recv_V48 :
    cellsAfter (exec (.cmdRecv 0) (chip .a .udpReady 10 [(0x428, 0xF8), (0x429, 0x07)] calm)) 0x426 2 =
      some [0x12, 0x00] := by decide
-- V49
theorem test_recv_closed_V49 : exec (.cmdRecv 0) (quiet .a []) = .next (quiet .a []) := rfl
theorem test_cmdNop_V49 : exec (.cmdNop 0 0x21) (quiet .a []) = .next (quiet .a []) := rfl

/-! ### Router, sampler, events, responders -/

-- V36: TX_FSR follows each byte write
theorem test_txWr_V36 :
    let a := (quiet .a [(0x424, 0xFF)]).store.routerWrite 0x0424 0x00
    ((a.txFsr 0), ((a.routerWrite 0x0425 0x01).txFsr 0)) = (0x0800, 0x0700) := by decide
-- V38: the other field order
theorem test_fieldOrder_V38 :
    let s := State.resetWith { defaultConfig .a with order := .be }
    (s.store.peek 0x420, s.store.peek 0x421, s.store.txFsr 0) = (0x08, 0x00, 0x0800) := by decide
-- S3
theorem test_ir_S3 :
    let w := fun (st : Store) (v : Byte) => st.routerWrite 0x0402 v
    let a := w (quiet .a [(0x402, 0x14)]).store 0x04
    (a.ir 0, (w a 0x04).ir 0, (w a 0x00).ir 0, (w a 0xFF).ir 0) = (0x10, 0x10, 0x10, 0x00) := by decide
-- S1: the value after the sixth edge
theorem test_sampler_S1 :
    ([true, true, false, false, true, false].foldl
      (fun (p : Sampler) b => (p.step ⟨false, false, b⟩).step ⟨false, true, b⟩) Sampler.reset).shin = 0x32 := by
  decide
-- V5: select asserted with the clock high counts an edge
theorem test_sampler_V5 :
    let p := (Sampler.reset.step ⟨true, true, false⟩).step ⟨false, true, true⟩
    (p.bitcnt, p.shin) = (1, 0x01) := by decide
-- V55
theorem test_accept_V55 :
    let t := (chip .a .listen 0 [] { calm with pending := some ⟨⟨127, 0, 0, 1⟩, 50000⟩ }).store.poll 0
    (t.state 0, (List.range 6).map (fun i => t.peek (0x40C + i)), t.resOut 0, t.resAcc 0, t.ir 0, t.events) =
      (.established, [0x7F, 0x00, 0x00, 0x01, 0x50, 0xC3], true, true, 0x00, [.accept 0]) := by decide
-- V58
theorem test_peerClosed_V58 :
    let t := (chip .a .established 3 [] { calm with peerClosed := true, stream := [0x01, 0x02] }).store.poll 0
    (t.state 0, t.widx 0, t.events, t.mem) = (.closed, 3, [.close 0], []) := by decide
-- V59: the delivery wraps
theorem test_stream_V59 :
    let t := (chip .a .established 2046 [] { calm with stream := [0x01, 0x02, 0x03, 0x04] }).store.poll 0
    (t.rx 0 2046, t.rx 0 2047, t.rx 0 0, t.rx 0 1, t.widx 0, t.rxRsr 0) = (0x01, 0x02, 0x03, 0x04, 2, 4) := by
  decide
-- V61
theorem test_datagram_V61 :
    let t := (chip .a .udpReady 0 [] { calm with dgram := some ⟨⟨10, 0, 0, 5⟩, 9000, [0x41, 0x42]⟩ }).store.poll 0
    ((List.range 10).map (fun i => t.peek (0x6000 + i)), t.rxRsr 0, t.ir 0, t.events) =
      ([0x0A, 0x00, 0x00, 0x05, 0x23, 0x28, 0x00, 0x02, 0x41, 0x42], 10, 0x04, [.take 0 2]) := by decide
-- V62: 2038 bytes held, 10 > 9
theorem test_datagram_V62 :
    let t := (chip .a .udpReady 0 [(0x426, 0xF6), (0x427, 0x07)]
      { calm with dgram := some ⟨⟨10, 0, 0, 5⟩, 9000, [0x41, 0x42]⟩ }).store.poll 0
    (t.rxRsr 0, t.ir 0, t.events) = (2038, 0x00, []) := by decide

/-- The request of V30 with the message type `v`. -/
def dhcpRequest (v : Byte) : List Byte :=
  [0x01, 0x01, 0x06, 0x00, 0x12, 0x34, 0x56, 0x78] ++ List.replicate 20 0x00 ++
    [0xDE, 0xAD, 0xBE, 0xEF, 0xFE, 0xED] ++ List.replicate 202 0x00 ++
    [0x63, 0x82, 0x53, 0x63, 0x35, 0x01, v, 0xFF]

-- V30, V30a
theorem test_dhcp_V30 :
    (dhcpReply (defaultConfig .a) (dhcpRequest 0x01)).take 34 =
      [0x02, 0x01, 0x06, 0x00, 0x12, 0x34, 0x56, 0x78, 0, 0, 0, 0, 0, 0, 0, 0, 0x7F, 0x00, 0x00, 0x01,
       0x7F, 0x00, 0x00, 0x01, 0x00, 0x00, 0x00, 0x00, 0xDE, 0xAD, 0xBE, 0xEF, 0xFE, 0xED] ∧
    (dhcpReply (defaultConfig .a) (dhcpRequest 0x01)).drop 236 =
      [0x63, 0x82, 0x53, 0x63, 0x35, 0x01, 0x02, 0x01, 0x04, 0xFF, 0x00, 0x00, 0x00, 0x03, 0x04, 0x7F, 0x00, 0x00, 0x01,
       0x36, 0x04, 0x7F, 0x00, 0x00, 0x01, 0xFF] ∧
    replyType (dhcpRequest 0x03) = 0x05 := by decide
-- V32, V32b, V32c
theorem test_ntp_V32 :
    (ntpReply (0x1B :: List.replicate 47 0x00) 1700000000).drop 40 = [0xE8, 0xFE, 0x6F, 0x80, 0, 0, 0, 0] ∧
    ntpSeconds 2085978496 = 0 ∧ ntpSeconds 0 = 0x83AA7E80 := by decide
-- V33
theorem test_pseudoHeader_V33 :
    pseudoHeader ⟨10, 0, 0, 5⟩ 9000 2 = [0x0A, 0x00, 0x00, 0x05, 0x23, 0x28, 0x00, 0x02] := by decide

/-! ### Witnesses: states and operands that meet the hypotheses of each statement, at the ends of their ranges -/

/-- The two bytes of a 16-bit field of socket 0 at cell `c`, in the default order. -/
def field (c : Nat) (v : Half) : List Host.Cell := [(0x400 + c, loByte v), (0x401 + c, hiByte v)]

/-- An open UDP socket 0 that sends to `port`, with `queued` bytes in the transmit ring and `held` in the receive ring. -/
def udp (port queued held : Half) : State :=
  chip .a .udpReady (BitVec.truncate 11 held) (field 0x10 port ++ field 0x24 queued ++ field 0x26 held) calm

/-- The same with an established connection and the draws `e`. -/
def tcp (held : Half) (e : NetIn) : State := chip .a .established (BitVec.truncate 11 held) (field 0x26 held) e

theorem witness_DecodeOfEncodeIsTheInstruction :
    (defaultConfig .a).codes.Nodup ∧ (Instr.aWrite 0xFFFF 0xFF).wellFormed (defaultConfig .a) = true ∧
    (Instr.bRead 31 3 0xFFFF []).wellFormed (defaultConfig .b) = true ∧
    (Instr.cmdNop 3 0xFF).wellFormed (defaultConfig .b) = true := by decide
theorem witness_EncodeOfDecodeIsTheBytes :
    decode (defaultConfig .a) .bus [0xF0, 0xFF, 0xFF, 0xFF] = .ok (.aWrite 0xFFFF 0xFF) ∧
    decode (defaultConfig .b) .bus [0xFF, 0xFF, 0xF8] = .ok (.bRead 31 0 0xFFFF []) ∧
    decode (defaultConfig .b) (.cr 3) [0x41] = .ok (.cmdNop 3 0x41) := by decide
theorem witness_StepRunsTheDecodedInstruction :
    (sending .b [0x00, 0x00, 0x14] []).bus = .frame [0x00, 0x00, 0x14] :: [] ∧
    decode (sending .b [0x00, 0x00, 0x14] []).store.cfg .bus [0x00, 0x00, 0x14] = .ok (.bWrite 2 0 0 []) ∧
    (sending .a [0x55, 0x55] []).bus = .frame [0x55, 0x55] :: [] ∧
    decode (sending .a [0x55, 0x55] []).store.cfg .bus [0x55, 0x55] = .error .chained := by decide
theorem witness_NoStepChangesTheParameters :
    ∃ t, step { quiet .a [] with bus := [.levels ⟨false, true, true⟩] } = .next t := ⟨_, rfl⟩
theorem witness_AWriteIsOneRouterWrite :
    (quiet .a [(0x10, 0x5A)]).store.cfg.model = .a ∧ (quiet .a [(0x10, 0x5A)]).BusIdle := by decide
theorem witness_AReadDeliversTheCell :
    (tcp 7 calm).store.cfg.model = .a ∧ (tcp 7 calm).BusIdle := by decide
theorem witness_ANopIsIgnored :
    (quiet .a []).store.cfg.model = .a ∧ (quiet .a []).BusIdle ∧ (0xF1 : Byte) ≠ 0xF0 ∧ (0xF1 : Byte) ≠ 0x0F := by
  decide
/-- A Model B chip whose staging buffer holds `cap` bytes. -/
def staging (cap : Nat) : State := State.resetWith { defaultConfig .b with stageCap := cap }
theorem witness_BWriteCommitsOnDeselect :
    (staging 65535).store.cfg.model = .b ∧ (staging 65535).store.cfg.stageCap ≤ 65535 ∧ (staging 65535).BusIdle ∧
    (staging 1).store.cfg.stageCap ≤ 65535 ∧ (staging 1).BusIdle := by decide
theorem witness_BReadDeliversTheRegion :
    (quiet .b [(0x10, 0x81)]).store.cfg.model = .b ∧ (quiet .b [(0x10, 0x81)]).BusIdle := by decide
theorem witness_AWriteToPlainCellFrame :
    (quiet .a []).store.cfg.model = .a ∧ (quiet .a []).BusIdle ∧ (quiet .a []).store.Quiet ∧
    (chip .a .init 0 [] calm).store.Quiet ∧ (0x00FF : Half).toNat < 0x100 ∧
    [0x4000, 0x5FFF, 0x6000, 0x7FFF].all
      (fun a : Half => decide (0x4000 ≤ a.toNat) && decide (a.toNat < 0x8000)) = true := by decide
theorem witness_DeselectedTickIdlesTheBus : (⟨true, true, true⟩ : Lines).selN = true := rfl
/-- A Model A chip in the data transfer of a transaction, with `k` bits of it clocked. -/
def receiving (k : BitVec 3) (dir : Dir) : State :=
  { quiet .a [] with
    smp := { Sampler.reset with bitcnt := k }
    dec := { Decoder.reset .a with st := .aData, addr := 0x0010, dir := dir } }
theorem witness_DecoderWritesAreConfined_tick :
    ((quiet .a []).store.cfg.model = .a ∧ (⟨true, false, false⟩ : Lines).selN = true) ∧
    ((receiving 6 .write).store.cfg.model = .a ∧ ((receiving 6 .write).smp.step ⟨false, true, true⟩).ready = false) ∧
    ((receiving 7 .read).store.cfg.model = .a ∧ (receiving 7 .read).dec.dir = .read) ∧
    ((quiet .a []).store.cfg.model = .a ∧ (quiet .a []).dec.st ≠ .aData) ∧
    ((quiet .b []).store.cfg.model = .b ∧ (⟨false, true, true⟩ : Lines).selN = false) := by decide
theorem witness_DecoderWritesAreConfined_frame :
    (sending .a [0xF0, 0x00, 0x30] []).BusIdle ∧
    (sending .a [0xF0, 0x00, 0x30] []).bus = .frame [0xF0, 0x00, 0x30] :: [] ∧
    decode (sending .a [0xF0, 0x00, 0x30] []).store.cfg .bus [0xF0, 0x00, 0x30] = .error .aborted ∧
    (sending .b [0x00, 0x00] []).BusIdle ∧ (sending .b [0x00, 0x00] []).bus = .frame [0x00, 0x00] :: [] ∧
    decode (sending .b [0x00, 0x00] []).store.cfg .bus [0x00, 0x00] = .error .aborted ∧
    (sending .b [] []).BusIdle ∧ (sending .b [] []).bus = .frame [] :: [] ∧
    decode (sending .b [] []).store.cfg .bus [] = .error .empty := by decide
/-- A Model B chip with `k` bytes staged of at most four. -/
def staged (k : Half) : State :=
  { staging 4 with dec := { (staging 4).dec with st := .bData, dir := .write, count := k } }
theorem witness_StagingStopsAtItsCapacity :
    (staged 3).store.cfg.stageCap ≤ 65535 ∧ (staged 3).dec.count.toNat < (staged 3).store.cfg.stageCap ∧
    (staged 4).store.cfg.stageCap ≤ (staged 4).dec.count.toNat := by decide
theorem witness_QuiescentTickChangesNothing :
    (⟨true, true, false⟩ : Lines).selN = true ∧
    [SockState.closed, .init, .listen, .established, .udpReady].all (fun k =>
      decide (chip .a k 0 [] calm).BusIdle && decide (∀ n : Fin 4, (chip .a k 0 [] calm).store.PollIdle n)) = true := by
  decide
theorem witness_SamplerAssemblesMsbFirst :
    Sampler.reset.bitcnt = 0 ∧ Sampler.reset.ready = false ∧ (0 : Nat) < 8 ∧ (7 : Nat) < 8 := by decide
theorem witness_PrimedByteShiftsOutMsbFirst : (0 : Nat) < 8 ∧ (7 : Nat) < 8 := by decide
theorem witness_SamplerSteadyTick :
    (⟨false, true, true⟩ : Lines).selN = false ∧
    ¬ (({ Sampler.reset with prevClk := true } : Sampler).prevClk = false ∧ (⟨false, true, true⟩ : Lines).clk = true) ∧
    ¬ (Sampler.reset.prevClk = false ∧ (⟨false, false, true⟩ : Lines).clk = true) := by decide
theorem witness_PlainCellsRoundTrip :
    (0x00FF : Half).toNat < 0x100 ∧ 0x4000 ≤ (0x4000 : Half).toNat ∧ (0x7FFF : Half).toNat < 0x8000 ∧
    (0x0729 : Half).toNat = bankAddr 3 0x29 ∧ (0x29 : Byte) ≠ 0x01 ∧ (0x29 : Byte) ≠ 0x02 ∧
    isReadOnlyCell 0x29 = false ∧ (0x0400 : Half).toNat = bankAddr 0 0x00 ∧ isReadOnlyCell 0x00 = false := by decide
theorem witness_UnmappedAddressesAreIgnored :
    [0x0100, 0x03FF, 0x0800, 0x3FFF, 0x8000, 0xFFFF].all (fun a : Half => !isMapped a.toNat) = true := by decide
theorem witness_ReadOnlyCellsIgnoreWrites :
    (0x03 : Byte) = 0x03 ∧ (0x20 : Byte) = 0x20 ∧ (0x21 : Byte) = 0x21 ∧ (0x22 : Byte) = 0x22 ∧
    (0x23 : Byte) = 0x23 ∧ (0x26 : Byte) = 0x26 ∧ (0x27 : Byte) = 0x27 := by decide
theorem witness_TxWrWriteRecomputesFreeSize : (0x24 : Byte) = 0x24 ∧ (0x25 : Byte) = 0x25 := by decide
theorem witness_StoringCellsJustStore :
    [0x00, 0x04, 0x0C, 0x1F, 0x28, 0x29, 0x2A, 0xFF].all (fun c : Byte =>
      c != 0x01 && c != 0x02 && !isReadOnlyCell c && c != 0x24 && c != 0x25) = true := by decide
theorem witness_CommonAndRingCellsJustStore :
    (0x00FF : Half).toNat < 0x100 ∧ 0x4000 ≤ (0x4000 : Half).toNat ∧ (0x5FFF : Half).toNat < 0x6000 ∧
    0x6000 ≤ (0x6000 : Half).toNat ∧ (0x7FFF : Half).toNat < 0x8000 := by decide
theorem witness_SrReadsTheStateCode :
    (chip .a .closed 0 [] calm).store.state 0 = .closed ∧ (chip .a .init 0 [] calm).store.state 0 = .init ∧
    (chip .a .listen 0 [] calm).store.state 0 = .listen ∧
    (chip .a .established 0 [] calm).store.state 0 = .established ∧
    (chip .a .udpReady 0 [] calm).store.state 0 = .udpReady := by decide
theorem witness_OpenSucceeds :
    (quiet .a [(0x400, 0x01)]).store.state 0 = .closed ∧ ((quiet .a [(0x400, 0x01)]).store.net 0).createOk = true ∧
    (quiet .a [(0x400, 0x01)]).store.proto 0 = 1 ∧ (quiet .a [(0x400, 0x82)]).store.proto 0 = 2 := by decide
/-- A closed socket whose next creation fails. -/
def refusing (mr : Byte) : State := chip .a .closed 0 [(0x400, mr)] { calm with createOk := false }
theorem witness_OpenFailureChangesNothing :
    (refusing 0x01).store.state 0 = .closed ∧ ((refusing 0x01).store.net 0).createOk = false ∧
    (refusing 0x01).store.proto 0 = 1 ∧ (refusing 0x02).store.state 0 = .closed ∧
    ((refusing 0x02).store.net 0).createOk = false ∧ (refusing 0x02).store.proto 0 = 2 := by decide
theorem witness_ListenRule :
    (chip .a .init 0 [] calm).store.state 0 = .init ∧ (chip .a .listen 0 [] calm).store.state 0 ≠ .init := by decide
theorem witness_ConnectRule :
    (chip .a .init 0 remote calm).store.state 0 = .init ∧ (quiet .a []).store.state 0 ≠ .init := by decide
theorem witness_DisconAndCloseRelease :
    (tcp 0 calm).store.state 0 = .established ∧ (udp 0 0 0).store.state 0 = .udpReady ∧
    (chip .a .listen 0 [] calm).store.state 0 ≠ .closed ∧ (chip .a .listen 0 [] calm).store.state 0 ≠ .established ∧
    (chip .a .listen 0 [] calm).store.state 0 ≠ .udpReady ∧ (quiet .a []).store.state 0 = .closed := by decide
theorem witness_SendTcpDrainsTheRing : (tcp 0 calm).store.state 0 = .established := by decide
theorem witness_SendUdpDrainsTheRing :
    (udp 68 3 0).store.state 0 = .udpReady ∧ (udp 68 3 0).store.dport 0 ≠ (udp 68 3 0).store.cfg.dhcpPort ∧
    (udp 68 3 0).store.dport 0 ≠ (udp 68 3 0).store.cfg.ntpPort := by decide
-- V30d: room for exactly the 270 bytes
theorem witness_SendToDhcpPortIsAnswered :
    (udp 67 0 1777).store.state 0 = .udpReady ∧
    (udp 67 0 1777).store.dport 0 = (udp 67 0 1777).store.cfg.dhcpPort ∧
    270 ≤ (udp 67 0 1777).store.rxRoom 0 := by decide
theorem witness_SendToNtpPortIsAnswered :
    (udp 123 48 1991).store.cfg.Wf ∧ (udp 123 48 1991).store.cfg.ntpLen = 48 ∧
    (udp 123 48 1991).store.state 0 = .udpReady ∧
    (udp 123 48 1991).store.dport 0 = (udp 123 48 1991).store.cfg.ntpPort ∧
    ((udp 123 48 1991).store.queuedBytes 0).length = 48 ∧ 56 ≤ (udp 123 48 1991).store.rxRoom 0 := by decide
-- V30c, V32a, and one byte too little room for the time-sync reply
theorem witness_UnansweredLoopbackSendStillCompletes :
    (udp 67 0 1778).store.cfg.Wf ∧ (udp 67 0 1778).store.cfg.ntpLen = 48 ∧
    (udp 67 0 1778).store.state 0 = .udpReady ∧
    (udp 67 0 1778).store.dport 0 = (udp 67 0 1778).store.cfg.dhcpPort ∧ (udp 67 0 1778).store.rxRoom 0 < 270 ∧
    (udp 123 47 0).store.dport 0 = (udp 123 47 0).store.cfg.ntpPort ∧
    ((udp 123 47 0).store.queuedBytes 0).length ≠ 48 ∧
    (udp 123 48 1992).store.dport 0 = (udp 123 48 1992).store.cfg.ntpPort ∧
    (udp 123 48 1992).store.rxRoom 0 < 56 := by decide
theorem witness_RecvRecomputesReceivedSize :
    (tcp 5 calm).store.state 0 = .established ∧ (udp 9 0 5).store.state 0 = .udpReady ∧
    (quiet .a []).store.state 0 ≠ .established ∧ (quiet .a []).store.state 0 ≠ .udpReady := by decide
theorem witness_MatrixNoOps :
    (tcp 0 calm).store.state 0 ≠ .closed ∧ (tcp 0 calm).store.state 0 ≠ .init ∧
    (quiet .a [(0x400, 0x03)]).store.proto 0 ≠ 1 ∧ (quiet .a [(0x400, 0x03)]).store.proto 0 ≠ 2 ∧
    (chip .a .init 0 [] calm).store.state 0 ≠ .established ∧ (chip .a .init 0 [] calm).store.state 0 ≠ .udpReady ∧
    (quiet .a []).store.state 0 = .closed ∧ Instr.cmdNop 0 0xFF = .cmdNop 0 0xFF := by decide
theorem witness_DeliveryIntoTheReceiveRing :
    ([0xAA] : List Byte).length ≤ (tcp 2046 calm).store.rxRoom 0 ∧ ([] : List Byte).length ≤ (tcp 2047 calm).store.rxRoom 0 ∧
    (List.replicate 2047 (0x11 : Byte)).length ≤ (tcp 0 calm).store.rxRoom 0 :=
  ⟨by decide, by decide, by rw [List.length_replicate]; decide⟩
/-- A peer waiting to be accepted. -/
def caller : Peer := ⟨⟨127, 0, 0, 1⟩, 50000⟩
/-- A listening socket 0 with a peer, or none, waiting. -/
def listening (p : Option Peer) : State := chip .a .listen 0 [] { calm with pending := p }
theorem witness_AcceptRecordsThePeer :
    (listening (some caller)).store.state 0 = .listen ∧
    ((listening (some caller)).store.net 0).pending = some caller ∧ (listening none).store.state 0 = .listen ∧
    ((listening none).store.net 0).pending = none := by decide
theorem witness_PeerDisconnectWins :
    (tcp 3 { calm with peerClosed := true, stream := [0x01] }).store.state 0 = .established ∧
    ((tcp 3 { calm with peerClosed := true, stream := [0x01] }).store.net 0).peerClosed = true := by decide
theorem witness_StreamPullTakesWhatFits :
    (tcp 2046 { calm with stream := [0x01, 0x02] }).store.state 0 = .established ∧
    ((tcp 2046 { calm with stream := [0x01, 0x02] }).store.net 0).peerClosed = false ∧
    min ((tcp 2046 { calm with stream := [0x01, 0x02] }).store.net 0).stream.length
      (2047 - ((tcp 2046 { calm with stream := [0x01, 0x02] }).store.rxRsr 0).toNat) = 1 ∧
    (tcp 2047 { calm with stream := [0x01] }).store.state 0 = .established ∧
    min ((tcp 2047 { calm with stream := [0x01] }).store.net 0).stream.length
      (2047 - ((tcp 2047 { calm with stream := [0x01] }).store.rxRsr 0).toNat) = 0 := by decide
/-- The datagram of V61. -/
def packet : Datagram := ⟨⟨10, 0, 0, 5⟩, 9000, [0x41, 0x42]⟩
/-- An open UDP socket 0 with a datagram, or none, offered. -/
def offered (held : Half) (d : Option Datagram) : State :=
  chip .a .udpReady (BitVec.truncate 11 held) (field 0x26 held) { calm with dgram := d }
-- V62, V63
theorem witness_DatagramIsWholeOrNothing :
    (offered 2037 (some packet)).store.state 0 = .udpReady ∧ ((offered 0 none).store.net 0).dgram = none ∧
    ((offered 2037 (some packet)).store.net 0).dgram = some packet ∧
    8 + packet.payload.length ≤ 2047 - ((offered 2037 (some packet)).store.rxRsr 0).toNat ∧
    2047 - ((offered 2038 (some packet)).store.rxRsr 0).toNat < 8 + packet.payload.length := by decide
theorem witness_ClosedAndInitHaveNoEvent :
    (quiet .a []).store.state 0 = .closed ∧ (chip .a .init 0 [] calm).store.state 0 = .init := by decide
theorem witness_SocketsWriteOnlyTheirOwn : (1 : Fin 4) ≠ 0 ∧ (3 : Fin 4) ≠ 2 := by decide
-- two chips that differ in a cell of the common block and in what NetEnv answers socket 1
theorem witness_SocketsReadOnlyTheirOwn :
    let st := (tcp 3 calm).store
    let su := { st.poke 0x10 0x5A with envq := [⟨#v[calm, { calm with bindOk := false }, calm, calm], 1700000000⟩] }
    st.cfg = su.cfg ∧ st.net 0 = su.net 0 ∧ st.env.nowUnix = su.env.nowUnix ∧ st.sock[(0 : Fin 4)] = su.sock[(0 : Fin 4)] ∧
      (∀ a : Nat, ownAddr 0 a → st.peek a = su.peek a) ∧ st.peek 0x10 ≠ su.peek 0x10 ∧ st.env ≠ su.env := by
  refine ⟨rfl, rfl, rfl, rfl, fun a h => ?_, by decide, by decide⟩
  have hne : a ≠ 0x10 := by
    rcases h with ⟨c, rfl⟩ | ⟨i, rfl⟩ | ⟨i, rfl⟩
    · unfold bankAddr; omega
    · unfold txAddr; omega
    · unfold rxAddr; omega
  exact (((tcp 3 calm).store.peek_poke 0x10 a 0x5A).trans (if_neg hne)).symm
theorem witness_DeliveryAfterClearInOneTick :
    (tcp 2046 { calm with stream := [0x01] }).store.state 0 = .established ∧
    ((tcp 2046 { calm with stream := [0x01] }).store.net 0).peerClosed = false ∧
    ((tcp 2046 { calm with stream := [0x01] }).store.net 0).stream ≠ [] ∧
    ((tcp 2046 { calm with stream := [0x01] }).store.rxRsr 0).toNat < 2047 ∧
    (offered 2037 (some packet)).store.state 0 = .udpReady ∧
    ((offered 2037 (some packet)).store.net 0).dgram = some packet ∧
    8 + packet.payload.length ≤ 2047 - ((offered 2037 (some packet)).store.rxRsr 0).toNat := by decide
theorem witness_BurstStoresMrBeforeOpen :
    (quiet .b []).store.state 3 = .closed ∧ ((quiet .b []).store.net 3).createOk = true ∧
    regionBase (quiet .b []).store.cfg (bankBsb 3) = some (BitVec.ofNat 16 (bankAddr 3 0)) ∧
    regionBase (quiet .b []).store.cfg (bankBsb 0) = some (BitVec.ofNat 16 (bankAddr 0 0)) := by decide
theorem witness_MessageTypeScan :
    (List.replicate 240 (0x00 : Byte)).length = 240 ∧ 1 ≤ (0x01 : Byte).toNat ∧ 1 ≤ (0xFF : Byte).toNat ∧
    (0x01 : Byte) ≠ 0 ∧ (0x01 : Byte) ≠ 53 ∧ (0x01 : Byte) ≠ 255 ∧ ([] : List Byte).length = (0x00 : Byte).toNat ∧
    ([] : List Byte).length < (0x01 : Byte).toNat ∧ ([] : List Byte).length ≤ 240 ∧
    (List.replicate 255 (0x00 : Byte)).length = (0xFF : Byte).toNat ∧
    (List.replicate 240 (0x00 : Byte)).length ≤ 240 :=
  ⟨List.length_replicate, by decide, by decide, by decide, by decide, by decide, by decide, by decide, by decide,
    List.length_replicate, List.length_replicate.le⟩
theorem witness_NtpReplyLayout : (0x1B :: List.replicate 47 (0x00 : Byte)).length = 48 := by decide
theorem witness_InvAtReset :
    (staging 1).store.cfg.Wf ∧ (staging 65535).store.cfg.Wf ∧ (defaultConfig .a).Wf := by decide
/-- The same with select about to be deasserted. -/
def committing : State := { staged 4 with bus := [.levels ⟨true, false, false⟩] }
theorem witness_EveryStepKeepsInv : committing.Inv ∧ ∃ t, step committing = .next t := ⟨by decide, _, rfl⟩
theorem witness_ReceivedSizeTracksTheRing :
    (tcp 2047 calm).store.RsrTracks 0 ∧ (0x0427 : Half).toNat ≠ bankAddr 0 0x28 ∧
    (0x0427 : Half).toNat ≠ bankAddr 0 0x29 ∧ (0x042A : Half).toNat ≠ bankAddr 0 0x29 := by decide
theorem witness_LifecycleTransitions :
    (0x0400 : Half).toNat ≠ bankAddr 0 0x01 ∧ (0x0402 : Half).toNat ≠ bankAddr 0 0x01 := by decide
theorem witness_PowerOnValues : (0x1F : Byte) ≠ 0x20 ∧ (0x22 : Byte) ≠ 0x20 ∧ (0x22 : Byte) ≠ 0x21 := by decide

end Sys2Proof.Tests
end

section
/-! PROOF. Reads and writes of SR, the lifecycle state's cell (R33, R204, R209). -/

namespace Sys2Proof.Machine

@[simp] theorem Store.sockRead_sr (st : Store) (n : Fin 4) : st.sockRead n 0x03 = (st.state n).code := if_pos rfl

/-- No read-only cell is CR or IR, whose writes come before the read-only test in R205. -/
theorem isReadOnlyCell_ne_command_cells {c : Byte} (h : isReadOnlyCell c = true) : c ≠ 0x01 ∧ c ≠ 0x02 := by
  constructor <;> rintro rfl <;> exact absurd h (by decide)

/-- A write to a read-only cell is ignored (R209, R210). -/
theorem Store.sockWrite_readOnly (st : Store) (n : Fin 4) {c : Byte} (v : Byte) (h : isReadOnlyCell c = true) :
    st.sockWrite n c v = st := by
  obtain ⟨hcr, hir⟩ := isReadOnlyCell_ne_command_cells h
  rw [Store.sockWrite, if_neg hcr, if_neg hir, if_pos h]

theorem SockState.code_mem (x : SockState) : x.code ∈ ([0x00, 0x13, 0x14, 0x17, 0x22] : List Byte) := by
  cases x <;> decide

theorem Store.routerRead_sr (st : Store) (n : Fin 4) :
    st.routerRead (BitVec.ofNat 16 (bankAddr n 0x03)) = (st.state n).code := by
  rw [Store.routerRead_bank, Store.sockRead_sr]

theorem Store.routerRead_sr_of_state {st : Store} {n : Fin 4} {x : SockState} (h : st.state n = x) :
    st.routerRead (BitVec.ofNat 16 (bankAddr n 0x03)) = x.code :=
  h ▸ st.routerRead_sr n

theorem Store.routerWrite_sr (st : Store) (n : Fin 4) (v : Byte) :
    st.routerWrite (BitVec.ofNat 16 (bankAddr n 0x03)) v = st := by
  rw [Store.routerWrite_bank, st.sockWrite_readOnly n v (by decide)]

/-- Settles O30: an SR read is the state's code, of which there are five, and SR is a read-only cell. -/
theorem srReadsTheStateCode : Obligations.SrReadsTheStateCode := by
  intro st n v
  have hmem : st.routerRead (BitVec.ofNat 16 (bankAddr n 0x03)) ∈ ([0x00, 0x13, 0x14, 0x17, 0x22] : List Byte) :=
    st.routerRead_sr n ▸ (st.state n).code_mem
  -- each state's code is its constant by unfolding `SockState.code`
  exact ⟨Store.routerRead_sr_of_state, Store.routerRead_sr_of_state, Store.routerRead_sr_of_state,
    Store.routerRead_sr_of_state, Store.routerRead_sr_of_state, hmem, st.routerWrite_sr n v⟩

end Sys2Proof.Machine
end

section
/-! PROOF. The decoder and the encoder of the two instruction streams (R102 to R109) agree: per stream, one lemma for
what decodes and one for what an encoding decodes to; the stream and the variant then choose between them. -/

namespace Sys2Proof

open Machine

/-! ### Operand bytes -/

theorem Machine.hiByte_addrOf (hi lo : Byte) : hiByte (addrOf hi lo) = hi := BitVec.extractLsb'_append_eq_left

theorem Machine.loByte_addrOf (hi lo : Byte) : loByte (addrOf hi lo) = lo := BitVec.extractLsb'_append_eq_right

/-- The control byte of a byte's own selector and ignored bits, in the direction the byte has (R105). -/
theorem Machine.ctlByte_of_ctlWrite {ctl : Byte} {w : Bool} (h : ctlWrite ctl = w) :
    ctlByte (ctlBsb ctl) w (ctlMm ctl) = ctl :=
  h ▸ ctlByte_fields ctl

/-! ### Model A transactions (R102, R103) -/

theorem wellFormed_aNop_iff {c : Config} {op : Byte} :
    (Instr.aNop op).wellFormed c = true ↔ c.model = .a ∧ op ≠ 0xF0 ∧ op ≠ 0x0F := by
  simp [Instr.wellFormed, and_assoc]

theorem decodeA_nop {op : Byte} (hwrite : op ≠ 0xF0) (hread : op ≠ 0x0F) (rest : List Byte) :
    decodeA (op :: rest) = .ok (.aNop op, rest) := by
  simp only [decodeA, if_neg hwrite, if_neg hread]

/-- A decoded Model A transaction is well-formed, and its encoding is what was taken off the front of the bytes. -/
theorem encode_of_decodeA {c : Config} {bytes more : List Byte} {i : Instr} (hm : c.model = .a)
    (h : decodeA bytes = .ok (i, more)) : encode c i ++ more = bytes ∧ i.wellFormed c = true ∧ i.source = .bus := by
  unfold decodeA at h
  split at h
  · cases h
  next op rest =>
    split_ifs at h with hwrite hread
    · split at h
      · cases h; simp [encode, Instr.wellFormed, Instr.source, hm, hiByte_addrOf, loByte_addrOf, hwrite]
      · cases h
    · split at h
      · cases h; simp [encode, Instr.wellFormed, Instr.source, hm, hiByte_addrOf, loByte_addrOf, hread]
      · cases h
    · cases h; exact ⟨rfl, wellFormed_aNop_iff.2 ⟨hm, hwrite, hread⟩, rfl⟩

/-- An encoded Model A transaction decodes to itself, whatever bytes follow it under the same selection (R161). -/
theorem decodeA_of_encode {c : Config} {i : Instr} (hm : c.model = .a) (hs : i.source = .bus)
    (hw : i.wellFormed c = true) (more : List Byte) : decodeA (encode c i ++ more) = .ok (i, more) := by
  cases i with
  | aWrite a d => simp [encode, decodeA, addrOf_hi_lo]
  | aRead a x => simp [encode, decodeA, addrOf_hi_lo]
  | aNop op =>
    obtain ⟨-, hwrite, hread⟩ := wellFormed_aNop_iff.1 hw
    exact decodeA_nop hwrite hread more
  | bRead | bWrite => simp [Instr.wellFormed, hm] at hw
  | cmdOpen | cmdListen | cmdConnect | cmdDiscon | cmdClose | cmdSend | cmdRecv | cmdNop => cases hs

/-- The bytes of one selection are one Model A transaction where no byte is left over (R161). -/
theorem decodeWholeA_eq_ok_iff {bytes : List Byte} {i : Instr} :
    decodeWholeA bytes = .ok i ↔ decodeA bytes = .ok (i, []) := by
  unfold decodeWholeA
  split <;> simp_all

/-! ### Model B transactions (R104, R105) -/

theorem encode_of_decodeWholeB {c : Config} {bytes : List Byte} {i : Instr} (hm : c.model = .b)
    (h : decodeWholeB bytes = .ok i) : encode c i = bytes ∧ i.wellFormed c = true ∧ i.source = .bus := by
  unfold decodeWholeB at h
  split at h
  · cases h
  next hi lo ctl data =>
    split at h
    next hdir =>
      cases h
      simp [encode, Instr.wellFormed, Instr.source, hm, hiByte_addrOf, loByte_addrOf, ctlByte_of_ctlWrite hdir]
    next hdir =>
      cases h
      simp [encode, Instr.wellFormed, Instr.source, hm, hiByte_addrOf, loByte_addrOf,
        ctlByte_of_ctlWrite (Bool.eq_false_of_not_eq_true hdir)]
  · cases h

theorem decodeWholeB_of_encode {c : Config} {i : Instr} (hm : c.model = .b) (hs : i.source = .bus)
    (hw : i.wellFormed c = true) : decodeWholeB (encode c i) = .ok i := by
  cases i with
  | bRead | bWrite =>
    simp [encode, decodeWholeB, ctlWrite_ctlByte, ctlBsb_ctlByte, ctlMm_ctlByte, addrOf_hi_lo]
  | aWrite | aRead | aNop => simp [Instr.wellFormed, hm] at hw
  | cmdOpen | cmdListen | cmdConnect | cmdDiscon | cmdClose | cmdSend | cmdRecv | cmdNop => cases hs

/-! ### Socket commands (R109) -/

/-- No hypothesis on the codes: where two are equal, the first in the order of R240 wins and still encodes to the
byte. -/
theorem encode_decodeCommand (c : Config) (n : Fin 4) (v : Byte) :
    encode c (decodeCommand c n v) = [v] ∧ (decodeCommand c n v).wellFormed c = true ∧
      (decodeCommand c n v).source = .cr n := by
  unfold decodeCommand
  split_ifs <;> simp_all [encode, Instr.wellFormed, Instr.source, Config.codes]

/-- Distinct codes are needed here: a code equal to an earlier one of R240 decodes to the earlier command. -/
theorem decodeCr_of_encode {c : Config} {n : Fin 4} {i : Instr} (hc : c.codes.Nodup) (hs : i.source = .cr n)
    (hw : i.wellFormed c = true) : decodeCr c n (encode c i) = .ok i := by
  -- a code is compared with the ones before it only
  have hearlier : c.codes.Pairwise fun x y => y ≠ x := hc.imp Ne.symm
  cases i with
  | aWrite | aRead | aNop | bRead | bWrite => cases hs
  | cmdNop m v =>
    cases hs
    have hv : v ∉ c.codes := by simpa [Instr.wellFormed] using hw
    simp_all [encode, decodeCr, decodeCommand, Config.codes]
  | cmdOpen | cmdListen | cmdConnect | cmdDiscon | cmdClose | cmdSend | cmdRecv =>
    cases hs
    simp only [Config.codes, List.pairwise_cons, List.forall_mem_cons] at hearlier
    simp [encode, decodeCr, decodeCommand, hearlier]

theorem encode_of_decodeCr {c : Config} {n : Fin 4} {bytes : List Byte} {i : Instr} (h : decodeCr c n bytes = .ok i) :
    encode c i = bytes ∧ i.wellFormed c = true ∧ i.source = .cr n := by
  unfold decodeCr at h
  split at h
  · cases h
  next v => cases h; exact encode_decodeCommand c n v
  · cases h

/-! ### The decoder under its parameters -/

theorem decode_cr (c : Config) (n : Fin 4) (bytes : List Byte) : decode c (.cr n) bytes = decodeCr c n bytes := rfl

theorem decode_bus_a {c : Config} (hm : c.model = .a) (bytes : List Byte) :
    decode c .bus bytes = decodeWholeA bytes := by
  simp [decode, hm]

theorem decode_bus_b {c : Config} (hm : c.model = .b) (bytes : List Byte) :
    decode c .bus bytes = decodeWholeB bytes := by
  simp [decode, hm]

/-- Settles O1, by the stream the instruction belongs to and the variant of the chip. -/
theorem decodeOfEncodeIsTheInstruction : Obligations.DecodeOfEncodeIsTheInstruction := by
  intro c i hc hw
  cases hs : i.source with
  | cr n => rw [decode_cr, decodeCr_of_encode hc hs hw]
  | bus =>
    cases hm : c.model with
    | a =>
      have hfront : decodeA (encode c i ++ []) = .ok (i, []) := decodeA_of_encode hm hs hw []
      rw [decode_bus_a hm, decodeWholeA_eq_ok_iff, ← hfront, List.append_nil]
    | b => rw [decode_bus_b hm, decodeWholeB_of_encode hm hs hw]

/-- Settles O2, by the stream the bytes are read from and the variant of the chip. -/
theorem encodeOfDecodeIsTheBytes : Obligations.EncodeOfDecodeIsTheBytes := by
  intro c src bytes i h
  cases src with
  | cr n => exact encode_of_decodeCr h
  | bus =>
    cases hm : c.model with
    | a =>
      rw [decode_bus_a hm, decodeWholeA_eq_ok_iff] at h
      simpa using encode_of_decodeA hm h
    | b =>
      rw [decode_bus_b hm] at h
      exact encode_of_decodeWholeB hm h

/-- Settles O3: six closed words, run through the decoder of the default parameters. -/
theorem sampleWordsDecode : Obligations.SampleWordsDecode := by
  unfold Obligations.SampleWordsDecode
  decide

end Sys2Proof
end

section
/-! PROOF. The sampler's step without a rising edge (R134). -/

namespace Sys2Proof.Machine

/-- The branch of R134: select asserted rules out R131, and the missing rising edge rules out R132. -/
theorem Sampler.step_of_no_edge {p : Sampler} {l : Lines} (hsel : l.selN = false)
    (hedge : ¬ (p.prevClk = false ∧ l.clk = true)) : p.step l = p.steady l.clk := by
  have hguard : ¬ (!p.prevClk && l.clk) = true := by simpa using hedge
  rw [Sampler.step, hsel, if_neg Bool.false_ne_true, if_neg hguard]

/-- Settles O21: the tick takes the branch of R134, and that branch writes the remembered clock level alone. -/
theorem samplerSteadyTick : Obligations.SamplerSteadyTick := by
  intro p l hsel hedge
  calc p.step l = p.steady l.clk := Sampler.step_of_no_edge hsel hedge
    _ = { p with prevClk := l.clk } := rfl

end Sys2Proof.Machine
end

section
/-! PROOF. What a router write does to the command cell, to the read-only cells and to the transmit write pointer
(R207, R209 to R211). -/

namespace Sys2Proof.Machine

/-! ### CR: run the decoded command (R207) -/

theorem Store.sockWrite_cr (st : Store) (n : Fin 4) (v : Byte) :
    st.sockWrite n 0x01 v = ((st.setReg n 0x01 v).dispatch n v).setReg n 0x01 0x00 := if_pos rfl

/-- Every bank cell but SR reads its stored byte (R204). -/
theorem Store.sockRead_of_ne_sr (st : Store) (n : Fin 4) {c : Byte} (h : c ≠ 0x03) : st.sockRead n c = st.reg n c :=
  if_neg h

/-- Settles O5: the store between the two writes to CR is the one the decoded command leaves. -/
theorem crWriteRunsTheDecodedCommand : Obligations.CrWriteRunsTheDecodedCommand := by
  intro s n v
  have hwrite : s.store.routerWrite (BitVec.ofNat 16 (bankAddr n 0x01)) v =
      ((s.store.setReg n 0x01 v).dispatch n v).setReg n 0x01 0x00 := by
    rw [Store.routerWrite_bank, Store.sockWrite_cr]
  refine ⟨⟨_, exec_decodeCommand { s with store := s.store.setReg n 0x01 v } n v, hwrite⟩, ?_⟩
  rw [hwrite, Store.routerRead_bank, Store.sockRead_of_ne_sr _ n (by decide), Store.reg_setReg_same]

/-! ### The read-only cells (R209, R210) -/

theorem isReadOnlyCell_iff {c : Byte} : isReadOnlyCell c = true ↔
    c = 0x03 ∨ c = 0x20 ∨ c = 0x21 ∨ c = 0x22 ∨ c = 0x23 ∨ c = 0x26 ∨ c = 0x27 := by
  simp [isReadOnlyCell, or_assoc]

/-- Settles O25: the seven cells are the read-only ones. -/
theorem readOnlyCellsIgnoreWrites : Obligations.ReadOnlyCellsIgnoreWrites := by
  intro st n c v hc
  rw [Store.routerWrite_bank, st.sockWrite_readOnly n v (isReadOnlyCell_iff.2 hc)]

/-! ### TX_WR: recompute TX_FSR (R211) -/

/-- Invariant 1 of R41 puts TX_FSR in 1..2048. -/
theorem Store.txFsr_range {st : Store} {n : Fin 4} (h : st.FsrOk n) :
    1 ≤ (st.txFsr n).toNat ∧ (st.txFsr n).toNat ≤ 2048 := by
  have hlt := ringDiff_lt (st.txWr n).toNat (st.txRd n).toNat
  unfold Store.FsrOk at h
  omega

section
variable (st : Store) (n : Fin 4)

@[simp] theorem Store.updateFsr_sock : (st.updateFsr n).sock = st.sock := st.set16_sock n _ _
@[simp] theorem Store.updateFsr_events : (st.updateFsr n).events = st.events := st.set16_events n _ _

theorem Store.updateFsr_reg {c : Byte} (hlow : c ≠ 0x20) (hhigh : c ≠ 0x21) : (st.updateFsr n).reg n c = st.reg n c :=
  st.reg_set16_cell n n 0x20 c _ hlow hhigh

theorem Store.updateFsr_txRd : (st.updateFsr n).txRd n = st.txRd n :=
  st.get16_set16_cell n n 0x20 0x22 _ (by decide) (by decide) (by decide)

variable {c : Byte} (v : Byte) (hc : c = 0x24 ∨ c = 0x25)
include hc

/-- A cell of TX_WR is none of the cells R205 names before it. -/
theorem Store.sockWrite_txWr : st.sockWrite n c v = st.writeTxWr n c v := by
  have hother : c ≠ 0x01 ∧ c ≠ 0x02 ∧ ¬ isReadOnlyCell c = true := by rcases hc with rfl | rfl <;> decide
  obtain ⟨hcr, hir, hro⟩ := hother
  rw [Store.sockWrite, if_neg hcr, if_neg hir, if_neg hro, if_pos hc]

theorem Store.writeTxWr_reg : (st.writeTxWr n c v).reg n c = v := by
  have hfsr : c ≠ 0x20 ∧ c ≠ 0x21 := by rcases hc with rfl | rfl <;> decide
  rw [Store.writeTxWr, Store.updateFsr_reg _ n hfsr.1 hfsr.2, Store.reg_setReg_same]

theorem Store.writeTxWr_txRd : (st.writeTxWr n c v).txRd n = st.txRd n := by
  have hrd : 0x22 ≠ c ∧ 0x22 + 1 ≠ c := by rcases hc with rfl | rfl <;> decide
  rw [Store.writeTxWr, Store.updateFsr_txRd]
  exact st.get16_setReg_cell n n c 0x22 v hrd.1 hrd.2

omit hc

/-- The cells a write to TX_WR stores to: its own and the two of TX_FSR. -/
theorem Store.local_writeTxWr :
    Store.Local n (fun a => a = bankAddr n c ∨ a = bankAddr n 0x20 ∨ a = bankAddr n 0x21) st (st.writeTxWr n c v) :=
  (st.local_setReg n v (Or.inl rfl)).trans
    (Store.local_set16 _ n _ (Or.inr (Or.inl rfl)) (Or.inr (Or.inr rfl)))

end

/-- Settles O27: the write stores the byte, then recomputes TX_FSR. -/
theorem txWrWriteRecomputesFreeSize : Obligations.TxWrWriteRecomputesFreeSize := by
  intro st n c v hc
  simp only [Store.routerWrite_bank, st.sockWrite_txWr n v hc]
  have hfsr : (st.writeTxWr n c v).FsrOk n := Store.updateFsr_fsrOk (st.setReg n c v) n
  obtain ⟨hpos, hle⟩ := Store.txFsr_range hfsr
  exact ⟨st.writeTxWr_reg n v hc, hfsr, hpos, hle, st.writeTxWr_txRd n v hc, (st.local_writeTxWr n v).cells,
    Store.updateFsr_sock _ n, Store.updateFsr_events _ n⟩

end Sys2Proof.Machine
end

section
/-! PROOF. Router accesses to the common block and to the rings, whose cells have no rule of their own (R202, R214,
R215). -/

namespace Sys2Proof.Machine

theorem Store.peek_poke_same (st : Store) (a : Nat) (v : Byte) : (st.poke a v).peek a = v := by
  rw [Store.peek_poke, if_pos rfl]

/-- An address of the common block or of a ring (R71). -/
abbrev plainAddr (a : Nat) : Prop := a < 0x100 ∨ (0x4000 ≤ a ∧ a < 0x8000)

theorem isMapped_of_plainAddr {a : Nat} (h : plainAddr a) : isMapped a = true := by
  simp only [isMapped, Bool.or_eq_true, Bool.and_eq_true, decide_eq_true_eq]
  omega

/-- A ring address splits into the socket and the offset in its ring; both ring blocks start at a multiple of the
capacity. -/
theorem exists_ring_offset {base x : Nat} (hbase : base % 2048 = 0) (h : base ≤ x ∧ x < base + 0x2000) :
    ∃ (n : Fin 4) (i : BitVec 11),
      n.val = (x - base) / 2048 ∧ i.toNat = x % 2048 ∧ base + 0x800 * n.val + i.toNat = x := by
  have hi : (BitVec.ofNat 11 x).toNat = x % 2048 := BitVec.toNat_ofNat x 11
  refine ⟨⟨(x - base) / 2048, by omega⟩, BitVec.ofNat 11 x, rfl, hi, ?_⟩
  rw [hi]
  show base + 0x800 * ((x - base) / 2048) + x % 2048 = x
  omega

section
variable (st : Store) {a : Half} (v : Byte)

theorem Store.routerRead_of_plainAddr (h : plainAddr a.toNat) : st.routerRead a = st.peek a.toNat := by
  rw [st.routerRead_plain a (by omega), if_pos (isMapped_of_plainAddr h)]

theorem Store.routerWrite_of_plainAddr (h : plainAddr a.toNat) : st.routerWrite a v = st.poke a.toNat v := by
  rw [st.routerWrite_plain a v (by omega), if_pos (isMapped_of_plainAddr h)]

theorem Store.routerWrite_peek_of_plainAddr (h : plainAddr a.toNat) : (st.routerWrite a v).peek a.toNat = v := by
  rw [st.routerWrite_of_plainAddr v h, Store.peek_poke_same]

end

/-- Settles O29: at these addresses the router reads and writes the cell at the address itself, which in the ring blocks
is the socket's ring cell. -/
theorem commonAndRingCellsJustStore : Obligations.CommonAndRingCellsJustStore := by
  intro st a v
  refine ⟨fun h => st.routerRead_of_plainAddr (Or.inl h), fun h => ?_, fun h => ?_, fun h => ?_⟩
  · have hplain : plainAddr a.toNat := by omega
    obtain ⟨n, i, hn, hi, haddr⟩ := exists_ring_offset (base := 0x4000) rfl h
    have htx : txAddr n i = a.toNat := haddr
    refine ⟨n, i, hn, hi, ?_, ?_, htx⟩
    · rw [Store.tx, htx, st.routerRead_of_plainAddr hplain]
    · rw [Store.tx, htx, st.routerWrite_peek_of_plainAddr v hplain]
  · have hplain : plainAddr a.toNat := by omega
    obtain ⟨n, i, hn, hi, haddr⟩ := exists_ring_offset (base := 0x6000) rfl h
    have hrx : rxAddr n i = a.toNat := haddr
    refine ⟨n, i, hn, hi, ?_, ?_, hrx⟩
    · rw [Store.rx, hrx, st.routerRead_of_plainAddr hplain]
    · rw [Store.rx, hrx, st.routerWrite_peek_of_plainAddr v hplain]
  · refine ⟨st.routerWrite_peek_of_plainAddr v h, ?_⟩
    rw [st.routerWrite_of_plainAddr v h]
    exact ⟨fun b hb => (st.peek_poke a.toNat b v).trans (if_neg hb), st.poke_sock a.toNat v, st.poke_events a.toNat v⟩

end Sys2Proof.Machine
end

section
/-! PROOF. The socket commands that store to no cell: LISTEN and CONNECT, which put one request to NetEnv (R242, R243),
DISCON and CLOSE, which release the resources (R244, R245, R251). -/

namespace Sys2Proof.Machine

/-! ### A request to NetEnv: LISTEN and CONNECT -/

/-- What LISTEN and CONNECT do in `INIT`: `e` is emitted, and the state becomes `x` where NetEnv answers `ok`. -/
def Store.request (st : Store) (n : Fin 4) (e : NetEvent) (ok : Bool) (x : SockState) : Store :=
  if ok then (st.emit e).setState n x else st.emit e

section
variable {st : Store} {n : Fin 4} (e : NetEvent) (ok : Bool) (x : SockState)

theorem Store.local_request : Store.Local n (fun _ => False) st (st.request n e ok x) :=
  st.local_ite n (fun _ => (st.local_emit n e).trans (Store.local_setState _ n x)) fun _ => st.local_emit n e

theorem Store.request_state : (st.request n e ok x).state n = if ok then x else st.state n := by
  cases ok with
  | false => rfl
  | true => simp [Store.request]

theorem Store.request_widx : (st.request n e ok x).widx n = st.widx n := by
  cases ok with
  | false => rfl
  | true => exact Store.widx_setState _ n n x

theorem Store.request_resOut : (st.request n e ok x).resOut n = st.resOut n := by
  cases ok with
  | false => rfl
  | true => exact Store.resOut_setState _ n n x

theorem Store.request_resAcc : (st.request n e ok x).resAcc n = st.resAcc n := by
  cases ok with
  | false => rfl
  | true => exact Store.resAcc_setState _ n n x

theorem Store.request_events : (st.request n e ok x).events = st.events ++ [e] := by
  cases ok with
  | false => rfl
  | true => rfl

/-- A request in `INIT` changes the state where it is granted, appends its event, and keeps everything else. -/
theorem Store.request_spec (h : st.state n = .init) :
    let t := st.request n e ok x
    t.state n = (if ok then x else .init) ∧ t.widx n = st.widx n ∧ t.resOut n = st.resOut n ∧
      t.resAcc n = st.resAcc n ∧ t.events = st.events ++ [e] ∧ st.CellsKept t (fun _ => False) ∧ st.OthersKept t n := by
  intro t
  have hstate : t.state n = if ok then x else .init := h ▸ Store.request_state e ok x
  have hlocal : Store.Local n (fun _ => False) st t := Store.local_request e ok x
  exact ⟨hstate, Store.request_widx e ok x, Store.request_resOut e ok x, Store.request_resAcc e ok x,
    Store.request_events e ok x, hlocal.cells, hlocal.othersKept⟩

end

section
variable {st : Store} {n : Fin 4}

theorem Store.listenRule_of_init (h : st.state n = .init) :
    st.listenRule n = st.request n (.listen n (st.port n)) (st.net n).bindOk .listen := if_pos h

theorem Store.listenRule_of_ne_init (h : st.state n ≠ .init) : st.listenRule n = st := if_neg h

theorem Store.connectRule_of_init (h : st.state n = .init) :
    st.connectRule n = st.request n (.connect n (st.dipr n) (st.dport n)) (st.net n).connectOk .established := if_pos h

theorem Store.connectRule_of_ne_init (h : st.state n ≠ .init) : st.connectRule n = st := if_neg h

end

theorem exec_cmdListen (s : State) (n : Fin 4) :
    exec (.cmdListen n) s = .next { s with store := s.store.listenRule n } := rfl

theorem exec_cmdConnect (s : State) (n : Fin 4) :
    exec (.cmdConnect n) s = .next { s with store := s.store.connectRule n } := rfl

/-- Settles O33: in `INIT`, LISTEN is the request to bind PORT. -/
theorem listenRule : Obligations.ListenRule := by
  intro s n
  refine ⟨fun hinit => ⟨s.store.listenRule n, exec_cmdListen s n, ?_⟩, fun hother => ?_⟩
  · rw [Store.listenRule_of_init hinit]
    exact Store.request_spec (.listen n (s.store.port n)) (s.store.net n).bindOk .listen hinit
  · rw [exec_cmdListen, Store.listenRule_of_ne_init hother]

/-- Settles O34: in `INIT`, CONNECT is the request to connect to DIPR and DPORT. -/
theorem connectRule : Obligations.ConnectRule := by
  intro s n
  refine ⟨fun hinit => ⟨s.store.connectRule n, exec_cmdConnect s n, ?_⟩, fun hother => ?_⟩
  · rw [Store.connectRule_of_init hinit]
    exact Store.request_spec (.connect n (s.store.dipr n) (s.store.dport n)) (s.store.net n).connectOk .established hinit
  · rw [exec_cmdConnect, Store.connectRule_of_ne_init hother]

/-! ### Release of the resources: DISCON and CLOSE -/

section
variable {st : Store} {n : Fin 4}

theorem Store.disconRule_of_connected (h : st.state n = .established ∨ st.state n = .udpReady) :
    st.disconRule n = (st.release n).setState n .closed := if_pos h

theorem Store.disconRule_of_not_connected (htcp : st.state n ≠ .established) (hudp : st.state n ≠ .udpReady) :
    st.disconRule n = st := if_neg (not_or_intro htcp hudp)

theorem Store.closeRule_of_ne_closed (h : st.state n ≠ .closed) :
    st.closeRule n = (st.release n).setState n .closed := if_neg h

theorem Store.closeRule_of_closed (h : st.state n = .closed) : st.closeRule n = st := if_pos h

end

theorem exec_cmdDiscon (s : State) (n : Fin 4) :
    exec (.cmdDiscon n) s = .next { s with store := s.store.disconRule n } := rfl

theorem exec_cmdClose (s : State) (n : Fin 4) :
    exec (.cmdClose n) s = .next { s with store := s.store.closeRule n } := rfl

/-- Settles O35: where they act, DISCON and CLOSE leave the same store, the released and closed one. -/
theorem disconAndCloseRelease : Obligations.DisconAndCloseRelease := by
  intro s n
  refine ⟨fun i hi => ?_, fun htcp hudp => ?_, fun hclosed => ?_⟩
  · have hexec : exec i s = .next { s with store := (s.store.release n).setState n .closed } := by
      rcases hi with ⟨rfl, hconnected⟩ | ⟨rfl, hopen⟩
      · rw [exec_cmdDiscon, Store.disconRule_of_connected hconnected]
      · rw [exec_cmdClose, Store.closeRule_of_ne_closed hopen]
    obtain ⟨hstate, hout, hacc, hwidx, hevents⟩ := s.store.closed_spec n
    have hlocal := s.store.local_closed n
    exact ⟨_, hexec, hstate, hout, hacc, hwidx, hevents, hlocal.cells, hlocal.othersKept⟩
  · rw [exec_cmdDiscon, Store.disconRule_of_not_connected htcp hudp]
  · rw [exec_cmdClose, Store.closeRule_of_closed hclosed]

end Sys2Proof.Machine
end

section
/-! PROOF. The per-tick events of a socket that waits: `LISTEN` accepts a pending connection (R283), `CLOSED` and `INIT`
have no event (R288). -/

namespace Sys2Proof.Machine

/-! ### The peer's address in DIPR (R34, R283) -/

section
variable (st : Store) (n m : Fin 4) (ip : Ip) (w : Half)

@[simp] theorem Store.setDipr_events : (st.setDipr n ip).events = st.events := rfl
@[simp] theorem Store.setDipr_widx : (st.setDipr n ip).widx m = st.widx m := rfl
@[simp] theorem Store.setDipr_resOut : (st.setDipr n ip).resOut m = st.resOut m := rfl
@[simp] theorem Store.setDipr_resAcc : (st.setDipr n ip).resAcc m = st.resAcc m := rfl

/-- The four cells of DIPR are distinct, so each reads back its own octet. -/
@[simp] theorem Store.dipr_setDipr : (st.setDipr n ip).dipr n = ip := by
  simp [Store.dipr, Store.setDipr, Store.reg_setReg]

/-- DPORT stands behind DIPR: storing it leaves the address alone. -/
@[simp] theorem Store.dipr_set16_dport : (st.set16 n 0x10 w).dipr n = st.dipr n := by
  have hreg (c : Byte) (hlow : c ≠ 0x10) (hhigh : c ≠ 0x11) : (st.set16 n 0x10 w).reg n c = st.reg n c :=
    st.reg_set16_cell n n 0x10 c w hlow hhigh
  unfold Store.dipr
  rw [hreg 0x0C (by decide) (by decide), hreg 0x0D (by decide) (by decide), hreg 0x0E (by decide) (by decide),
    hreg 0x0F (by decide) (by decide)]

end

/-! ### `LISTEN`: the accept of a connection (R283) -/

/-- What the accept of `p` leaves: its event, the accepted resource, the peer in DIPR and DPORT, `ESTABLISHED`. -/
def Store.accepted (st : Store) (n : Fin 4) (p : Peer) : Store :=
  ((((st.emit (.accept n)).setResAcc n true).setDipr n p.ip).set16 n 0x10 p.port).setState n .established

section
variable {st : Store} {n : Fin 4}

theorem Store.poll_of_listen (h : st.state n = .listen) : st.poll n = st.pollAccept n := by
  unfold Store.poll
  rw [h]

theorem Store.pollAccept_of_pending {p : Peer} (h : (st.net n).pending = some p) :
    st.pollAccept n = st.accepted n p := by
  unfold Store.pollAccept
  rw [h]
  rfl

end

section
variable (st : Store) (n : Fin 4) (p : Peer)

theorem Store.accepted_state : (st.accepted n p).state n = .established := by
  simp [Store.accepted]

theorem Store.accepted_dipr : (st.accepted n p).dipr n = p.ip :=
  calc (st.accepted n p).dipr n
      = ((((st.emit (.accept n)).setResAcc n true).setDipr n p.ip).set16 n 0x10 p.port).dipr n := rfl
    _ = p.ip := by rw [Store.dipr_set16_dport, Store.dipr_setDipr]

theorem Store.accepted_dport : (st.accepted n p).dport n = p.port :=
  Store.get16_set16_same _ n 0x10 p.port

theorem Store.accepted_resAcc : (st.accepted n p).resAcc n = true := by
  simp [Store.accepted]

theorem Store.accepted_resOut : (st.accepted n p).resOut n = st.resOut n := by
  simp [Store.accepted]

theorem Store.accepted_widx : (st.accepted n p).widx n = st.widx n := by
  simp [Store.accepted]

theorem Store.accepted_events : (st.accepted n p).events = st.events ++ [.accept n] := by
  simp [Store.accepted]

end

/-- Settles O44: with a connection pending the poll is the accept, whose frame is the one of `pollAccept`; with none the
socket is idle. -/
theorem acceptRecordsThePeer : Obligations.AcceptRecordsThePeer := by
  intro st n hlisten
  refine ⟨fun p hpending => ?_, fun hnone => ?_⟩
  · have hlocal := st.local_pollAccept n
    rw [Store.pollAccept_of_pending hpending] at hlocal
    rw [Store.poll_of_listen hlisten, Store.pollAccept_of_pending hpending]
    exact ⟨st.accepted_state n p, st.accepted_dipr n p, st.accepted_dport n p, st.accepted_resAcc n p,
      st.accepted_resOut n p, st.accepted_widx n p, st.accepted_events n p, hlocal.cells, hlocal.othersKept⟩
  · exact Store.poll_idle (.inr (.inr (.inl ⟨hlisten, hnone⟩)))

/-! ### `CLOSED` and `INIT` (R288) -/

/-- Settles O48: a socket in `CLOSED` or `INIT` is idle, whatever NetEnv offers. -/
theorem closedAndInitHaveNoEvent : Obligations.ClosedAndInitHaveNoEvent := by
  intro st n hstate
  have hidle : st.PollIdle n := hstate.imp id .inl
  exact Store.poll_idle hidle

end Sys2Proof.Machine
end

section
/-! PROOF. A step is a run of ticks (R110, R113, R320): what every tick keeps, every step keeps. -/

namespace Sys2Proof.Machine

/-! ### The next bus operation -/

/-- R113: a bus transaction means the run of its encoding. -/
theorem exec_of_source_bus {i : Instr} (hs : i.source = .bus) (s : State) :
    exec i s = .next (s.runFrame (encode s.store.cfg i)) := by
  cases i with
  | aWrite | aRead | aNop | bRead | bWrite => rfl
  | cmdOpen | cmdListen | cmdConnect | cmdDiscon | cmdClose | cmdSend | cmdRecv | cmdNop => cases hs

section
variable {s : State} {rest : List BusOp} {bytes : List Byte}

theorem step_of_bus_nil (h : s.bus = []) : step s = .next (s.drive (Config.freeLines s.store.ticks)) := by
  simp only [step, State.fetch, h]

theorem step_of_levels {l : Lines} (h : s.bus = .levels l :: rest) :
    step s = .next (State.drive { s with bus := rest } l) := by
  simp only [step, State.fetch, h]

theorem step_of_decoded {i : Instr} (h : s.bus = .frame bytes :: rest) (hd : decode s.store.cfg .bus bytes = .ok i) :
    step s = exec i { s with bus := rest } := by
  simp only [step, State.fetch, h, hd]

theorem step_of_not_decoded {e : DecodeError} (h : s.bus = .frame bytes :: rest)
    (hd : decode s.store.cfg .bus bytes = .error e) : step s = .next (State.runFrame { s with bus := rest } bytes) := by
  simp only [step, State.fetch, h, hd]

/-- Whether a frame is one whole transaction or not, its step clocks its bytes: what decodes encodes to the very bytes
read. -/
theorem step_of_frame (h : s.bus = .frame bytes :: rest) :
    step s = .next (State.runFrame { s with bus := rest } bytes) := by
  cases hd : decode s.store.cfg .bus bytes with
  | error e => exact step_of_not_decoded h hd
  | ok i =>
    obtain ⟨hbytes, -, hsource⟩ := encodeOfDecodeIsTheBytes s.store.cfg .bus bytes i hd
    rw [step_of_decoded h hd, exec_of_source_bus hsource, hbytes]

end

/-- Settles O4: the two answers of the decoder are the two branches of the fetch. -/
theorem stepRunsTheDecodedInstruction : Obligations.StepRunsTheDecodedInstruction :=
  fun _ _ _ hbus => ⟨fun _ hd => step_of_decoded hbus hd, fun _ hd => step_of_not_decoded hbus hd⟩

/-- Settles O6: by the next bus operation, each of which is a run of ticks. -/
theorem everyStepAnswersANextState : Obligations.EveryStepAnswersANextState := by
  intro s
  cases hbus : s.bus with
  | nil => exact ⟨_, step_of_bus_nil hbus⟩
  | cons op rest =>
    cases op with
    | levels l => exact ⟨_, step_of_levels hbus⟩
    | frame bytes => exact ⟨_, step_of_frame hbus⟩

/-! ### What every tick keeps -/

theorem State.xfers_cons (s : State) (b : Byte) (bs : List Byte) : s.xfers (b :: bs) = (s.xfer b).xfers bs := by
  simp only [State.xfers, List.foldl_cons]

/-- A property of the chip that every tick keeps and that the bus master's queue and record have no part in. -/
structure State.KeptByTicks (P : State → Prop) : Prop where
  drive : ∀ (s : State) (l : Lines), P s → P (s.drive l)
  master : ∀ (s : State) (bus : List BusOp) (received : List Byte), P s → P { s with bus := bus, received := received }

namespace State.KeptByTicks

variable {P : State → Prop} (hP : State.KeptByTicks P)
include hP

theorem clockBit (s : State) (d : Bool) (h : P s) : P (s.clockBit d) :=
  hP.drive (s.drive ⟨false, false, d⟩) ⟨false, true, d⟩ (hP.drive s ⟨false, false, d⟩ h)

theorem clockBits (ds : List Bool) (s : State) (r : Byte) (h : P s) : P (s.clockBits r ds).1 := by
  induction ds generalizing s r with
  | nil => exact h
  | cons d ds ih =>
    rw [State.clockBits]
    exact ih (s.clockBit d) _ (hP.clockBit s d h)

theorem xfer (s : State) (b : Byte) (h : P s) : P (s.xfer b) := by
  unfold State.xfer
  exact hP.master (s.clockBits 0 (bitsMsb b)).1 _ _ (hP.clockBits (bitsMsb b) s 0 h)

theorem xfers (bytes : List Byte) (s : State) (h : P s) : P (s.xfers bytes) := by
  induction bytes generalizing s with
  | nil => exact h
  | cons b bs ih =>
    rw [State.xfers_cons]
    exact ih (s.xfer b) (hP.xfer s b h)

theorem runFrame (s : State) (bytes : List Byte) (h : P s) : P (s.runFrame bytes) :=
  hP.drive (s.sel.xfers bytes) _ (hP.xfers bytes s.sel (hP.drive s _ h))

/-- What every tick keeps, every step keeps. -/
theorem step {s t : State} (h : P s) (hst : Machine.step s = .next t) : P t := by
  have answer : ∀ {u : State}, Machine.step s = .next u → P u → P t := by
    intro u hu hPu
    rw [hu] at hst
    cases hst
    exact hPu
  cases hbus : s.bus with
  | nil => exact answer (step_of_bus_nil hbus) (hP.drive _ _ h)
  | cons op rest =>
    have htaken : P { s with bus := rest } := hP.master s rest s.received h
    cases op with
    | levels l => exact answer (step_of_levels hbus) (hP.drive _ _ htaken)
    | frame bytes => exact answer (step_of_frame hbus) (hP.runFrame _ bytes htaken)

end State.KeptByTicks

theorem State.cfg_keptByTicks (c : Config) : State.KeptByTicks fun s => s.store.cfg = c where
  drive s l h := (s.drive_cfg l).trans h
  master _ _ _ h := h

/-- Settles O8: no tick changes the parameters, and the identity is read off them. -/
theorem noStepChangesTheParameters : Obligations.NoStepChangesTheParameters := by
  intro s t hst
  have hcfg : t.store.cfg = s.store.cfg := (State.cfg_keptByTicks s.store.cfg).step rfl hst
  exact ⟨hcfg, congrArg (fun c : Config => identityOf c.model) hcfg⟩

end Sys2Proof.Machine
end

section
/-! PROOF. The invariant of R41 at power-on and along every step. -/

namespace Sys2Proof.Machine

/-! ### Cells and sockets -/

/-- An access keeps the invariant where it keeps that of each socket. -/
theorem Store.Inv.of_kept {st t : Store} (hk : Store.Kept st t) (hsock : ∀ n : Fin 4, t.SockOk n) (h : st.Inv) :
    t.Inv := by
  obtain ⟨hwf, hmem, -⟩ := h
  exact ⟨hk.cfg ▸ hwf, hk.memOk hmem, hsock⟩

theorem Store.Inv.sockOk {st : Store} (h : st.Inv) (n : Fin 4) : st.SockOk n := by
  obtain ⟨-, -, hsock⟩ := h
  exact hsock n

section
variable {st : Store} (h : st.Inv)
include h

theorem Store.inv_poll (n : Fin 4) : (st.poll n).Inv :=
  h.of_kept (st.local_poll n).kept (Store.allOk_poll n h.sockOk)

theorem Store.inv_pollAll : st.pollAll.Inv :=
  Store.inv_poll (Store.inv_poll (Store.inv_poll (Store.inv_poll h 0) 1) 2) 3

theorem Store.inv_endTick : st.endTick.Inv := Store.inv_pollAll h

theorem Store.inv_routerWrite (a : Half) (v : Byte) : (st.routerWrite a v).Inv :=
  h.of_kept (st.kept_routerWrite a v) (Store.allOk_routerWrite a v h.sockOk)

theorem Store.inv_regionWrite (bsb : BitVec 5) (addr k : Half) (v : Byte) : (st.regionWrite bsb addr k v).Inv := by
  unfold Store.regionWrite
  split
  · exact h
  · exact Store.inv_routerWrite h _ v

omit h in
theorem Store.inv_flush (d : Decoder) (len : Nat) : ∀ {st : Store} (k : Nat), st.Inv → (st.flush d k len).Inv := by
  induction len with
  | zero => exact fun _ h => h
  | succ len ih => exact fun k h => ih (k + 1) (Store.inv_regionWrite h _ _ _ _)

end

/-! ### The decoder -/

/-- What `State.DecOk` says of a decoder under the parameters `c`. -/
abbrev Decoder.Ok (c : Config) (d : Decoder) : Prop :=
  d.st.ofModel c.model = true ∧ (d.st = .bData → d.dir = .write → d.count.toNat ≤ c.stageCap) ∧
  Memory.wf stageResetByte d.stage = true ∧ d.stage.all (fun e => e.1 < c.stageCap) = true

theorem State.decOk_iff (s : State) : s.DecOk ↔ s.dec.Ok s.store.cfg := Iff.rfl

/-- A change of the decoder that leaves the staging buffer alone. -/
theorem Decoder.Ok.move {c : Config} {d e : Decoder} (h : d.Ok c) (hstage : e.stage = d.stage)
    (hst : e.st.ofModel c.model = true) (hcount : e.st = .bData → e.dir = .write → e.count.toNat ≤ c.stageCap) :
    e.Ok c := by
  obtain ⟨-, -, hwf, hcap⟩ := h
  exact ⟨hst, hcount, hstage ▸ hwf, hstage ▸ hcap⟩

/-- The cells, sockets and decoder of the invariant, which hold between the sampler's step and the polls too. -/
abbrev State.Sound (s : State) : Prop := s.store.Inv ∧ s.dec.Ok s.store.cfg

section
variable {s : State} (b : Byte) (h : s.Sound)
include h

/-- A change of the decoder and the sampler that leaves the store and the staging buffer alone. -/
theorem State.Sound.move {d : Decoder} (p : Sampler) (hstage : d.stage = s.dec.stage)
    (hst : d.st.ofModel s.store.cfg.model = true)
    (hcount : d.st = .bData → d.dir = .write → d.count.toNat ≤ s.store.cfg.stageCap) :
    State.Sound { s with smp := p, dec := d } :=
  ⟨h.1, h.2.move hstage hst hcount⟩

theorem State.Sound.deselectA (hm : s.store.cfg.model = .a) : s.deselectA.Sound :=
  h.move _ rfl (by rw [hm]; rfl) nofun

theorem State.Sound.commandA (hm : s.store.cfg.model = .a) : (s.commandA b).Sound := by
  unfold State.commandA
  split_ifs
  all_goals exact h.move s.smp rfl (by rw [hm]; rfl) nofun

theorem State.Sound.addrHiA (hm : s.store.cfg.model = .a) : (s.addrHiA b).Sound :=
  h.move s.smp rfl (by rw [hm]; rfl) nofun

theorem State.Sound.addrLoA (hm : s.store.cfg.model = .a) : (s.addrLoA b).Sound :=
  h.move _ rfl (by rw [hm]; rfl) nofun

theorem State.Sound.dataA (hm : s.store.cfg.model = .a) : (s.dataA b).Sound := by
  have hdec : Decoder.Ok s.store.cfg { s.dec with st := .aWait } := h.2.move rfl (by rw [hm]; rfl) nofun
  unfold State.dataA
  cases s.dec.dir with
  | read => exact ⟨h.1, hdec⟩
  | write => exact ⟨Store.inv_routerWrite h.1 _ b, (s.store.kept_routerWrite _ b).cfg ▸ hdec⟩

theorem State.Sound.byteA (hm : s.store.cfg.model = .a) : s.byteA.Sound := by
  have hconsumed : State.Sound { s with smp := s.smp.consumed } := h
  unfold State.byteA
  cases s.dec.st with
  | aWait => exact hconsumed.commandA _ hm
  | aAddrHi => exact hconsumed.addrHiA _ hm
  | aAddrLo => exact hconsumed.addrLoA _ hm
  | aData => exact hconsumed.dataA _ hm
  | bWait | bAddrLo | bCmd | bData => exact hconsumed

theorem State.Sound.commitB : s.commitB.Inv := by
  unfold State.commitB
  split
  · exact Store.inv_flush s.dec _ 0 h.1
  · exact h.1

theorem State.Sound.deselectB (hm : s.store.cfg.model = .b) : s.deselectB.Sound := by
  have hdec : Decoder.Ok s.store.cfg { s.dec with st := .bWait, addr := 0, cmd := 0, dir := .read, count := 0 } :=
    h.2.move rfl (by rw [hm]; rfl) nofun
  exact ⟨h.commitB, s.commitB_kept.cfg ▸ hdec⟩

theorem State.Sound.addrHiB (hm : s.store.cfg.model = .b) : (s.addrHiB b).Sound :=
  h.move s.smp rfl (by rw [hm]; rfl) nofun

theorem State.Sound.addrLoB (hm : s.store.cfg.model = .b) : (s.addrLoB b).Sound :=
  h.move s.smp rfl (by rw [hm]; rfl) nofun

theorem State.Sound.controlB (hm : s.store.cfg.model = .b) : (s.controlB b).Sound :=
  h.move _ rfl (by rw [hm]; rfl) fun _ _ => Nat.zero_le _

theorem State.Sound.prefetchB (hm : s.store.cfg.model = .b) (hst : s.dec.st = .bData) (hdir : s.dec.dir = .read) :
    s.prefetchB.Sound :=
  h.move _ rfl (by rw [hst, hm]; rfl) fun _ hw => by cases hdir.symm.trans hw

/-- R177: below its capacity the buffer takes one byte more, so the count stays at most the capacity, which 16 bits
hold. -/
theorem State.Sound.stageB : (s.stageB b).Sound := by
  unfold State.stageB
  split
  case isFalse => exact h
  case isTrue hlt =>
    obtain ⟨hinv, hst, -, hwf, hcap⟩ := h
    obtain ⟨-, -, -, hcap16⟩ := hinv.1
    have hcount : (s.dec.count + 1).toNat ≤ s.store.cfg.stageCap := by
      rw [BitVec.toNat_add, show (1 : Half).toNat = 1 from rfl]
      omega
    exact ⟨hinv, hst, fun _ _ => hcount, Memory.wf_write _ _ _ b hwf,
      Memory.all_write (fun a => a < s.store.cfg.stageCap) _ _ _ b hcap (decide_eq_true hlt)⟩

theorem State.Sound.byteB (hm : s.store.cfg.model = .b) : s.byteB.Sound := by
  have hconsumed : State.Sound { s with smp := s.smp.consumed } := h
  unfold State.byteB
  cases hst : s.dec.st with
  | bWait => exact hconsumed.addrHiB _ hm
  | bAddrLo => exact hconsumed.addrLoB _ hm
  | bCmd => exact hconsumed.controlB _ hm
  | bData =>
    cases hdir : s.dec.dir with
    | read => exact hconsumed.prefetchB hm hst hdir
    | write => exact hconsumed.stageB _
  | aWait | aAddrHi | aAddrLo | aData => exact hconsumed

/-- Every decoder step keeps the cells, the sockets and the decoder sound. -/
theorem State.Sound.decoderStep (sel : Bool) : (s.decoderStep sel).Sound := by
  unfold State.decoderStep
  cases hm : s.store.cfg.model with
  | a =>
    unfold State.decoderStepA
    split_ifs
    · exact h.deselectA hm
    · exact h
    · exact h.byteA hm
  | b =>
    unfold State.decoderStepB
    split_ifs
    · exact h.deselectB hm
    · exact h
    · exact h.byteB hm

end

/-! ### The ready flag -/

section
variable (s : State)

/-- Whatever rule a byte is consumed by, the flag `getByte()` cleared stays clear. -/
theorem State.byteA_ready : s.byteA.smp.ready = false := by
  unfold State.byteA
  cases s.dec.st with
  | aWait => exact (State.decodes_commandA _ _).ready rfl
  | aAddrHi => rfl
  | aAddrLo => exact (State.decodes_addrLoA _ _).ready rfl
  | aData => rfl
  | bWait | bAddrLo | bCmd | bData => rfl

theorem State.byteB_ready : s.byteB.smp.ready = false := by
  unfold State.byteB
  cases s.dec.st with
  | bWait | bAddrLo => rfl
  | bCmd => exact (State.decodes_controlB _ _).ready rfl
  | bData =>
    cases s.dec.dir with
    | read => rfl
    | write => exact (State.decodes_stageB _ _).ready rfl
  | aWait | aAddrHi | aAddrLo | aData => rfl

theorem State.deselectA_ready : s.deselectA.smp.ready = false := congrArg Sampler.ready s.smp.drained

theorem State.deselectB_ready : s.deselectB.smp.ready = false := congrArg Sampler.ready s.smp.drained

/-- No decoder step leaves a byte waiting (R41 item 6). -/
theorem State.decoderStep_ready (sel : Bool) : (s.decoderStep sel).smp.ready = false := by
  unfold State.decoderStep
  cases s.store.cfg.model with
  | a =>
    unfold State.decoderStepA
    split_ifs with _ hbyte
    · exact s.deselectA_ready
    · simpa [Sampler.isDataReady] using hbyte
    · exact s.byteA_ready
  | b =>
    unfold State.decoderStepB
    split_ifs with _ hbyte
    · exact s.deselectB_ready
    · simpa [Sampler.isDataReady] using hbyte
    · exact s.byteB_ready

end

/-! ### Ticks and steps -/

/-- A tick keeps the invariant: the sampler has no part in it but the flag, which the decoder step clears. -/
theorem State.inv_drive (s : State) (l : Lines) (h : s.Inv) : (s.drive l).Inv := by
  obtain ⟨hstore, hdec, -⟩ := h
  have hsound : State.Sound { s with smp := s.smp.step l } := ⟨hstore, hdec⟩
  obtain ⟨hstore', hdec'⟩ := hsound.decoderStep (isSelected l)
  have hcfg := Store.endTick_cfg (State.decoderStep { s with smp := s.smp.step l } (isSelected l)).store
  refine ⟨Store.inv_endTick hstore', ?_, State.decoderStep_ready _ _⟩
  rw [State.decOk_iff]
  show Decoder.Ok (Store.endTick _).cfg _
  rw [hcfg]
  exact hdec'

theorem State.inv_keptByTicks : State.KeptByTicks State.Inv where
  drive := State.inv_drive
  master _ _ _ h := h

/-- Settles O57: a step is a run of ticks, and every tick keeps the invariant. -/
theorem everyStepKeepsInv : Obligations.EveryStepKeepsInv :=
  fun _ _ hinv hst => State.inv_keptByTicks.step hinv hst

end Sys2Proof.Machine
end

section
/-! PROOF. The machine at power-on: what every piece of state holds (R43), and the invariant of R41. -/

namespace Sys2Proof.Machine

section
variable (c : Config) (n : Fin 4)

/-- Every bank cell but the two of TX_FSR is 0x00, in either order of the bytes. -/
theorem State.resetWith_reg_zero {r : Byte} (hlow : r ≠ 0x20) (hhigh : r ≠ 0x21) :
    (State.resetWith c).store.reg n r = 0x00 := by
  rw [State.resetWith_reg]
  cases c.order with
  | le => exact if_neg hhigh
  | be => exact if_neg hlow

/-- A 16-bit field that shares no cell with TX_FSR is 0. -/
theorem State.resetWith_get16_zero {r : Byte} (hlow : r ≠ 0x20 ∧ r ≠ 0x21) (hhigh : r + 1 ≠ 0x20 ∧ r + 1 ≠ 0x21) :
    (State.resetWith c).store.get16 n r = 0 := by
  unfold Store.get16
  rw [State.resetWith_reg_zero c n hlow.1 hlow.2, State.resetWith_reg_zero c n hhigh.1 hhigh.2]
  cases (State.resetWith c).store.cfg.order with
  | le => rfl
  | be => rfl

theorem State.resetWith_txFsr : (State.resetWith c).store.txFsr n = 0x0800 := by
  have hcfg : (State.resetWith c).store.cfg = c := rfl
  unfold Store.txFsr Store.get16
  rw [State.resetWith_reg, State.resetWith_reg, hcfg]
  cases c.order with
  | le => rfl
  | be => rfl

theorem State.resetWith_state : (State.resetWith c).store.state n = .closed :=
  congrArg Socket.state (State.resetWith_sock c n)
theorem State.resetWith_widx : (State.resetWith c).store.widx n = 0 :=
  congrArg Socket.widx (State.resetWith_sock c n)
theorem State.resetWith_resOut : (State.resetWith c).store.resOut n = false :=
  congrArg Socket.resOut (State.resetWith_sock c n)
theorem State.resetWith_resAcc : (State.resetWith c).store.resAcc n = false :=
  congrArg Socket.resAcc (State.resetWith_sock c n)

theorem State.resetWith_peek_ring {a : Nat} (h : 0x800 ≤ a) : (State.resetWith c).store.peek a = 0x00 := by
  rw [State.resetWith_peek, resetByte_ring c h]

/-- The decoder is idle in its variant's label (R26). -/
theorem State.resetWith_decOk : (State.resetWith c).DecOk := by
  refine ⟨?_, ?_, rfl, rfl⟩
  · show (idleSt c.model).ofModel c.model = true
    cases c.model with
    | a => rfl
    | b => rfl
  · show idleSt c.model = .bData → _
    cases c.model with
    | a => exact nofun
    | b => exact nofun

theorem State.resetWith_sockOk : (State.resetWith c).store.SockOk n := by
  have hrd : (State.resetWith c).store.txRd n = 0 := State.resetWith_get16_zero c n (by decide) (by decide)
  have hwr : (State.resetWith c).store.txWr n = 0 := State.resetWith_get16_zero c n (by decide) (by decide)
  have hrsr : (State.resetWith c).store.rxRsr n = 0 := State.resetWith_get16_zero c n (by decide) (by decide)
  have hir : (State.resetWith c).store.ir n = 0 := State.resetWith_reg_zero c n (by decide) (by decide)
  unfold Store.SockOk Store.FsrOk
  rw [State.resetWith_txFsr, hrd, hwr, hrsr, hir, State.resetWith_reg_zero c n (by decide) (by decide),
    State.resetWith_state, State.resetWith_resOut, State.resetWith_resAcc]
  decide

end

/-- The default parameters meet the constraints of 92_eei_decisions.md. -/
theorem defaultConfig_wf (m : Model) : (defaultConfig m).Wf := by
  cases m with
  | a => decide
  | b => decide

/-- Settles O56: clause by clause from the power-on values. -/
theorem invAtReset : Obligations.InvAtReset := by
  have hinv : ∀ c : Config, c.Wf → (State.resetWith c).Inv := fun c hc =>
    ⟨⟨hc, ⟨rfl, rfl⟩, State.resetWith_sockOk c⟩, State.resetWith_decOk c, rfl⟩
  exact ⟨hinv, hinv _ (defaultConfig_wf resetModel)⟩

/-- Settles O60: the sampler and the decoder hold their values by definition, the cells by their address. -/
theorem powerOnValues : Obligations.PowerOnValues := by
  intro c s
  have hidle : s.dec.st = match c.model with | .a => DecSt.aWait | .b => DecSt.bWait := by
    show idleSt c.model = _
    cases c.model with
    | a => rfl
    | b => rfl
  have hcommon : ∀ i : Byte, s.store.peek i.toNat = c.commonReset.getD i.toNat 0x00 :=
    fun i => resetByte_common c i.isLt
  have hrings : ∀ (n : Fin 4) (i : BitVec 11), s.store.tx n i = 0x00 ∧ s.store.rx n i = 0x00 := by
    intro n i
    have htx := txAddr_range n i
    have hrx := rxAddr_range n i
    exact ⟨State.resetWith_peek_ring c (by omega), State.resetWith_peek_ring c (by omega)⟩
  exact ⟨rfl, rfl, rfl, rfl, rfl, rfl, rfl, hidle, rfl, rfl, rfl, rfl, fun _ => rfl, hcommon, fun n =>
    ⟨fun _ => State.resetWith_reg_zero c n, State.resetWith_txFsr c n, hrings n, State.resetWith_widx c n,
      State.resetWith_state c n, State.resetWith_resOut c n, State.resetWith_resAcc c n⟩⟩

end Sys2Proof.Machine
end

section
/-! PROOF. The tick as the facade gives it (R320), and what a deselected tick leaves (R131, R151, R171, R325). -/

namespace Sys2Proof.Machine

/-- Settles O7: a tick only appends to the log, so what it reports is what stands behind the old log. -/
theorem tickReportsItsEvents : Obligations.TickReportsItsEvents := by
  intro s i
  have hlog : s.store.events <+: (tick s i).1.store.events :=
    State.drive_events { s with store := { s.store with envq := i.env :: s.store.envq } } i.lines
  obtain ⟨new, hnew⟩ := hlog
  have hreported : (tick s i).2.events = new := by
    show (tick s i).1.store.events.drop s.store.events.length = new
    rw [← hnew, List.drop_left]
  exact ⟨by rw [hreported, hnew], rfl⟩

/-- Settles O15: by the variant, whose deselected tick writes every field the idle bus speaks of. -/
theorem deselectedTickIdlesTheBus : Obligations.DeselectedTickIdlesTheBus := by
  intro s l hl
  unfold State.BusIdle
  cases hm : s.store.cfg.model with
  | a =>
    rw [s.drive_cfg l, hm, State.drive_deselect_a l hl hm]
    exact ⟨rfl, rfl, rfl, rfl, rfl, rfl, rfl, rfl, rfl, rfl, nofun⟩
  | b =>
    rw [s.drive_cfg l, hm, State.drive_deselect_b l hl hm]
    exact ⟨rfl, rfl, rfl, rfl, rfl, rfl, rfl, rfl, rfl, rfl, fun _ => rfl⟩

/-! ### The idle bus -/

namespace State.BusIdle

variable {s : State} (h : s.BusIdle)
include h

theorem ready : s.smp.ready = false := by
  obtain ⟨-, -, -, -, hready, -⟩ := h
  exact hready

/-- Nothing is primed, so the first byte of a transaction reads zero. -/
theorem shout : s.smp.shout = 0 := by
  obtain ⟨-, -, hshout, -⟩ := h
  exact hshout

theorem bitcnt : s.smp.bitcnt = 0 := by
  obtain ⟨hbitcnt, -⟩ := h
  exact hbitcnt

/-- An idle sampler holds its last byte and nothing else. -/
theorem smp_eq : s.smp = { Sampler.reset with rxByte := s.smp.rxByte } := by
  obtain ⟨hbitcnt, hshin, hshout, hclk, hready, hdout, -⟩ := h
  revert hbitcnt hshin hshout hclk hready hdout
  cases s.smp with
  | mk bitcnt shin shout prevClk ready rxByte dout =>
    rintro rfl rfl rfl rfl rfl rfl
    rfl

theorem dec_eq_a (hm : s.store.cfg.model = .a) :
    { s.dec with st := .aWait, addr := 0, cmd := 0, dir := .read } = s.dec := by
  obtain ⟨-, -, -, -, -, -, hst, haddr, hcmd, hdir, -⟩ := h
  rw [hm] at hst
  have hwait : s.dec.st = .aWait := hst
  revert hwait haddr hcmd hdir
  cases s.dec with
  | mk st addr cmd dir count stage =>
    rintro rfl rfl rfl rfl
    rfl

theorem dec_eq_b (hm : s.store.cfg.model = .b) :
    { s.dec with st := .bWait, addr := 0, cmd := 0, dir := .read, count := 0 } = s.dec := by
  obtain ⟨-, -, -, -, -, -, hst, haddr, hcmd, hdir, hcount⟩ := h
  rw [hm] at hst
  have hwait : s.dec.st = .bWait := hst
  have hcount := hcount hm
  revert hwait haddr hcmd hdir hcount
  cases s.dec with
  | mk st addr cmd dir count stage =>
    rintro rfl rfl rfl rfl rfl
    rfl

end State.BusIdle

/-- Settles O18: the levels and the polls find nothing to do; under Model B nothing is staged either. -/
theorem quiescentTickChangesNothing : Obligations.QuiescentTickChangesNothing := by
  intro s l hidle hpoll hl
  have hsmp : { s.smp.deselected with ready := false } = s.smp := by
    rw [hidle.smp_eq]
    rfl
  cases hm : s.store.cfg.model with
  | a => rw [State.drive_deselect_a l hl hm, hsmp, hidle.dec_eq_a hm, Store.endTick_idle hpoll]
  | b =>
    have hcommit : s.commitB = s.store := by
      have hst : s.dec.st = .bWait := by rw [← hidle.dec_eq_b hm]
      unfold State.commitB
      rw [hst]
    rw [State.drive_deselect_b l hl hm, hsmp, hidle.dec_eq_b hm, hcommit, Store.endTick_idle hpoll]

end Sys2Proof.Machine
end

section
/-! PROOF. The sampler clocked bit by bit (R132, R133, R138 to R140), and the staging of a data byte (R177). -/

namespace Sys2Proof.Machine

/-- The sampler after one bit: a tick with the clock low, a tick with the clock high (R112). -/
def Sampler.clocked (p : Sampler) (d : Bool) : Sampler := (p.step ⟨false, false, d⟩).step ⟨false, true, d⟩

theorem Sampler.clocked_mid {p : Sampler} (d : Bool) (h : p.bitcnt ≠ 7) : p.clocked d = p.mid d := p.pulse_mid d h

theorem Sampler.clocked_last {p : Sampler} (d : Bool) (h : p.bitcnt = 7) : p.clocked d = p.last d := p.pulse_last d h

/-! ### Driving a byte out (R138, R140) -/

/-- Whether a bit completes a byte or not, it drives the top bit and shifts the outbound value. -/
theorem Sampler.clocked_out (p : Sampler) (d : Bool) :
    (p.clocked d).shout = p.shout <<< 1 ∧ (p.clocked d).dout = p.shout.getLsbD 7 := by
  by_cases h : p.bitcnt = 7
  · rw [Sampler.clocked_last d h]
    exact ⟨rfl, rfl⟩
  · rw [Sampler.clocked_mid d h]
    exact ⟨rfl, rfl⟩

theorem Sampler.foldl_clocked_shout (p : Sampler) (ds : List Bool) :
    (ds.foldl Sampler.clocked p).shout = p.shout <<< ds.length := by
  induction ds generalizing p with
  | nil => exact (BitVec.shiftLeft_zero p.shout).symm
  | cons d ds ih =>
    rw [List.foldl_cons, ih, (p.clocked_out d).1, ← BitVec.shiftLeft_add, List.length_cons, Nat.add_comm]

/-- Settles O20: before edge `j` the outbound value has been shifted `j` times, so its top bit is bit `7 - j`. -/
theorem primedByteShiftsOutMsbFirst : Obligations.PrimedByteShiftsOutMsbFirst := by
  intro p v w j hj pulse
  have hlen : (bitsMsb w).length = 8 := rfl
  have htaken : ((bitsMsb w).take j).length = j := by rw [List.length_take]; omega
  have hshifted : (((bitsMsb w).take j).foldl Sampler.clocked (p.setOutputByte v)).shout = v <<< j := by
    rw [Sampler.foldl_clocked_shout, htaken]
    rfl
  show (((bitsMsb w).take (j + 1)).foldl Sampler.clocked (p.setOutputByte v)).dout = _
  rw [List.take_succ_eq_append_getElem (by omega), List.foldl_append, List.foldl_cons, List.foldl_nil,
    (Sampler.clocked_out _ _).2, hshifted, BitVec.getLsbD_shiftLeft]
  simp [show ¬ 7 < j by omega]

/-! ### Taking a byte in (R132, R133, R139) -/

/-- Bits that complete no byte: each is shifted in and counted. -/
theorem Sampler.foldl_clocked_mid (p : Sampler) (ds : List Bool) (h : p.bitcnt.toNat + ds.length ≤ 7) :
    (ds.foldl Sampler.clocked p).bitcnt.toNat = p.bitcnt.toNat + ds.length ∧
      (ds.foldl Sampler.clocked p).shin = ds.foldl shiftIn p.shin ∧
      (ds.foldl Sampler.clocked p).ready = p.ready := by
  induction ds generalizing p with
  | nil => exact ⟨rfl, rfl, rfl⟩
  | cons d ds ih =>
    rw [List.length_cons] at h ⊢
    have hne : p.bitcnt ≠ 7 := by
      intro heq
      rw [heq, show (7 : BitVec 3).toNat = 7 from rfl] at h
      omega
    have hcount : (p.mid d).bitcnt.toNat = p.bitcnt.toNat + 1 := by
      show (p.bitcnt + 1).toNat = _
      rw [BitVec.toNat_add, show (1 : BitVec 3).toNat = 1 from rfl]
      omega
    obtain ⟨hbitcnt, hshin, hready⟩ := ih (p.mid d) (by omega)
    rw [List.foldl_cons, Sampler.clocked_mid d hne]
    exact ⟨by omega, hshin, hready⟩

/-- The bit that completes a byte publishes it. -/
theorem Sampler.foldl_clocked_last (p : Sampler) (ds : List Bool) (d : Bool) (h : p.bitcnt.toNat + ds.length = 7) :
    let q := (ds ++ [d]).foldl Sampler.clocked p
    q.rxByte = (ds ++ [d]).foldl shiftIn p.shin ∧ q.ready = true ∧ q.bitcnt = 0 := by
  intro q
  obtain ⟨hbitcnt, hshin, -⟩ := p.foldl_clocked_mid ds h.le
  have hlast : (ds.foldl Sampler.clocked p).bitcnt = 7 := BitVec.eq_of_toNat_eq (hbitcnt.trans h)
  have hq : q = (ds.foldl Sampler.clocked p).last d := by
    rw [← Sampler.clocked_last d hlast]
    exact List.foldl_append
  rw [hq, List.foldl_append, ← hshin]
  exact ⟨rfl, rfl, rfl⟩

/-- Settles O19: seven bits are counted, the eighth publishes what the eight shifted in. -/
theorem samplerAssemblesMsbFirst : Obligations.SamplerAssemblesMsbFirst := by
  intro p v hbitcnt hready pulse
  have hzero : p.bitcnt.toNat = 0 := congrArg BitVec.toNat hbitcnt
  have hlen : (bitsMsb v).length = 8 := rfl
  have hbits : (bitsMsb v).take 7 ++ [v.getLsbD 0] = bitsMsb v := rfl
  obtain ⟨hbyte, hfull, hcount⟩ := p.foldl_clocked_last ((bitsMsb v).take 7) (v.getLsbD 0) (by
    rw [hzero, List.length_take, hlen]
    rfl)
  rw [hbits] at hbyte hfull hcount
  refine ⟨hbyte.trans (shiftIn_bits p.shin v), hfull, hcount, fun j hj => ?_⟩
  have hlength : ((bitsMsb v).take j).length = j := by rw [List.length_take]; omega
  obtain ⟨-, -, hnone⟩ := p.foldl_clocked_mid ((bitsMsb v).take j) (by omega)
  exact hnone.trans hready

/-! ### Staging (R177) -/

/-- Settles O17: below the capacity, which 16 bits hold, the count does not wrap; the byte goes to the index counted. -/
theorem stagingStopsAtItsCapacity : Obligations.StagingStopsAtItsCapacity := by
  intro s b hcap
  refine ⟨fun hlt => ?_, fun hfull => if_neg (by omega)⟩
  have hstage : s.stageB b = { s with dec := { s.dec with
      stage := Memory.write stageResetByte s.dec.stage s.dec.count.toNat b, count := s.dec.count + 1 } } := if_pos hlt
  rw [hstage]
  refine ⟨⟨_, _, rfl⟩, ?_, fun i => Memory.read_write _ _ _ b i⟩
  rw [BitVec.toNat_add, show (1 : Half).toNat = 1 from rfl]
  omega

end Sys2Proof.Machine
end

section
/-! PROOF. The address map (R71, R72) and the bank cells with no rule of their own, IR beside them (R206, R208, R212,
R213, R217). -/

namespace Sys2Proof.Machine

/-! ### The address map -/

theorem resolve_common (i : Byte) : resolve (BitVec.zeroExtend 16 i) = .common i := by
  have hi := i.isLt
  have hx : (BitVec.zeroExtend 16 i).toNat = i.toNat := by
    rw [BitVec.toNat_setWidth, Nat.mod_eq_of_lt (by omega)]
  unfold resolve
  rw [hx, if_pos hi, BitVec.ofNat_toNat, BitVec.setWidth_eq]

/-- The mapped addresses are those that resolve to a cell. -/
theorem isMapped_eq_false_iff (a : Half) : isMapped a.toNat = false ↔ resolve a = .unmapped := by
  have hspec := resolve_spec a
  cases hr : resolve a with
  | common i =>
    rw [hr] at hspec
    have hmapped : isMapped a.toNat = true := isMapped_of_plainAddr (Or.inl (hspec ▸ i.isLt))
    simp [hmapped]
  | bank n c => rw [hr] at hspec; simp [← show bankAddr n c = a.toNat from hspec, isMapped_bankAddr]
  | tx n i => rw [hr] at hspec; simp [← show txAddr n i = a.toNat from hspec, isMapped_txAddr]
  | rx n i => rw [hr] at hspec; simp [← show rxAddr n i = a.toNat from hspec, isMapped_rxAddr]
  | unmapped => rw [hr] at hspec; exact iff_of_true hspec rfl

/-- Settles O22: the four ranges cell by cell, and the rest. -/
theorem addressMapIsExact : Obligations.AddressMapIsExact :=
  ⟨resolve_common, resolve_bank, resolve_tx, resolve_rx, isMapped_eq_false_iff⟩

/-- Settles O24: neither access has a cell to go to. -/
theorem unmappedAddressesAreIgnored : Obligations.UnmappedAddressesAreIgnored := by
  intro st a v h
  have hr : resolve a = .unmapped := (isMapped_eq_false_iff a).1 h
  unfold Store.routerRead Store.routerWrite
  rw [hr]
  exact ⟨rfl, rfl⟩

/-! ### Cells that just store -/

/-- A bank cell R205 names no other rule for just stores. -/
theorem Store.sockWrite_storing (st : Store) (n : Fin 4) {c : Byte} (v : Byte) (hcr : c ≠ 0x01) (hir : c ≠ 0x02)
    (hro : isReadOnlyCell c = false) (hwr : ¬ (c = 0x24 ∨ c = 0x25)) : st.sockWrite n c v = st.setReg n c v := by
  rw [Store.sockWrite, if_neg hcr, if_neg hir, if_neg (Bool.not_eq_true _ ▸ hro), if_neg hwr]

/-- What a write to one bank cell keeps: every other cell, every socket, every event. -/
theorem Store.setReg_frame (st : Store) (n : Fin 4) (c v : Byte) :
    st.CellsKept (st.setReg n c v) (fun x => x = bankAddr n c) ∧ (st.setReg n c v).sock = st.sock ∧
      (st.setReg n c v).events = st.events :=
  ⟨(Store.local_setReg (P := fun x => x = bankAddr n c) st n v rfl).cells, st.setReg_sock n c v, st.setReg_events n c v⟩

/-- Settles O28: none of the rules of R205 before the last one is theirs. -/
theorem storingCellsJustStore : Obligations.StoringCellsJustStore := by
  intro st n c v hcr hir hro hlow hhigh
  simp only [Store.routerWrite_bank, st.sockWrite_storing n v hcr hir hro (not_or_intro hlow hhigh)]
  exact ⟨st.reg_setReg_same n c v, st.setReg_frame n c v⟩

/-- A bank cell with no side rule, TX_WR among them, reads back what was written: SR is a read-only cell. -/
theorem Store.sockRead_sockWrite (st : Store) (n : Fin 4) {c : Byte} (v : Byte) (hcr : c ≠ 0x01) (hir : c ≠ 0x02)
    (hro : isReadOnlyCell c = false) : (st.sockWrite n c v).sockRead n c = v := by
  have hsr : c ≠ 0x03 := by
    rintro rfl
    exact absurd hro (by decide)
  rw [Store.sockRead_of_ne_sr _ n hsr]
  by_cases hwr : c = 0x24 ∨ c = 0x25
  · rw [st.sockWrite_txWr n v hwr, st.writeTxWr_reg n v hwr]
  · rw [st.sockWrite_storing n v hcr hir hro hwr, st.reg_setReg_same n c v]

/-- Settles O23: outside the banks the cell at the address itself, in a bank the register. -/
theorem plainCellsRoundTrip : Obligations.PlainCellsRoundTrip := by
  intro st a v h
  have hplain : plainAddr a.toNat → (st.routerWrite a v).routerRead a = v := fun ha =>
    ((st.routerWrite a v).routerRead_of_plainAddr ha).trans (st.routerWrite_peek_of_plainAddr v ha)
  rcases h with hcommon | hring | ⟨n, c, ha, hcr, hir, hro⟩
  · exact hplain (Or.inl hcommon)
  · exact hplain (Or.inr hring)
  · have hbank : a = BitVec.ofNat 16 (bankAddr n c) := BitVec.eq_of_toNat_eq (ha.trans (toNat_bankAddr n c).symm)
    rw [hbank, Store.routerWrite_bank, Store.routerRead_bank, st.sockRead_sockWrite n v hcr hir hro]

/-! ### IR: write 1 to clear (R208) -/

theorem Store.sockWrite_ir (st : Store) (n : Fin 4) (v : Byte) : st.sockWrite n 0x02 v = st.clearIr n v := by
  rw [Store.sockWrite, if_neg (by decide), if_pos rfl]

theorem Store.clearIr_ir (st : Store) (n : Fin 4) (v : Byte) : (st.clearIr n v).ir n = st.ir n &&& ~~~v :=
  st.reg_setReg_same n 0x02 _

/-- Settles O26: a bit cleared once stays clear. -/
theorem irWriteClearsTheWrittenBits : Obligations.IrWriteClearsTheWrittenBits := by
  intro st n v
  simp only [Store.routerWrite_bank, Store.sockWrite_ir, Store.clearIr_ir]
  exact ⟨trivial, by rw [BitVec.and_assoc, BitVec.and_self], st.setReg_frame n 0x02 _⟩

end Sys2Proof.Machine
end

section
/-! PROOF. The socket commands that move the ring registers: OPEN (R241, R250), SEND with and without a loopback reply
(R246, R249, R306, R311, R317), RECV (R247); and the no-ops of the command matrix (R252). -/

namespace Sys2Proof.Machine

/-! ### OPEN -/

theorem exec_cmdOpen (s : State) (n : Fin 4) : exec (.cmdOpen n) s = .next { s with store := s.store.openRule n } := rfl

/-- The request OPEN puts to NetEnv (R241). -/
def Store.openRequest (st : Store) (n : Fin 4) : NetEvent :=
  if st.proto n = 1 then .openTcp n else .openUdp n (st.port n) (st.multi n)

/-- The state a successful OPEN leaves (R241). -/
def Store.openTarget (st : Store) (n : Fin 4) : SockState := if st.proto n = 1 then .init else .udpReady

section
variable {st : Store} {n : Fin 4}

theorem Store.openRule_of_closed (hs : st.state n = .closed) (hp : st.proto n = 1 ∨ st.proto n = 2) :
    st.openRule n = if (st.net n).createOk then (st.emit (st.openRequest n)).opened n (st.openTarget n)
      else st.emit (st.openRequest n) := by
  unfold Store.openRule Store.openRequest Store.openTarget
  rw [if_pos hs]
  by_cases htcp : st.proto n = 1
  · simp only [if_pos htcp]
    rfl
  · simp only [if_neg htcp, if_pos (hp.resolve_left htcp)]
    rfl

theorem Store.openRule_of_not (h : st.state n ≠ .closed ∨ (st.proto n ≠ 1 ∧ st.proto n ≠ 2)) : st.openRule n = st := by
  unfold Store.openRule
  rcases h with hs | ⟨htcp, hudp⟩
  · exact if_neg hs
  · rw [if_neg htcp, if_neg hudp, ite_self]

end

section
variable (st : Store) (n : Fin 4) (x : SockState)

/-- A reset of the rings has no part in the sockets but the write index (R250). -/
theorem Store.resetRings_frame :
    (st.resetRings n).resAcc n = st.resAcc n ∧ (st.resetRings n).events = st.events := by
  simp [Store.resetRings]

/-- R241, R250: what an OPEN whose resource was created leaves. -/
theorem Store.opened_spec :
    let t := st.opened n x
    t.state n = x ∧ t.resOut n = true ∧ t.resAcc n = st.resAcc n ∧ t.widx n = 0 ∧ t.txRd n = 0 ∧ t.txWr n = 0 ∧
      t.txFsr n = 0x0800 ∧ t.rxRsr n = 0 ∧ t.rxRd n = 0 ∧ t.events = st.events ∧
      st.CellsKept t (bankCells n 0x20 0x29) ∧ st.OthersKept t n := by
  intro t
  obtain ⟨hrd, hwr, hfsr, hrsr, hrxrd, hwidx⟩ := st.resetRings_spec n
  obtain ⟨hacc, hevents⟩ := st.resetRings_frame n
  have hlocal := st.local_opened n x
  have hsock : t.state n = x ∧ t.resOut n = true ∧ t.resAcc n = (st.resetRings n).resAcc n ∧
      t.widx n = (st.resetRings n).widx n := by
    simp [t, Store.opened]
  obtain ⟨hstate, hout, hacc', hwidx'⟩ := hsock
  -- the cells of `t` are those of the reset rings
  exact ⟨hstate, hout, hacc'.trans hacc, hwidx'.trans hwidx, hrd, hwr, hfsr, hrsr, hrxrd, hevents, hlocal.cells,
    hlocal.othersKept⟩

end

/-- Settles O31: the granted branch of OPEN, with the request already in the log. -/
theorem openSucceeds : Obligations.OpenSucceeds := by
  intro s n hclosed hcreate hproto
  have hrule := (Store.openRule_of_closed hclosed hproto).trans (if_pos hcreate)
  refine ⟨s.store.openRule n, exec_cmdOpen s n, ?_⟩
  rw [hrule]
  exact (s.store.emit (s.store.openRequest n)).opened_spec n (s.store.openTarget n)

/-- Settles O32: the other branch of OPEN is the request alone. -/
theorem openFailureChangesNothing : Obligations.OpenFailureChangesNothing := by
  intro s n hclosed hcreate hproto
  have hnot : ¬ (s.store.net n).createOk = true := by rw [hcreate]; exact Bool.false_ne_true
  rw [exec_cmdOpen, Store.openRule_of_closed hclosed hproto, if_neg hnot]
  rfl

/-! ### SEND -/

theorem exec_cmdSend (s : State) (n : Fin 4) : exec (.cmdSend n) s = .next { s with store := s.store.sendRule n } := rfl

section
variable {st : Store} {n : Fin 4}

theorem Store.sendRule_of_established (h : st.state n = .established) : st.sendRule n = st.sendTcpRule n := by
  unfold Store.sendRule
  rw [h]

theorem Store.sendRule_of_udpReady (h : st.state n = .udpReady) : st.sendRule n = st.sendUdpRule n := by
  unfold Store.sendRule
  rw [h]

theorem Store.sendRule_of_not_connected (htcp : st.state n ≠ .established) (hudp : st.state n ≠ .udpReady) :
    st.sendRule n = st := by
  unfold Store.sendRule
  cases h : st.state n with
  | established => exact absurd h htcp
  | udpReady => exact absurd h hudp
  | closed | init | listen => rfl

end

section
variable (st : Store) (n : Fin 4)

/-- R246, R249: what every SEND does to the registers, whatever becomes of the bytes: a drain, then SEND_OK. -/
theorem Store.drain_flagSendOk_spec :
    let t := (st.drainTx n).flagSendOk n
    (t.txRd n).toNat = (st.txWr n).toNat % 2048 ∧ t.txWr n = st.txWr n ∧ t.txFsr n = 0x0800 ∧
      t.ir n = st.ir n ||| 0x10 ∧ t.sock = st.sock ∧ t.events = st.events ∧
      st.CellsKept t (fun a => a = bankAddr n 0x02 ∨ (bankAddr n 0x20 ≤ a ∧ a ≤ bankAddr n 0x23)) ∧
      st.OthersKept t n := by
  intro t
  obtain ⟨hsock, hevents, hir⟩ := st.drainTx_sock n
  have hlocal : Store.Local n (sendCells n) st t :=
    ((st.local_drainTx n).mono fun _ h => Or.inr h).trans
      ((Store.local_flagSendOk (st.drainTx n) n).mono fun _ h => Or.inl h)
  have hfield : ∀ c : Byte, c ≠ 0x02 → c + 1 ≠ 0x02 → t.get16 n c = (st.drainTx n).get16 n c := fun c h₁ h₂ =>
    Store.get16_setReg_cell (st.drainTx n) n n 0x02 c _ h₁ h₂
  have hrd : t.txRd n = (st.drainTx n).txRd n := hfield 0x22 (by decide) (by decide)
  have hwr : t.txWr n = (st.drainTx n).txWr n := hfield 0x24 (by decide) (by decide)
  have hfsr : t.txFsr n = (st.drainTx n).txFsr n := hfield 0x20 (by decide) (by decide)
  have hflag : t.ir n = (st.drainTx n).ir n ||| 0x10 := Store.reg_setReg_same (st.drainTx n) n 0x02 _
  rw [hrd, hwr, hfsr, hflag, hir]
  exact ⟨st.drainTx_txRd n, st.drainTx_txWr n, st.drainTx_txFsr n, rfl, hsock, hevents, hlocal.cells,
    hlocal.othersKept⟩

/-- The event of a SEND stands beside the registers it leaves. -/
theorem Store.sendTcpRule_eq :
    st.sendTcpRule n = ((st.drainTx n).flagSendOk n).emit (.sendTcp n (st.queuedBytes n)) := by
  rw [← Store.drainData_eq]
  rfl

/-- Where the bytes of a UDP SEND go, by DPORT as it was before the drain (R246, R300). -/
theorem Store.sendUdpRule_eq :
    st.sendUdpRule n =
      if st.dport n = st.cfg.dhcpPort then ((st.drainTx n).loopbackDhcp n (st.queuedBytes n)).flagSendOk n
      else if st.dport n = st.cfg.ntpPort then ((st.drainTx n).loopbackNtp n (st.queuedBytes n)).flagSendOk n
      else ((st.drainTx n).flagSendOk n).emit (.sendUdp n (st.dipr n) (st.dport n) (st.queuedBytes n)) := by
  obtain ⟨hport, hip, -, -, hcfg, -⟩ := st.drainTx_keeps n
  unfold Store.sendUdpRule Store.sendUdp
  rw [hport, hip, hcfg, Store.drainData_eq]
  split_ifs <;> rfl

/-- The room for a reply is the room before the drain. -/
theorem Store.drainTx_rxRoom : (st.drainTx n).rxRoom n = st.rxRoom n := by
  obtain ⟨-, -, hrsr, -⟩ := st.drainTx_keeps n
  unfold Store.rxRoom
  rw [hrsr]

theorem Store.drainTx_deliver (bytes : List Byte) : (st.drainTx n).deliver n bytes =
    if bytes.length ≤ st.rxRoom n then (st.drainTx n).rxDeliver n bytes else st.drainTx n := by
  unfold Store.deliver
  rw [st.drainTx_rxRoom n]

/-- The packet the address-assignment responder answers with (R306). -/
def Store.dhcpAnswer (st : Store) (n : Fin 4) : List Byte :=
  pseudoHeader st.cfg.loopbackSrc st.cfg.dhcpPort 262 ++ dhcpReply st.cfg (st.queuedBytes n)

theorem Store.dhcpAnswer_length : (st.dhcpAnswer n).length = 270 := by
  rw [Store.dhcpAnswer, List.length_append, pseudoHeader_length, dhcpReply_length]

/-- The packet the time-sync responder answers a request of 48 bytes with (R315). -/
def Store.ntpAnswer (st : Store) (n : Fin 4) : List Byte :=
  pseudoHeader st.cfg.loopbackSrc st.cfg.ntpPort 48 ++ ntpReply (st.queuedBytes n) st.env.nowUnix

theorem Store.ntpAnswer_length (h : (st.queuedBytes n).length = 48) : (st.ntpAnswer n).length = 56 := by
  rw [Store.ntpAnswer, List.length_append, pseudoHeader_length, ntpReply_length _ _ h]

variable {st n}

theorem Store.sendUdpRule_dhcp (hport : st.dport n = st.cfg.dhcpPort) :
    st.sendUdpRule n = ((st.drainTx n).deliver n (st.dhcpAnswer n)).flagSendOk n := by
  obtain ⟨-, -, -, -, hcfg, -⟩ := st.drainTx_keeps n
  rw [st.sendUdpRule_eq n, if_pos hport]
  simp only [Store.loopbackDhcp, hcfg, dhcpReply_length]
  rfl

theorem Store.sendUdpRule_ntp (hwf : st.cfg.Wf) (hlen : st.cfg.ntpLen = 48) (hport : st.dport n = st.cfg.ntpPort) :
    st.sendUdpRule n =
      (if (st.queuedBytes n).length = 48 then (st.drainTx n).deliver n (st.ntpAnswer n) else st.drainTx n).flagSendOk
        n := by
  obtain ⟨-, -, -, -, hcfg, henv⟩ := st.drainTx_keeps n
  obtain ⟨-, hports, -⟩ := hwf
  have hnot : st.dport n ≠ st.cfg.dhcpPort := fun h => hports (h.symm.trans hport)
  rw [st.sendUdpRule_eq n, if_neg hnot, if_pos hport]
  simp only [Store.loopbackNtp, hcfg, henv, hlen]
  split_ifs with hreq
  · rw [ntpReply_length _ _ hreq]
    rfl
  · rfl

end

/-- Settles O36: the rule is the common drain with its event behind it. -/
theorem sendTcpDrainsTheRing : Obligations.SendTcpDrainsTheRing := by
  intro s n hstate
  obtain ⟨hrd, hwr, hfsr, hir, hsock, hevents, hcells, hothers⟩ := s.store.drain_flagSendOk_spec n
  refine ⟨s.store.sendRule n, exec_cmdSend s n, ?_⟩
  rw [Store.sendRule_of_established hstate, Store.sendTcpRule_eq]
  exact ⟨hrd, hwr, hfsr, hir, hsock, congrArg (· ++ [_]) hevents, hcells, hothers⟩

/-- Settles O37: neither loopback port matches, so the bytes go to NetEnv. -/
theorem sendUdpDrainsTheRing : Obligations.SendUdpDrainsTheRing := by
  intro s n hstate hdhcp hntp
  obtain ⟨hrd, hwr, hfsr, hir, hsock, hevents, hcells, hothers⟩ := s.store.drain_flagSendOk_spec n
  refine ⟨s.store.sendRule n, exec_cmdSend s n, ?_⟩
  rw [Store.sendRule_of_udpReady hstate, Store.sendUdpRule_eq, if_neg hdhcp, if_neg hntp]
  exact ⟨hrd, hwr, hfsr, hir, hsock, congrArg (· ++ [_]) hevents, hcells, hothers⟩

/-- Settles O38: the reply of 270 bytes fits, so it is delivered after the drain. -/
theorem sendToDhcpPortIsAnswered : Obligations.SendToDhcpPortIsAnswered := by
  intro s n hstate hport hroom
  have hlen := s.store.dhcpAnswer_length n
  have hfits : (s.store.dhcpAnswer n).length ≤ s.store.rxRoom n := hlen ▸ hroom
  have hspec := s.store.drain_deliver_spec n (s.store.dhcpAnswer n) hfits
  refine ⟨s.store.sendRule n, exec_cmdSend s n, ?_⟩
  rw [Store.sendRule_of_udpReady hstate, Store.sendUdpRule_dhcp hport, Store.drainTx_deliver, if_pos hfits]
  rw [hlen, hstate] at hspec
  exact hspec

/-- Settles O39: the request has the length of a time-sync packet and the reply of 56 bytes fits. -/
theorem sendToNtpPortIsAnswered : Obligations.SendToNtpPortIsAnswered := by
  intro s n hwf hntp hstate hport hreq hroom
  have hlen := s.store.ntpAnswer_length n hreq
  have hfits : (s.store.ntpAnswer n).length ≤ s.store.rxRoom n := hlen ▸ hroom
  have hspec := s.store.drain_deliver_spec n (s.store.ntpAnswer n) hfits
  refine ⟨s.store.sendRule n, exec_cmdSend s n, ?_⟩
  rw [Store.sendRule_of_udpReady hstate, Store.sendUdpRule_ntp hwf hntp hport, if_pos hreq, Store.drainTx_deliver,
    if_pos hfits]
  rw [hlen, hstate] at hspec
  exact hspec

/-- Settles O40: in each of the three cases the drain and the flag are all that is left of the rule. -/
theorem unansweredLoopbackSendStillCompletes : Obligations.UnansweredLoopbackSendStillCompletes := by
  intro s n hwf hntp hstate hcase
  have hrule : s.store.sendRule n = (s.store.drainTx n).flagSendOk n := by
    rw [Store.sendRule_of_udpReady hstate]
    rcases hcase with ⟨hport, hroom⟩ | ⟨hport, hreq⟩
    · have hlen := s.store.dhcpAnswer_length n
      rw [Store.sendUdpRule_dhcp hport, Store.drainTx_deliver, if_neg (by omega)]
    · rw [Store.sendUdpRule_ntp hwf hntp hport]
      by_cases h48 : (s.store.queuedBytes n).length = 48
      · have hlen := s.store.ntpAnswer_length n h48
        have hroom := hreq.resolve_left (not_not_intro h48)
        rw [if_pos h48, Store.drainTx_deliver, if_neg (by omega)]
      · rw [if_neg h48]
  obtain ⟨hrd, -, hrest⟩ := s.store.drain_flagSendOk_spec n
  exact ⟨s.store.sendRule n, exec_cmdSend s n, hrule ▸ ⟨hrd, hrest⟩⟩

/-! ### RECV -/

theorem exec_cmdRecv (s : State) (n : Fin 4) : exec (.cmdRecv n) s = .next { s with store := s.store.recvRule n } := rfl

section
variable {st : Store} {n : Fin 4}

theorem Store.recvRule_of_connected (h : st.state n = .established ∨ st.state n = .udpReady) :
    st.recvRule n = st.set16 n 0x26 (BitVec.ofNat 16 (ringDiff (st.widx n).toNat ((st.rxRd n).toNat % 2048))) :=
  if_pos h

theorem Store.recvRule_of_not_connected (htcp : st.state n ≠ .established) (hudp : st.state n ≠ .udpReady) :
    st.recvRule n = st := if_neg (not_or_intro htcp hudp)

end

/-- RX_RD stands behind RX_RSR, so the recomputed size is that of the pointers still held (R247). -/
theorem Store.recvRule_spec {st : Store} {n : Fin 4} (h : st.state n = .established ∨ st.state n = .udpReady) :
    ((st.recvRule n).rxRsr n).toNat = ringDiff (st.widx n).toNat ((st.rxRd n).toNat % 2048) ∧
      (st.recvRule n).RsrTracks n ∧ (st.recvRule n).sock = st.sock ∧ (st.recvRule n).events = st.events := by
  rw [Store.recvRule_of_connected h]
  have hlt := ringDiff_lt (st.widx n).toNat ((st.rxRd n).toNat % 2048)
  generalize hsize : ringDiff (st.widx n).toNat ((st.rxRd n).toNat % 2048) = size at hlt ⊢
  have hrsr : ((st.set16 n 0x26 (BitVec.ofNat 16 size)).rxRsr n).toNat = size := by
    rw [Store.rxRsr, Store.get16_set16_same, toNat_ofNat16 (by omega)]
  have hrd : (st.set16 n 0x26 (BitVec.ofNat 16 size)).rxRd n = st.rxRd n :=
    st.get16_set16_cell n n 0x26 0x28 _ (by decide) (by decide) (by decide)
  refine ⟨hrsr, ?_, Store.set16_sock st n _ _, Store.set16_events st n _ _⟩
  rw [Store.RsrTracks, hrsr, hrd, Store.set16_widx, ← hsize, ringDiff_mod_right]

/-- Settles O41: where RECV acts it is the recomputation, with the frame of its rule. -/
theorem recvRecomputesReceivedSize : Obligations.RecvRecomputesReceivedSize := by
  intro s n
  refine ⟨fun hconnected => ⟨s.store.recvRule n, exec_cmdRecv s n, ?_⟩, fun htcp hudp => ?_⟩
  · obtain ⟨hrsr, htracks, hsock, hevents⟩ := Store.recvRule_spec hconnected
    have hlocal := s.store.local_recvRule n
    exact ⟨hrsr, htracks, hrsr.trans_lt (ringDiff_lt _ _), hsock, hevents, hlocal.cells, hlocal.othersKept⟩
  · rw [exec_cmdRecv, Store.recvRule_of_not_connected htcp hudp]

/-! ### The no-ops of the matrix -/

theorem exec_cmdNop (s : State) (n : Fin 4) (v : Byte) : exec (.cmdNop n v) s = .next s := rfl

/-- Settles O42: each rule outside the states it lists. -/
theorem matrixNoOps : Obligations.MatrixNoOps := by
  intro s n v i h
  rcases h with ⟨rfl, h⟩ | ⟨rfl, h⟩ | ⟨rfl, h⟩ | ⟨rfl, htcp, hudp⟩ | ⟨rfl, h⟩ | ⟨rfl, htcp, hudp⟩ |
    ⟨rfl, htcp, hudp⟩ | rfl
  · rw [exec_cmdOpen, Store.openRule_of_not h]
  · rw [exec_cmdListen, Store.listenRule_of_ne_init h]
  · rw [exec_cmdConnect, Store.connectRule_of_ne_init h]
  · rw [exec_cmdDiscon, Store.disconRule_of_not_connected htcp hudp]
  · rw [exec_cmdClose, Store.closeRule_of_closed h]
  · rw [exec_cmdSend, Store.sendRule_of_not_connected htcp hudp]
  · rw [exec_cmdRecv, Store.recvRule_of_not_connected htcp hudp]
  · exact exec_cmdNop s n v

end Sys2Proof.Machine
end

section
/-! PROOF. The per-tick events that release or deliver (R284 to R287), alone and in the tick of a write to IR
(R338). -/

namespace Sys2Proof.Machine

/-! ### The events of a connected socket -/

section
variable {st : Store} {n : Fin 4}

theorem Store.poll_of_peerClosed (h : st.state n = .established) (hpeer : (st.net n).peerClosed = true) :
    st.poll n = (st.release n).setState n .closed := by
  unfold Store.poll
  rw [h]
  exact if_pos hpeer

theorem Store.poll_of_established (h : st.state n = .established) (hpeer : (st.net n).peerClosed = false) :
    st.poll n = st.pollStream n := by
  unfold Store.poll
  rw [h]
  exact if_neg (by rw [hpeer]; exact Bool.false_ne_true)

theorem Store.poll_of_udpReady (h : st.state n = .udpReady) : st.poll n = st.pollDatagram n := by
  unfold Store.poll
  rw [h]

end

/-- Settles O45: the poll is the release, whatever else is offered. -/
theorem peerDisconnectWins : Obligations.PeerDisconnectWins := by
  intro st n hstate hpeer
  rw [Store.poll_of_peerClosed hstate hpeer]
  obtain ⟨hclosed, hout, hacc, hwidx, hevents⟩ := st.closed_spec n
  have hlocal := st.local_closed n
  exact ⟨hclosed, hout, hacc, hwidx, hevents, hlocal.cells, hlocal.othersKept⟩

/-! ### Delivery into the receive ring (R287) -/

/-- Settles O43: what fits beside RX_RSR fits in its 16 bits too. -/
theorem deliveryIntoTheReceiveRing : Obligations.DeliveryIntoTheReceiveRing := by
  intro st n bytes hfits t
  obtain ⟨hbytes, hwidx, hrsr, hir, hstate, hout, hacc, hevents⟩ := st.rxDeliver_spec n bytes hfits
  have hlocal := st.local_rxDeliver n bytes
  have hwidx' : (t.widx n).toNat = ((st.widx n).toNat + bytes.length) % 2048 := by rw [hwidx, BitVec.toNat_ofNat]
  have hrsr' : (t.rxRsr n).toNat = (st.rxRsr n).toNat + bytes.length := by
    have hlt := (st.rxRsr n).isLt
    unfold Store.rxRoom at hfits
    rw [hrsr, toNat_ofNat16 (by omega)]
  exact ⟨hbytes, hwidx', hrsr', hir, hstate, hout, hacc, hevents, hlocal.othersKept, hlocal.cells⟩

/-- What a poll that pulls data leaves: the event `e`, and `bytes` delivered. -/
def Store.pulled (st : Store) (n : Fin 4) (e : NetEvent) (bytes : List Byte) : Store := (st.emit e).rxDeliver n bytes

/-- R285, R286, R287: everything a pull of bytes that fit leaves. -/
theorem Store.pulled_spec (st : Store) (n : Fin 4) (e : NetEvent) {bytes : List Byte}
    (h : bytes.length ≤ st.rxRoom n) :
    let t := st.pulled n e bytes
    t.events = st.events ++ [e] ∧ t.rxRsr n = st.rxRsr n + BitVec.ofNat 16 bytes.length ∧
      t.widx n = st.widx n + BitVec.ofNat 11 bytes.length ∧ t.ir n = st.ir n ||| 0x04 ∧ t.state n = st.state n ∧
      t.resOut n = st.resOut n ∧ t.resAcc n = st.resAcc n ∧ st.OthersKept t n ∧
      (∀ i : Nat, i < bytes.length →
        some (t.rx n (BitVec.ofNat 11 ((st.widx n).toNat + i))) = bytes[i]?) ∧
      st.CellsKept t (deliveryCells n (st.widx n).toNat bytes.length) := by
  intro t
  obtain ⟨hbytes, hwidx, hrsr, hir, hstate, hout, hacc, hevents⟩ := (st.emit e).rxDeliver_spec n bytes h
  have hlocal : Store.Local n (deliveryCells n (st.widx n).toNat bytes.length) st t :=
    (st.local_emit n e).trans ((st.emit e).local_rxDeliver n bytes)
  have hrsr' : t.rxRsr n = st.rxRsr n + BitVec.ofNat 16 bytes.length := by
    refine hrsr.trans ?_
    rw [BitVec.ofNat_add, BitVec.ofNat_toNat, BitVec.setWidth_eq]
    rfl
  have hwidx' : t.widx n = st.widx n + BitVec.ofNat 11 bytes.length := by
    refine hwidx.trans ?_
    rw [BitVec.ofNat_add, BitVec.ofNat_toNat, BitVec.setWidth_eq]
    rfl
  exact ⟨hevents, hrsr', hwidx', hir, hstate, hout, hacc, hlocal.othersKept, hbytes, hlocal.cells⟩

/-! ### Stream bytes (R285) -/

/-- How many stream bytes the poll takes (R285). -/
def Store.pullCount (st : Store) (n : Fin 4) : Nat := min (st.net n).stream.length (st.rxRoom n)

section
variable {st : Store} {n : Fin 4}

theorem Store.pollStream_none (h : st.pullCount n = 0) : st.pollStream n = st := if_neg (by
  show ¬ 0 < st.pullCount n
  omega)

theorem Store.pollStream_some (h : 0 < st.pullCount n) :
    st.pollStream n = st.pulled n (.take n (st.pullCount n)) ((st.net n).stream.take (st.pullCount n)) := if_pos h

theorem Store.pullCount_length : ((st.net n).stream.take (st.pullCount n)).length = st.pullCount n := by
  rw [List.length_take]
  exact min_eq_left (min_le_left _ _)

end

/-- Settles O46: the bytes taken are the front of the offered ones. -/
theorem streamPullTakesWhatFits : Obligations.StreamPullTakesWhatFits := by
  intro st n hstate hpeer k
  have hk : k = st.pullCount n := rfl
  rw [Store.poll_of_established hstate hpeer, hk]
  refine ⟨Store.pollStream_none, fun hpos => ?_⟩
  have hlen := st.pullCount_length (n := n)
  have hfits : ((st.net n).stream.take (st.pullCount n)).length ≤ st.rxRoom n := hlen.le.trans (min_le_right _ _)
  have hspec := st.pulled_spec n (.take n (st.pullCount n)) hfits
  rw [← Store.pollStream_some hpos, hlen, hstate] at hspec
  obtain ⟨hevents, hrsr, hwidx, hir, hstate', hout, hacc, hothers, hbytes, hcells⟩ := hspec
  refine ⟨hevents, hrsr, hwidx, hir, hstate', hout, hacc, hothers, fun i hi => ?_, hcells⟩
  rw [hbytes i hi, List.getElem?_take_of_lt hi]

/-! ### Datagrams (R286) -/

section
variable {st : Store} {n : Fin 4}

/-- A datagram behind its pseudo-header (R286, R316). -/
def datagramPacket (d : Datagram) : List Byte := pseudoHeader d.ip d.port d.payload.length ++ d.payload

theorem datagramPacket_length (d : Datagram) : (datagramPacket d).length = 8 + d.payload.length := by
  rw [datagramPacket, List.length_append, pseudoHeader_length]

theorem Store.pollDatagram_offered {d : Datagram} (h : (st.net n).dgram = some d) :
    st.pollDatagram n =
      if 8 + d.payload.length ≤ st.rxRoom n then st.pulled n (.take n d.payload.length) (datagramPacket d) else st := by
  unfold Store.pollDatagram
  rw [h]
  rfl

end

/-- Settles O47: the whole packet fits or none of it is taken. -/
theorem datagramIsWholeOrNothing : Obligations.DatagramIsWholeOrNothing := by
  intro st n hstate
  rw [Store.poll_of_udpReady hstate]
  refine ⟨fun hnone => ?_, fun d hd => ?_⟩
  · unfold Store.pollDatagram
    rw [hnone]
  · rw [Store.pollDatagram_offered hd]
    refine ⟨fun hroom => if_neg (Nat.not_le.2 hroom), fun hroom => ?_⟩
    have hfits : (datagramPacket d).length ≤ st.rxRoom n := (datagramPacket_length d).le.trans hroom
    have hspec := st.pulled_spec n (.take n d.payload.length) hfits
    rw [datagramPacket_length, hstate] at hspec
    rw [show st.rxRoom n = 2047 - (st.rxRsr n).toNat from rfl, if_pos hroom]
    exact hspec

/-! ### The polls of one tick, in turn (R282) -/

/-- What every poll keeps, the four of a tick keep. -/
theorem Store.pollAll_induction {P : Store → Prop} (hpoll : ∀ (st : Store) (m : Fin 4), P st → P (st.poll m))
    {st : Store} (h : P st) : P st.pollAll :=
  hpoll _ 3 (hpoll _ 2 (hpoll _ 1 (hpoll _ 0 h)))

/-- What the poll of socket `n` makes of `P`, where the other polls have no part in either. -/
theorem Store.pollAll_of_poll {P Q : Store → Prop} (n : Fin 4)
    (hbefore : ∀ (st : Store) (m : Fin 4), m ≠ n → P st → P (st.poll m)) (hpoll : ∀ st : Store, P st → Q (st.poll n))
    (hafter : ∀ (st : Store) (m : Fin 4), m ≠ n → Q st → Q (st.poll m)) {st : Store} (h : P st) : Q st.pollAll := by
  match n with
  | 0 => exact hafter _ 3 (by decide) (hafter _ 2 (by decide) (hafter _ 1 (by decide) (hpoll _ h)))
  | 1 => exact hafter _ 3 (by decide) (hafter _ 2 (by decide) (hpoll _ (hbefore _ 0 (by decide) h)))
  | 2 => exact hafter _ 3 (by decide) (hpoll _ (hbefore _ 1 (by decide) (hbefore _ 0 (by decide) h)))
  | 3 => exact hpoll _ (hbefore _ 2 (by decide) (hbefore _ 1 (by decide) (hbefore _ 0 (by decide) h)))

/-! ### A delivery in the tick of a clear (R338) -/

/-- NetEnv offers socket `n` data that its state takes and that has room. -/
def Store.DeliveryDue (st : Store) (n : Fin 4) : Prop :=
  (st.state n = .established ∧ (st.net n).peerClosed = false ∧ (st.net n).stream ≠ [] ∧ (st.rxRsr n).toNat < 2047) ∨
    (st.state n = .udpReady ∧ ∃ d : Datagram, (st.net n).dgram = some d ∧
      8 + d.payload.length ≤ 2047 - (st.rxRsr n).toNat)

namespace Store.DeliveryDue

variable {st t : Store} {n : Fin 4} (h : st.DeliveryDue n)
include h

theorem congr (hstate : t.state n = st.state n) (hnet : t.net n = st.net n) (hrsr : t.rxRsr n = st.rxRsr n) :
    t.DeliveryDue n := by
  unfold Store.DeliveryDue
  rwa [hstate, hnet, hrsr]

theorem poll_other {m : Fin 4} (hm : m ≠ n) : (st.poll m).DeliveryDue n := by
  obtain ⟨-, hstate, hrsr, hnet⟩ := st.poll_other hm.symm
  exact h.congr hstate hnet hrsr

theorem clearIr (v : Byte) : (st.clearIr n v).DeliveryDue n :=
  h.congr rfl rfl (st.get16_setReg_cell n n 0x02 0x26 _ (by decide) (by decide))

/-- The poll delivers, and so sets IR bit 2. -/
theorem poll_ir : (st.poll n).ir n = st.ir n ||| 0x04 := by
  rcases h with ⟨hstate, hpeer, hstream, hroom⟩ | ⟨hstate, d, hd, hroom⟩
  · have hpos : 0 < min (st.net n).stream.length (2047 - (st.rxRsr n).toNat) := by
      have := List.length_pos_of_ne_nil hstream
      omega
    obtain ⟨-, -, -, hir, -⟩ := (streamPullTakesWhatFits st n hstate hpeer).2 hpos
    exact hir
  · obtain ⟨-, -, -, hir, -⟩ := ((datagramIsWholeOrNothing st n hstate).2 d hd).2 hroom
    exact hir

end Store.DeliveryDue

theorem recvFlag_set (x : Byte) : (x ||| 0x04).getLsbD 2 = true := by
  rw [BitVec.getLsbD_or, show (0x04 : Byte).getLsbD 2 = true from rfl, Bool.or_true]

/-- Settles O51: the write has no part in what makes the delivery due; the poll of the socket then sets the bit, and no
other poll clears it. -/
theorem deliveryAfterClearInOneTick : Obligations.DeliveryAfterClearInOneTick := by
  intro st n v hdue
  rw [Store.routerWrite_bank, Store.sockWrite_ir]
  refine Store.pollAll_of_poll (P := fun x => x.DeliveryDue n) (Q := fun x => (x.ir n).getLsbD 2 = true) n
    (fun _ m hm h => h.poll_other hm) (fun x h => ?_) (fun x m hm h => ?_) (Store.DeliveryDue.clearIr hdue v)
  · rw [h.poll_ir]
    exact recvFlag_set _
  · obtain ⟨hir, -⟩ := x.poll_other hm.symm
    rw [hir]
    exact h

end Sys2Proof.Machine
end

section
/-! PROOF. The four sockets are independent (R289), the receive pointers agree with RX_RSR (R41 item 4), and a lifecycle
moves only along the edges of R40. -/

namespace Sys2Proof.Machine

/-! ### Independence of the sockets -/

/-- Settles O49: both are operations of socket `n`. -/
theorem socketsWriteOnlyTheirOwn : Obligations.SocketsWriteOnlyTheirOwn := by
  intro st n m v hm
  have hpoll := st.local_poll n
  have hcommand := st.local_dispatch n v
  exact ⟨hpoll.others m hm, hcommand.others m hm, hpoll.cells, hcommand.cells⟩

/-- Settles O50: two stores in agreement on the socket stay so. -/
theorem socketsReadOnlyTheirOwn : Obligations.SocketsReadOnlyTheirOwn := by
  intro st su n v hcfg hnet hnow hsock hcells
  have hagree : Store.Agree n st su := ⟨hcfg, hnet, hnow, hsock, hcells⟩
  have hpoll := hagree.poll
  have hcommand := hagree.dispatch v
  exact ⟨hpoll.sock, hcommand.sock, fun a ha => ⟨hpoll.cells a ha, hcommand.cells a ha⟩⟩

/-! ### The command rules, said once -/

/-- The dispatch is one of the seven rules, or nothing (R240). -/
theorem Store.dispatch_cases (st : Store) (n : Fin 4) (v : Byte) {P : Store → Prop} (hopen : P (st.openRule n))
    (hlisten : P (st.listenRule n)) (hconnect : P (st.connectRule n)) (hdiscon : P (st.disconRule n))
    (hclose : P (st.closeRule n)) (hsend : P (st.sendRule n)) (hrecv : P (st.recvRule n)) (hnop : P st) :
    P (st.dispatch n v) := by
  unfold Store.dispatch Store.nopRule
  split_ifs <;> assumption

section
variable (st : Store) (n : Fin 4) {P : Store → Prop}

/-- What an OPEN can leave: nothing new, the request, or the request granted (R241). -/
theorem Store.openRule_cases (hsame : P st)
    (hasked : st.state n = .closed → P (st.emit (st.openRequest n)))
    (hopened : st.state n = .closed → P ((st.emit (st.openRequest n)).opened n (st.openTarget n))) :
    P (st.openRule n) := by
  by_cases h : st.state n = .closed ∧ (st.proto n = 1 ∨ st.proto n = 2)
  · rw [Store.openRule_of_closed h.1 h.2]
    split_ifs
    · exact hopened h.1
    · exact hasked h.1
  · rw [Store.openRule_of_not (by tauto)]
    exact hsame

/-- What a LISTEN can leave (R242). -/
theorem Store.listenRule_cases (hsame : P st) (hrequest : st.state n = .init →
    P (st.request n (.listen n (st.port n)) (st.net n).bindOk .listen)) : P (st.listenRule n) := by
  by_cases h : st.state n = .init
  · exact Store.listenRule_of_init h ▸ hrequest h
  · exact (Store.listenRule_of_ne_init h).symm ▸ hsame

/-- What a CONNECT can leave (R243). -/
theorem Store.connectRule_cases (hsame : P st) (hrequest : st.state n = .init →
    P (st.request n (.connect n (st.dipr n) (st.dport n)) (st.net n).connectOk .established)) :
    P (st.connectRule n) := by
  by_cases h : st.state n = .init
  · exact Store.connectRule_of_init h ▸ hrequest h
  · exact (Store.connectRule_of_ne_init h).symm ▸ hsame

/-- What a SEND can leave: nothing new, or a drain and SEND_OK, with an event or a delivery in between (R246). -/
theorem Store.sendRule_cases (hsame : P st) (hsent : ∀ e, P (((st.drainTx n).flagSendOk n).emit e))
    (hdropped : P ((st.drainTx n).flagSendOk n))
    (hanswered : ∀ bytes : List Byte, bytes.length ≤ st.rxRoom n →
      P (((st.drainTx n).rxDeliver n bytes).flagSendOk n)) : P (st.sendRule n) := by
  have hdeliver : ∀ bytes : List Byte, P (((st.drainTx n).deliver n bytes).flagSendOk n) := by
    intro bytes
    rw [Store.drainTx_deliver]
    split_ifs with hfits
    · exact hanswered bytes hfits
    · exact hdropped
  cases hstate : st.state n with
  | closed | init | listen => rw [Store.sendRule_of_not_connected (by simp [hstate]) (by simp [hstate])]; exact hsame
  | established =>
    rw [Store.sendRule_of_established hstate, Store.sendTcpRule_eq]
    exact hsent _
  | udpReady =>
    rw [Store.sendRule_of_udpReady hstate, Store.sendUdpRule_eq]
    split_ifs
    · exact hdeliver _
    · unfold Store.loopbackNtp
      split_ifs
      · exact hdeliver _
      · exact hdropped
    · exact hsent _

/-- What a poll can leave: nothing new, an accept, the release, or bytes that fit (R282 to R288). -/
theorem Store.poll_cases (hsame : P st)
    (haccept : st.state n = .listen → ∀ p, (st.net n).pending = some p → P (st.accepted n p))
    (hclosed : st.state n = .established → P ((st.release n).setState n .closed))
    (hpulled : ∀ (e : NetEvent) (bytes : List Byte), bytes.length ≤ st.rxRoom n → P (st.pulled n e bytes)) :
    P (st.poll n) := by
  cases hstate : st.state n with
  | closed => rw [Store.poll_idle (Or.inl hstate)]; exact hsame
  | init => rw [Store.poll_idle (Or.inr (Or.inl hstate))]; exact hsame
  | listen =>
    rw [Store.poll_of_listen hstate]
    cases hpending : (st.net n).pending with
    | none => rw [← Store.poll_of_listen hstate, Store.poll_idle (.inr (.inr (.inl ⟨hstate, hpending⟩)))]; exact hsame
    | some p => rw [Store.pollAccept_of_pending hpending]; exact haccept hstate p hpending
  | established =>
    cases hpeer : (st.net n).peerClosed with
    | true => rw [Store.poll_of_peerClosed hstate hpeer]; exact hclosed hstate
    | false =>
      rw [Store.poll_of_established hstate hpeer]
      rcases Nat.eq_zero_or_pos (st.pullCount n) with hnone | hsome
      · rw [Store.pollStream_none hnone]; exact hsame
      · rw [Store.pollStream_some hsome]
        exact hpulled _ _ (Store.pullCount_length.le.trans (min_le_right _ _))
  | udpReady =>
    rw [Store.poll_of_udpReady hstate]
    cases hdgram : (st.net n).dgram with
    | none =>
      rw [← Store.poll_of_udpReady hstate, Store.poll_idle (.inr (.inr (.inr (.inr ⟨hstate, hdgram⟩))))]
      exact hsame
    | some d =>
      rw [Store.pollDatagram_offered hdgram]
      split_ifs with hfits
      · exact hpulled _ _ ((datagramPacket_length d).le.trans hfits)
      · exact hsame

end

/-! ### RX_RSR and the receive pointers (R41 item 4) -/

/-- The cells of RX_RSR and RX_RD. -/
abbrev rxPointerCells (n : Fin 4) (a : Nat) : Prop := bankCells n 0x26 0x29 a

theorem rxPointerCells_iff {n : Fin 4} {c : Byte} :
    rxPointerCells n (bankAddr n c) ↔ 0x26 ≤ c.toNat ∧ c.toNat ≤ 0x29 :=
  bankCells_iff.trans (and_iff_right rfl)

section
variable {st t : Store} {n : Fin 4}

/-- An operation of any socket that stores to neither register and leaves the write index alone. -/
theorem Store.RsrTracks.of_local {m : Fin 4} {P : Nat → Prop} (hl : Store.Local m P st t)
    (hP : ∀ a, rxPointerCells n a → ¬ P a) (hwidx : t.widx n = st.widx n) (h : st.RsrTracks n) : t.RsrTracks n := by
  have hcell : ∀ c : Byte, (0x26 : Byte).toNat ≤ c.toNat → c.toNat ≤ (0x29 : Byte).toNat → ¬ P (bankAddr n c) :=
    fun c hlow hhigh => hP _ (bankCells_of hlow hhigh)
  have hrsr : t.rxRsr n = st.rxRsr n :=
    hl.get16 (hcell 0x26 (by decide) (by decide)) (hcell 0x27 (by decide) (by decide))
  have hrd : t.rxRd n = st.rxRd n :=
    hl.get16 (hcell 0x28 (by decide) (by decide)) (hcell 0x29 (by decide) (by decide))
  rw [Store.RsrTracks, hrsr, hrd, hwidx]
  exact h

/-- An operation of another socket. -/
theorem Store.RsrTracks.of_other {m : Fin 4} (hl : Store.Local m (ownAddr m) st t) (hm : n ≠ m) (h : st.RsrTracks n) :
    t.RsrTracks n :=
  h.of_local hl (fun _ hcell hown => hm (ownAddr_inj (ownAddr_bankCells hcell) hown)) (hl.widx_other hm)

/-- A delivery that fits moves the write index and RX_RSR by the same number of bytes. -/
theorem Store.RsrTracks.rxDeliver {bytes : List Byte} (hfits : bytes.length ≤ st.rxRoom n) (h : st.RsrTracks n) :
    (st.rxDeliver n bytes).RsrTracks n := by
  obtain ⟨-, hwidx, hrsr, -⟩ := deliveryIntoTheReceiveRing st n bytes hfits
  have hrd : (st.rxDeliver n bytes).rxRd n = st.rxRd n := by
    refine (st.local_rxDeliver n bytes).get16 ?_ ?_ <;>
    · rintro (hc | hc | hc)
      · exact absurd (bankAddr_inj.1 hc).2 (by decide)
      · exact absurd (bankCells_iff.1 hc).2.2 (by decide)
      · exact not_rxCells_bank hc
  unfold Store.RsrTracks Store.rxRoom ringDiff at *
  rw [hwidx, hrsr, hrd]
  omega

/-- Cells of the socket's bank below RX_RSR. -/
theorem not_below_of_rxPointerCells {hi : Byte} (hhi : hi.toNat < 0x26) {lo : Byte} :
    ∀ a, rxPointerCells n a → ¬ bankCells n lo hi a := by
  rintro a ⟨hle, -⟩ ⟨-, hge⟩
  unfold bankAddr at hle hge
  rw [show (0x26 : Byte).toNat = 0x26 from rfl] at hle
  omega

theorem not_sendCells_of_rxPointerCells : ∀ a, rxPointerCells n a → ¬ sendCells n a := by
  rintro a hcell (rfl | hdrain)
  · exact absurd (bankCells_iff.1 hcell).2.1 (by decide)
  · exact not_below_of_rxPointerCells (by decide) a hcell hdrain

/-- The register writes of every SEND. -/
theorem Store.RsrTracks.drain_flagSendOk (h : st.RsrTracks n) : ((st.drainTx n).flagSendOk n).RsrTracks n := by
  obtain ⟨-, -, -, -, hsock, -⟩ := st.drain_flagSendOk_spec n
  have hlocal : Store.Local n (sendCells n) st ((st.drainTx n).flagSendOk n) :=
    ((st.local_drainTx n).mono fun _ hc => Or.inr hc).trans
      ((Store.local_flagSendOk (st.drainTx n) n).mono fun _ hc => Or.inl hc)
  exact h.of_local hlocal not_sendCells_of_rxPointerCells (congrArg (fun x => x[n].widx) hsock)

/-- Reset rings are empty (R250). -/
theorem Store.opened_rsrTracks (x : SockState) : (st.opened n x).RsrTracks n := by
  obtain ⟨-, -, -, hwidx, -, -, -, hrsr, hrd, -⟩ := st.opened_spec n x
  rw [Store.RsrTracks, hrsr, hrd, hwidx]
  rfl

theorem Store.RsrTracks.closed (h : st.RsrTracks n) : ((st.release n).setState n .closed).RsrTracks n := by
  obtain ⟨-, -, -, hwidx, -⟩ := st.closed_spec n
  exact h.of_local (st.local_closed n) (fun _ _ => id) hwidx

theorem Store.RsrTracks.request {e : NetEvent} {ok : Bool} {x : SockState} (h : st.RsrTracks n) :
    (st.request n e ok x).RsrTracks n :=
  h.of_local (Store.local_request e ok x) (fun _ _ => id) (Store.request_widx e ok x)

theorem Store.RsrTracks.setReg {c : Byte} (v : Byte) (hc : ¬ rxPointerCells n (bankAddr n c)) (h : st.RsrTracks n) :
    (st.setReg n c v).RsrTracks n :=
  h.of_local (P := fun a => a = bankAddr n c) (st.local_setReg n v rfl) (by rintro a hcell rfl; exact hc hcell) rfl

/-- Every command keeps the equation; RECV restores it (R247). -/
theorem Store.RsrTracks.dispatch (v : Byte) (h : st.RsrTracks n) : (st.dispatch n v).RsrTracks n := by
  refine st.dispatch_cases n v (P := fun t => t.RsrTracks n) ?_ ?_ ?_ ?_ ?_ ?_ ?_ h
  · exact st.openRule_cases n (P := fun t => t.RsrTracks n) h (fun _ => h) fun _ => Store.opened_rsrTracks _
  · exact st.listenRule_cases n (P := fun t => t.RsrTracks n) h fun _ => h.request
  · exact st.connectRule_cases n (P := fun t => t.RsrTracks n) h fun _ => h.request
  · unfold Store.disconRule
    split_ifs
    · exact h.closed
    · exact h
  · unfold Store.closeRule
    split_ifs
    · exact h
    · exact h.closed
  · refine st.sendRule_cases n (P := fun t => t.RsrTracks n) h (fun _ => h.drain_flagSendOk) h.drain_flagSendOk
      fun bytes hfits => ?_
    have hdrained : (st.drainTx n).RsrTracks n :=
      h.of_local (st.local_drainTx n) (not_below_of_rxPointerCells (by decide))
        (congrArg (fun x => x[n].widx) (st.drainTx_sock n).1)
    exact (hdrained.rxDeliver (hfits.trans (st.drainTx_rxRoom n).ge)).setReg _ (by rw [rxPointerCells_iff]; decide)
  · by_cases hconnected : st.state n = .established ∨ st.state n = .udpReady
    · obtain ⟨-, htracks, -⟩ := Store.recvRule_spec hconnected
      exact htracks
    · unfold Store.recvRule
      rw [if_neg hconnected]
      exact h

/-- A write to a bank cell of the socket other than RX_RD. -/
theorem Store.RsrTracks.sockWrite {c : Byte} (v : Byte) (hlow : c ≠ 0x28) (hhigh : c ≠ 0x29) (h : st.RsrTracks n) :
    (st.sockWrite n c v).RsrTracks n := by
  have hcell : ∀ c : Byte, isReadOnlyCell c = false → c ≠ 0x28 → c ≠ 0x29 → ¬ rxPointerCells n (bankAddr n c) := by
    simp only [rxPointerCells_iff]
    decide +kernel
  unfold Store.sockWrite
  split_ifs with hcr hir hro hwr
  · exact ((h.setReg v (by rw [rxPointerCells_iff]; decide)).dispatch v).setReg _ (by rw [rxPointerCells_iff]; decide)
  · exact h.setReg _ (by rw [rxPointerCells_iff]; decide)
  · exact h
  · refine Store.RsrTracks.of_local (Store.local_updateFsr _ n) (not_below_of_rxPointerCells (by decide)) ?_
      (h.setReg v (hcell c (by simpa using hro) hlow hhigh))
    exact Store.set16_widx _ n n _ _
  · exact h.setReg v (hcell c (by simpa using hro) hlow hhigh)

theorem Store.RsrTracks.routerWrite {a : Half} (v : Byte) (hlow : a.toNat ≠ bankAddr n 0x28)
    (hhigh : a.toNat ≠ bankAddr n 0x29) (h : st.RsrTracks n) : (st.routerWrite a v).RsrTracks n := by
  rcases st.routerWrite_cases a v with ⟨m, c, ha, hw⟩ | ⟨hbank, hmapped, hw⟩ | ⟨-, hw⟩
  · rw [hw]
    by_cases hm : n = m
    · subst hm
      exact h.sockWrite v (by rintro rfl; exact hlow ha) (by rintro rfl; exact hhigh ha)
    · exact h.of_other (st.local_sockWrite m c v) hm
  · rw [hw]
    refine h.of_local (P := fun b => b = a.toNat) (st.local_poke n v rfl hmapped) ?_ rfl
    rintro b ⟨hge, hle⟩ rfl
    have := bankAddr_range n 0x26
    have := bankAddr_range n 0x29
    omega
  · rw [hw]
    exact h

theorem Store.RsrTracks.poll (h : st.RsrTracks n) (m : Fin 4) : (st.poll m).RsrTracks n := by
  by_cases hm : n = m
  · subst hm
    refine st.poll_cases n (P := fun t => t.RsrTracks n) h (fun _ p hpending => ?_) (fun _ => h.closed)
      fun e bytes hfits => Store.RsrTracks.rxDeliver (st := st.emit e) hfits h
    have hlocal := st.local_pollAccept n
    rw [Store.pollAccept_of_pending hpending] at hlocal
    exact h.of_local hlocal (not_below_of_rxPointerCells (by decide)) (st.accepted_widx n p)
  · exact h.of_other (st.local_poll m) hm

end

/-- Settles O58: poll by poll, and write by write. -/
theorem receivedSizeTracksTheRing : Obligations.ReceivedSizeTracksTheRing := by
  intro st n h
  have hpolls : st.pollAll.RsrTracks n :=
    Store.pollAll_induction (P := fun t => t.RsrTracks n) (fun _ m ht => ht.poll m) h
  exact ⟨hpolls, fun a v hlow hhigh => h.routerWrite v hlow hhigh⟩

/-! ### The lifecycle (R40) -/

/-- An edge a poll may take (R283, R284), the loop of no change among them. -/
def SockState.PollEdge (x y : SockState) : Prop :=
  y = x ∨ (x = .listen ∧ y = .established) ∨ (x = .established ∧ y = .closed)

/-- An edge a command may take (R241 to R245), the loop of no change among them. -/
def SockState.CommandEdge (x y : SockState) : Prop :=
  y = x ∨ (x = .closed ∧ (y = .init ∨ y = .udpReady)) ∨ (x = .init ∧ (y = .listen ∨ y = .established)) ∨
    (x ≠ .closed ∧ y = .closed)

section
variable (st : Store) (n : Fin 4)

theorem Store.poll_edge : (st.state n).PollEdge ((st.poll n).state n) := by
  refine st.poll_cases n (P := fun t => (st.state n).PollEdge (t.state n)) (Or.inl rfl) (fun hlisten p _ => ?_)
    (fun hestablished => ?_) fun e bytes hfits => ?_
  · exact Or.inr (Or.inl ⟨hlisten, st.accepted_state n p⟩)
  · exact Or.inr (Or.inr ⟨hestablished, (st.closed_spec n).1⟩)
  · obtain ⟨-, -, -, -, hstate, -⟩ := st.pulled_spec n e hfits
    exact Or.inl hstate

theorem Store.closed_edge (h : st.state n ≠ .closed) :
    (st.state n).CommandEdge (((st.release n).setState n .closed).state n) :=
  Or.inr (Or.inr (Or.inr ⟨h, (st.closed_spec n).1⟩))

/-- A request granted in `INIT` moves to its target, one refused stays. -/
theorem Store.request_edge (e : NetEvent) (ok : Bool) {x : SockState} (h : st.state n = .init)
    (hx : x = .listen ∨ x = .established) : (st.state n).CommandEdge ((st.request n e ok x).state n) := by
  rw [Store.request_state]
  cases ok with
  | false => exact Or.inl rfl
  | true => exact Or.inr (Or.inr (Or.inl ⟨h, hx⟩))

theorem Store.openTarget_cases : st.openTarget n = .init ∨ st.openTarget n = .udpReady := by
  unfold Store.openTarget
  split_ifs <;> simp

theorem Store.dispatch_edge (v : Byte) : (st.state n).CommandEdge ((st.dispatch n v).state n) := by
  have hsame : (st.state n).CommandEdge (st.state n) := Or.inl rfl
  refine st.dispatch_cases n v (P := fun t => (st.state n).CommandEdge (t.state n)) ?_ ?_ ?_ ?_ ?_ ?_ ?_ hsame
  · refine st.openRule_cases n (P := fun t => (st.state n).CommandEdge (t.state n)) hsame (fun _ => hsame)
      fun hclosed => Or.inr (Or.inl ⟨hclosed, ?_⟩)
    rw [((st.emit (st.openRequest n)).opened_spec n (st.openTarget n)).1]
    exact st.openTarget_cases n
  · exact st.listenRule_cases n (P := fun t => (st.state n).CommandEdge (t.state n)) hsame
      fun hinit => st.request_edge n _ _ hinit (Or.inl rfl)
  · exact st.connectRule_cases n (P := fun t => (st.state n).CommandEdge (t.state n)) hsame
      fun hinit => st.request_edge n _ _ hinit (Or.inr rfl)
  · unfold Store.disconRule
    split_ifs with hconnected
    · exact st.closed_edge n (by rcases hconnected with h | h <;> simp [h])
    · exact hsame
  · unfold Store.closeRule
    split_ifs with hclosed
    · exact hsame
    · exact st.closed_edge n hclosed
  · obtain ⟨-, -, -, -, hsock, -⟩ := st.drain_flagSendOk_spec n
    have hdrained : ((st.drainTx n).flagSendOk n).state n = st.state n := congrArg (fun x => x[n].state) hsock
    refine st.sendRule_cases n (P := fun t => (st.state n).CommandEdge (t.state n)) hsame (fun _ => Or.inl hdrained)
      (Or.inl hdrained) fun bytes hfits => ?_
    obtain ⟨-, -, -, -, -, -, hstate, -⟩ := st.drain_deliver_spec n bytes hfits
    exact Or.inl hstate
  · unfold Store.recvRule
    split_ifs
    · exact Or.inl (st.set16_state n n _ _)
    · exact hsame

/-- A write to any bank cell but CR has no part in the sockets (R208 to R213). -/
theorem Store.sockWrite_sock {c : Byte} (v : Byte) (hcr : c ≠ 0x01) : (st.sockWrite n c v).sock = st.sock := by
  unfold Store.sockWrite
  rw [if_neg hcr]
  split_ifs
  · rfl
  · rfl
  · exact Store.updateFsr_sock _ n
  · rfl

theorem Store.routerWrite_state {a : Half} (v : Byte) (ha : a.toNat ≠ bankAddr n 0x01) :
    (st.routerWrite a v).state n = st.state n := by
  rcases st.routerWrite_cases a v with ⟨m, c, hc, hw⟩ | ⟨-, -, hw⟩ | ⟨-, hw⟩
  · rw [hw]
    by_cases hm : n = m
    · subst hm
      have hcr : c ≠ 0x01 := by rintro rfl; exact ha hc
      exact congrArg (fun x => x[n].state) (st.sockWrite_sock n v hcr)
    · exact (st.local_sockWrite m c v).state_other hm
  · rw [hw]
    exact st.poke_state _ n v
  · rw [hw]

end

/-- Settles O59: the edges of a poll, of a command, and of every other write. -/
theorem lifecycleTransitions : Obligations.LifecycleTransitions :=
  fun st n => ⟨st.poll_edge n, st.dispatch_edge n, fun _ v ha => st.routerWrite_state n v ha⟩

end Sys2Proof.Machine
end

section
/-! PROOF. The loopback responders as pure functions: the layout of the replies (R304, R305, R312, R313) and the scan
for the message type (R303). -/

namespace Sys2Proof.Machine

/-! ### A list of fields laid end to end -/

section
variable {fields : List (List Byte)} {j : Nat} {field : List Byte} (hfield : fields[j]? = some field)
include hfield

theorem drop_flatten_field :
    fields.flatten.drop (fields.take j).flatten.length = field ++ (fields.drop (j + 1)).flatten := by
  obtain ⟨hj, hget⟩ := List.getElem?_eq_some_iff.1 hfield
  have hsplit : fields.flatten = (fields.take j).flatten ++ (field ++ (fields.drop (j + 1)).flatten) := by
    rw [← List.flatten_cons, ← List.flatten_append, ← hget, ← List.drop_eq_getElem_cons hj, List.take_append_drop]
  rw [hsplit, List.drop_left]

theorem take_drop_flatten_field :
    (fields.flatten.drop (fields.take j).flatten.length).take field.length = field := by
  rw [drop_flatten_field hfield, List.take_left]

theorem getElem?_flatten_field {i : Nat} (hi : i < field.length) :
    fields.flatten[(fields.take j).flatten.length + i]? = field[i]? := by
  rw [← List.getElem?_drop, drop_flatten_field hfield, List.getElem?_append_left hi]

end

/-! ### The address-assignment reply (R304, R305) -/

/-- The fields of the reply, cut where the rules of R304 and R305 name one. -/
def dhcpFields (c : Config) (req : List Byte) : List (List Byte) :=
  [[0x02, reqByte req 1, reqByte req 2, 0x00],
   (List.range' 4 4).map (reqByte req),
   List.replicate 8 0x00,
   ipBytes c.dhcpLease,
   ipBytes c.dhcpServer,
   List.replicate 4 0x00,
   (List.range' 28 16).map (reqByte req),
   List.replicate 192 0x00,
   [0x63, 0x82, 0x53, 0x63, 0x35, 0x01],
   [replyType req],
   [0x01, 0x04] ++ ipBytes c.dhcpMask,
   [0x03, 0x04] ++ ipBytes c.dhcpRouter,
   [0x36, 0x04] ++ ipBytes c.dhcpServerId,
   [0xFF]]

section
variable (c : Config) (req : List Byte)

theorem dhcpReply_eq_flatten : dhcpReply c req = (dhcpFields c req).flatten := by
  simp only [dhcpReply, dhcpFields, List.flatten_cons, List.flatten_nil, List.append_assoc, List.cons_append,
    List.nil_append, List.append_nil]

/-- Where each field of the reply begins. -/
theorem dhcpFields_offset (j : Nat) : ((dhcpFields c req).take j).flatten.length =
    ([4, 4, 8, 4, 4, 4, 16, 192, 6, 1, 6, 6, 6, 1].take j).sum := by
  rw [List.length_flatten, List.map_take]
  rfl

variable {c req} {j off : Nat} {field : List Byte} (hfield : (dhcpFields c req)[j]? = some field)
  (hoff : ([4, 4, 8, 4, 4, 4, 16, 192, 6, 1, 6, 6, 6, 1].take j).sum = off)
include hfield hoff

theorem dhcpReply_field {len : Nat} (hlen : field.length = len) : ((dhcpReply c req).drop off).take len = field := by
  have h := take_drop_flatten_field hfield
  rwa [← dhcpReply_eq_flatten, dhcpFields_offset, hoff, hlen] at h

theorem dhcpReply_byte {i : Nat} (hlow : off ≤ i) (hhigh : i < off + field.length) :
    (dhcpReply c req)[i]? = field[i - off]? := by
  have h := getElem?_flatten_field hfield (i := i - off) (by omega)
  rwa [← dhcpReply_eq_flatten, dhcpFields_offset, hoff, Nat.add_sub_cancel' hlow] at h

omit hfield in
/-- A field echoed from the request at its own offset. -/
theorem dhcpReply_echo {len : Nat} (hecho : (dhcpFields c req)[j]? = some ((List.range' off len).map (reqByte req)))
    {i : Nat} (hlow : off ≤ i) (hhigh : i < off + len) : (dhcpReply c req)[i]? = some (reqByte req i) := by
  rw [dhcpReply_byte hecho hoff hlow (by simpa using hhigh), List.getElem?_map, List.getElem?_range' (by omega)]
  simp [Nat.add_sub_cancel' hlow]

omit hfield in
theorem dhcpReply_zeros {len : Nat} (hzeros : (dhcpFields c req)[j]? = some (List.replicate len 0x00))
    {i : Nat} (hlow : off ≤ i) (hhigh : i < off + len) : (dhcpReply c req)[i]? = some 0x00 := by
  rw [dhcpReply_byte hzeros hoff hlow (by simpa using hhigh), List.getElem?_replicate_of_lt (by omega)]

end

/-- Settles O53, field by field. -/
theorem dhcpReplyLayout : Obligations.DhcpReplyLayout := by
  intro c req
  have hhead : ∀ i : Nat, i < 4 → (dhcpReply c req)[i]? = [0x02, reqByte req 1, reqByte req 2, 0x00][i]? :=
    fun i hi => dhcpReply_byte (j := 0) rfl rfl (Nat.zero_le i) (by simpa using hi)
  refine ⟨dhcpReply_length c req, hhead 0 (by decide), ?_, dhcpReply_field (j := 3) rfl rfl rfl,
    dhcpReply_field (j := 4) rfl rfl rfl, dhcpReply_field (j := 8) rfl rfl rfl,
    dhcpReply_byte (j := 9) (off := 242) rfl rfl le_rfl (Nat.lt_succ_self 242), dhcpReply_field (j := 10) rfl rfl rfl,
    dhcpReply_field (j := 11) rfl rfl rfl, dhcpReply_field (j := 12) rfl rfl rfl,
    dhcpReply_byte (j := 13) (off := 261) rfl rfl le_rfl (Nat.lt_succ_self 261), ?_⟩
  · rintro i (rfl | rfl | ⟨hlow, hhigh⟩ | ⟨hlow, hhigh⟩)
    · exact hhead 1 (by decide)
    · exact hhead 2 (by decide)
    · exact dhcpReply_echo (j := 1) (len := 4) rfl rfl hlow hhigh
    · exact dhcpReply_echo (j := 6) (len := 16) rfl rfl hlow hhigh
  · rintro i (rfl | ⟨hlow, hhigh⟩ | ⟨hlow, hhigh⟩ | ⟨hlow, hhigh⟩)
    · exact hhead 3 (by decide)
    · exact dhcpReply_zeros (j := 2) (len := 8) rfl rfl hlow hhigh
    · exact dhcpReply_zeros (j := 5) (len := 4) rfl rfl hlow hhigh
    · exact dhcpReply_zeros (j := 7) (len := 192) rfl rfl hlow hhigh

/-! ### The message type (R303) -/

/-- The scan starts behind the header of 240 bytes. -/
theorem msgType_append {hdr : List Byte} (h : hdr.length = 240) (rest : List Byte) :
    msgType (hdr ++ rest) = scanOptions 0 rest := by
  rw [msgType, ← h, List.drop_left]

theorem msgType_pads {hdr : List Byte} (h : hdr.length = 240) (pads : Nat) (rest : List Byte) :
    msgType (hdr ++ List.replicate pads 0 ++ rest) = scanOptions 0 rest := by
  rw [List.append_assoc, msgType_append h, scanOptions_pads]

/-- Settles O54: behind the header and the pads, each clause is one case of the scan. -/
theorem messageTypeScan : Obligations.MessageTypeScan := by
  refine ⟨fun hdr pads l v rest hhdr => ?_, fun req hreq => ?_⟩
  · simp only [msgType_pads hhdr, msgType_append hhdr]
    refine ⟨scanOptions_type l v rest, scanOptions_type_empty rest, scanOptions_end rest, ?_, scanOptions_type_cut l,
      fun t body ht => ⟨scanOptions_tag t ht, fun hother hend => ⟨fun hlen => ?_, fun hlen => ?_⟩⟩⟩
    · rw [← List.append_nil (List.replicate pads 0), scanOptions_pads]
      rfl
    · rw [scanOptions_other t l _ ht hother hend]
      exact scanOptions_skip (l.toNat + 1) (l :: body) rest (by rw [List.length_cons, hlen])
    · rw [scanOptions_other t l _ ht hother hend]
      exact scanOptions_short (l.toNat + 1) (l :: body) (Nat.succ_le_succ hlen.le)
  · rw [msgType, List.drop_eq_nil_of_le hreq]
    rfl

/-! ### The time-sync reply (R312, R313) -/

/-- The four big-endian bytes of a 32-bit value, joined again. -/
theorem be32_join (w : BitVec 32) :
    w.extractLsb' 24 8 ++ w.extractLsb' 16 8 ++ w.extractLsb' 8 8 ++ w.extractLsb' 0 8 = w := by
  rw [BitVec.extractLsb'_append_extractLsb'_eq_extractLsb' (by decide),
    BitVec.extractLsb'_append_extractLsb'_eq_extractLsb' (by decide),
    BitVec.extractLsb'_append_extractLsb'_eq_extractLsb' (by decide), BitVec.extractLsb'_eq_self]

/-- Settles O55: a request of 48 bytes ends where the transmit timestamp ends. -/
theorem ntpReplyLayout : Obligations.NtpReplyLayout := by
  intro req now hlen
  have hfront : (req.take 40).length = 40 := by rw [List.length_take, hlen]; rfl
  have hreply : ntpReply req now = req.take 40 ++ (be32 (ntpSeconds now) ++ [0x00, 0x00, 0x00, 0x00]) := by
    rw [ntpReply, List.drop_eq_nil_of_le hlen.le, List.append_nil, List.append_assoc]
  refine ⟨ntpReply_length req now hlen, fun i hi => ?_, _, _, _, _, ?_, be32_join (ntpSeconds now)⟩
  · rw [hreply, List.getElem?_append_left (by omega), List.getElem?_take_of_lt hi]
  · rw [hreply, List.drop_left' hfront]
    rfl

end Sys2Proof.Machine
end

section
/-! PROOF. A Model B burst over MR and CR stores MR before the OPEN it carries (R180, R369). -/

namespace Sys2Proof.Machine

section
variable (st : Store) (n : Fin 4)

/-- A write through the region of a bank is a write to its cell. -/
theorem Store.regionWrite_bank (hbase : regionBase st.cfg (bankBsb n) = some (BitVec.ofNat 16 (bankAddr n 0)))
    (c v : Byte) : st.regionWrite (bankBsb n) 0 (BitVec.ofNat 16 c.toNat) v = st.sockWrite n c v := by
  have haddr : BitVec.ofNat 16 (bankAddr n 0) + 0 + BitVec.ofNat 16 c.toNat = BitVec.ofNat 16 (bankAddr n c) := by
    have hcell : bankAddr n c = bankAddr n 0 + c.toNat := rfl
    rw [add_zero, hcell, BitVec.ofNat_add]
  have heff : effAddr st.cfg (bankBsb n) 0 (BitVec.ofNat 16 c.toNat) = some (BitVec.ofNat 16 (bankAddr n c)) := by
    rw [effAddr, hbase, Option.map_some, haddr]
  unfold Store.regionWrite
  rw [heff]
  exact st.routerWrite_bank n c v

/-- A burst of two bytes from the first cell of a bank on: MR, then CR. -/
theorem Store.regionWrites_mr_cr (hbase : regionBase st.cfg (bankBsb n) = some (BitVec.ofNat 16 (bankAddr n 0)))
    (mr cr : Byte) : st.regionWrites (bankBsb n) 0 0 [mr, cr] = (st.setReg n 0x00 mr).writeCr n cr := by
  have hmr : st.regionWrite (bankBsb n) 0 (BitVec.ofNat 16 0) mr = st.setReg n 0x00 mr :=
    (st.regionWrite_bank n hbase 0x00 mr).trans
      (st.sockWrite_storing n mr (by decide) (by decide) (by decide) (by decide))
  calc st.regionWrites (bankBsb n) 0 0 [mr, cr]
      = (st.regionWrite (bankBsb n) 0 (BitVec.ofNat 16 0) mr).regionWrite (bankBsb n) 0 (BitVec.ofNat 16 1) cr := rfl
    _ = (st.setReg n 0x00 mr).writeCr n cr := by
      rw [hmr]
      exact (Store.regionWrite_bank (st.setReg n 0x00 mr) n hbase 0x01 cr).trans (Store.sockWrite_cr _ n cr)

/-- An OPEN of a closed socket, granted: the state is the one MR asks for. -/
theorem Store.dispatch_open_state {st : Store} {n : Fin 4} (hclosed : st.state n = .closed)
    (hcreate : (st.net n).createOk = true) (hproto : st.proto n = 1 ∨ st.proto n = 2) :
    (st.dispatch n st.cfg.codeOpen).state n = st.openTarget n := by
  have hrule : st.dispatch n st.cfg.codeOpen = st.openRule n := if_pos rfl
  rw [hrule, Store.openRule_of_closed hclosed hproto, if_pos hcreate, (Store.opened_spec _ n _).1]

/-- The write to CR does not reach MR, which the OPEN reads. -/
theorem Store.writeCr_open_state {st : Store} {n : Fin 4} (hclosed : st.state n = .closed)
    (hcreate : (st.net n).createOk = true) (hproto : st.proto n = 1 ∨ st.proto n = 2) :
    (st.writeCr n st.cfg.codeOpen).state n = st.openTarget n := by
  have hmr : (st.setReg n 0x01 st.cfg.codeOpen).proto n = st.proto n :=
    congrArg (fun b : Byte => b.extractLsb' 0 4) (st.reg_setReg_cell n n 0x01 0x00 _ (by decide))
  have hopen : ((st.setReg n 0x01 st.cfg.codeOpen).dispatch n st.cfg.codeOpen).state n =
      (st.setReg n 0x01 st.cfg.codeOpen).openTarget n :=
    Store.dispatch_open_state (st := st.setReg n 0x01 st.cfg.codeOpen) hclosed hcreate (by rwa [hmr])
  unfold Store.openTarget at hopen ⊢
  rwa [hmr] at hopen

end

theorem Store.proto_setReg_mr (st : Store) (n : Fin 4) (mr : Byte) :
    (st.setReg n 0x00 mr).proto n = mr.extractLsb' 0 4 :=
  congrArg (fun b : Byte => b.extractLsb' 0 4) (st.reg_setReg_same n 0x00 mr)

/-- Settles O52: the OPEN reads MR after the burst stored it. -/
theorem burstStoresMrBeforeOpen : Obligations.BurstStoresMrBeforeOpen := by
  intro st n hclosed hcreate hbase
  have hburst : ∀ mr : Byte, mr.extractLsb' 0 4 = 1 ∨ mr.extractLsb' 0 4 = 2 →
      (st.regionWrites (bankBsb n) 0 0 [mr, st.cfg.codeOpen]).state n = (st.setReg n 0x00 mr).openTarget n := by
    intro mr hmr
    rw [st.regionWrites_mr_cr n hbase]
    exact Store.writeCr_open_state (st := st.setReg n 0x00 mr) hclosed hcreate (by rwa [Store.proto_setReg_mr])
  unfold Store.openTarget at hburst
  simp only [Store.proto_setReg_mr] at hburst
  exact ⟨hburst 0x02 (by decide), hburst 0x01 (by decide)⟩

end Sys2Proof.Machine
end

section
/-! PROOF. Whole Model A transactions, byte by byte from an idle bus (R113, R150 to R160). -/

namespace Sys2Proof.Machine

/-! ### Inside a transaction -/

theorem State.xfers_nil (s : State) : s.xfers [] = s := by
  simp only [State.xfers, List.foldl_nil]

/-- The chip `s` inside a transaction: the store is `w` by now, the master has read `r`. -/
def State.amid (s : State) (w : Store) (p : Sampler) (d : Decoder) (r : List Byte) : State :=
  { s with smp := p, store := w, dec := d, received := s.received ++ r }

/-- The sampler between two bytes. -/
abbrev Sampler.Between (p : Sampler) : Prop := p.bitcnt = 0 ∧ p.ready = false

theorem Sampler.after_between (p : Sampler) (v x : Byte) : (p.after v x).Between := ⟨rfl, rfl⟩

/-- Select deasserted between two bytes leaves the last one and nothing else. -/
theorem Sampler.Between.deselected {p : Sampler} (h : p.Between) :
    p.deselected = { Sampler.reset with rxByte := p.rxByte } := by
  unfold Sampler.deselected
  rw [h.2]
  rfl

theorem Store.wait_model {st : Store} {m : Model} (h : st.cfg.model = m) (k : Nat) : (st.wait k).cfg.model = m :=
  (congrArg Config.model (st.wait_cfg k)).trans h

theorem Store.endTick_model {st : Store} {m : Model} (h : st.cfg.model = m) : st.endTick.cfg.model = m :=
  (congrArg Config.model st.endTick_cfg).trans h

theorem Store.routerWrite_model {st : Store} {m : Model} (h : st.cfg.model = m) (a : Half) (v : Byte) :
    (st.routerWrite a v).cfg.model = m :=
  (congrArg Config.model (st.kept_routerWrite a v).cfg).trans h

section
variable {s : State} (h : s.BusIdle)
include h

theorem State.BusIdle.between : s.smp.Between := ⟨h.bitcnt, h.ready⟩

/-- The select tick of a transaction. -/
theorem State.BusIdle.sel : s.sel = s.amid (s.store.wait 1) s.smp s.dec [] := by
  have hclk : { s.smp with prevClk := false } = s.smp := by
    rw [h.smp_eq]
    rfl
  rw [State.sel_spec s h.ready, hclk, State.amid, List.append_nil]

end

/-! ### One byte under Model A -/

/-- The command byte of a direction (R103). -/
def commandByte : Dir → Byte
  | .read => 0x0F
  | .write => 0xF0

/-- What the third byte primes: on a read the cell as it is at that edge (R156). -/
def Store.preload (st : Store) (dir : Dir) (a : Half) : Byte :=
  match dir with
  | .read => st.routerRead a
  | .write => 0

section
variable {s : State} {w : Store} {p : Sampler} {d : Decoder} {r : List Byte} (v : Byte) (hm : w.cfg.model = .a)
  (hp : p.Between)
include hm hp

theorem State.amid_commandA (dir : Dir) (hd : d.st = .aWait) :
    (s.amid w p d r).xfer (commandByte dir) = s.amid (w.wait 16) (p.after (commandByte dir) 0)
      { d with cmd := commandByte dir, dir := dir, st := .aAddrHi } (r ++ [p.shout]) := by
  rw [State.xfer_commandA _ hm hp.1 hp.2 hd]
  simp only [State.amid, List.append_assoc]
  cases dir with
  | read => rfl
  | write => rfl

theorem State.amid_ignoredA (hd : d.st = .aWait) (hwrite : v ≠ 0xF0) (hread : v ≠ 0x0F) :
    (s.amid w p d r).xfer v = s.amid (w.wait 16) (p.after v 0) d (r ++ [p.shout]) := by
  rw [State.xfer_commandA v hm hp.1 hp.2 hd, if_neg hwrite, if_neg hread]
  simp only [State.amid, List.append_assoc]

theorem State.amid_addrHiA (hd : d.st = .aAddrHi) :
    (s.amid w p d r).xfer v =
      s.amid (w.wait 16) (p.after v 0) { d with addr := addrOf v 0, st := .aAddrLo } (r ++ [p.shout]) := by
  rw [State.xfer_addrHiA v hm hp.1 hp.2 hd]
  simp only [State.amid, List.append_assoc]

theorem State.amid_addrLoA {hi : Byte} (hd : d.st = .aAddrLo) (haddr : d.addr = addrOf hi 0) :
    (s.amid w p d r).xfer v =
      s.amid (w.wait 16) (p.after v ((w.wait 15).preload d.dir (addrOf hi v)))
        { d with addr := addrOf hi v, st := .aData } (r ++ [p.shout]) := by
  rw [State.xfer_addrLoA v hm hp.1 hp.2 hd]
  simp only [State.amid, List.append_assoc, haddr, addrOf_or]
  rfl

theorem State.amid_writeA (hd : d.st = .aData) (hdir : d.dir = .write) :
    (s.amid w p d r).xfer v =
      s.amid ((w.wait 15).routerWrite d.addr v).endTick (p.after v 0) { d with st := .aWait } (r ++ [p.shout]) := by
  rw [State.xfer_dataA v hm hp.1 hp.2 hd]
  simp only [State.amid, List.append_assoc, hdir]

theorem State.amid_readA (hd : d.st = .aData) (hdir : d.dir = .read) :
    (s.amid w p d r).xfer v =
      s.amid (w.wait 16) (p.after v 0) { d with st := .aWait } (r ++ [p.shout]) := by
  rw [State.xfer_dataA v hm hp.1 hp.2 hd]
  simp only [State.amid, List.append_assoc, hdir, Store.wait_succ w 15]

end

section
variable {s : State} (hm : s.store.cfg.model = .a) (hidle : s.BusIdle)
include hm hidle

theorem State.BusIdle.st_aWait : s.dec.st = .aWait := by
  rw [← hidle.dec_eq_a hm]

/-- The deselected tick that ends a transaction, whatever it left in the decoder's registers. -/
theorem State.amid_desel_a {w : Store} {p : Sampler} {st : DecSt} {addr : Half} {cmd : Byte} {dir : Dir} {r : List Byte}
    (hw : w.cfg.model = .a) (hp : p.Between) :
    (s.amid w p { s.dec with st := st, addr := addr, cmd := cmd, dir := dir } r).desel =
      { s with
        smp := { Sampler.reset with rxByte := p.rxByte }, store := w.endTick, received := s.received ++ r } := by
  rw [State.desel_a hw hp.2]
  simp only [State.amid, hidle.dec_eq_a hm, hp.deselected]

/-- One byte into a transaction. -/
theorem State.sel_commandA (dir : Dir) :
    s.sel.xfer (commandByte dir) = s.amid (s.store.wait 17) (s.smp.after (commandByte dir) 0)
      { s.dec with cmd := commandByte dir, dir := dir, st := .aAddrHi } [0] := by
  rw [hidle.sel, State.amid_commandA (Store.wait_model hm 1) hidle.between dir (State.BusIdle.st_aWait hm hidle),
    hidle.shout, ← Store.wait_add]
  rfl

/-- Two bytes into a transaction. -/
theorem State.sel_addrHiA (dir : Dir) (hi : Byte) :
    (s.sel.xfer (commandByte dir)).xfer hi = s.amid (s.store.wait 33) ((s.smp.after (commandByte dir) 0).after hi 0)
      { s.dec with cmd := commandByte dir, dir := dir, addr := addrOf hi 0, st := .aAddrLo } [0, 0] := by
  rw [State.sel_commandA hm hidle dir, State.amid_addrHiA hi (Store.wait_model hm 17) (Sampler.after_between _ _ _) rfl,
    ← Store.wait_add]
  rfl

/-- The header of a transaction: three bytes, the cell read in the tick of the 24th edge. -/
theorem State.sel_headerA (dir : Dir) (hi lo : Byte) :
    ((s.sel.xfer (commandByte dir)).xfer hi).xfer lo =
      s.amid (s.store.wait 49) (((s.smp.after (commandByte dir) 0).after hi 0).after lo
          ((s.store.wait 48).preload dir (addrOf hi lo)))
        { s.dec with cmd := commandByte dir, dir := dir, addr := addrOf hi lo, st := .aData } [0, 0, 0] := by
  rw [State.sel_addrHiA hm hidle dir hi,
    State.amid_addrLoA lo (Store.wait_model hm 33) (Sampler.after_between _ _ _) rfl rfl, ← Store.wait_add,
    ← Store.wait_add]
  rfl

end

theorem State.runFrame_eq (s : State) (bytes : List Byte) : s.runFrame bytes = (s.sel.xfers bytes).desel := rfl

/-- Settles O9: the fourth byte completes in the 65th tick and is the router write. -/
theorem aWriteIsOneRouterWrite : Obligations.AWriteIsOneRouterWrite := by
  intro s a d hm hidle
  have hframe : s.runFrame [commandByte .write, hiByte a, loByte a, d] = { s with
      store := ((s.store.wait 64).routerWrite a d).endTick.endTick
      smp := { Sampler.reset with rxByte := d }
      received := s.received ++ [0, 0, 0, 0] } := by
    simp only [State.runFrame_eq, State.xfers_cons, State.xfers_nil]
    rw [State.sel_headerA hm hidle .write, addrOf_hi_lo,
      State.amid_writeA d (Store.wait_model hm 49) (Sampler.after_between _ _ _) rfl rfl, ← Store.wait_add]
    exact State.amid_desel_a hm hidle (Store.endTick_model (Store.routerWrite_model (Store.wait_model hm 64) a d))
      (Sampler.after_between _ _ _)
  exact congrArg Host.Outcome.next hframe

/-- Settles O10: the fourth byte shifts out the cell as the third one found it. -/
theorem aReadDeliversTheCell : Obligations.AReadDeliversTheCell := by
  intro s a x hm hidle
  have hframe : s.runFrame [commandByte .read, hiByte a, loByte a, x] = { s with
      store := s.store.wait 66
      smp := { Sampler.reset with rxByte := x }
      received := s.received ++ [0, 0, 0, (s.store.wait 48).routerRead a] } := by
    simp only [State.runFrame_eq, State.xfers_cons, State.xfers_nil]
    rw [State.sel_headerA hm hidle .read, addrOf_hi_lo,
      State.amid_readA x (Store.wait_model hm 49) (Sampler.after_between _ _ _) rfl rfl, ← Store.wait_add,
      Store.wait_succ s.store 65]
    exact State.amid_desel_a hm hidle (Store.wait_model hm 65) (Sampler.after_between _ _ _)
  exact congrArg Host.Outcome.next hframe

/-- Settles O11: a byte that is no command leaves the decoder waiting. -/
theorem aNopIsIgnored : Obligations.ANopIsIgnored := by
  intro s b hm hidle hwrite hread
  have hframe : s.runFrame [b] = { s with
      store := s.store.wait 18
      smp := { Sampler.reset with rxByte := b }
      received := s.received ++ [0] } := by
    simp only [State.runFrame_eq, State.xfers_cons, State.xfers_nil]
    rw [hidle.sel, State.amid_ignoredA b (Store.wait_model hm 1) hidle.between (State.BusIdle.st_aWait hm hidle) hwrite
      hread, hidle.shout, ← Store.wait_add, Store.wait_succ s.store 17]
    exact State.amid_desel_a hm hidle (Store.wait_model hm 17) (Sampler.after_between _ _ _)
  exact congrArg Host.Outcome.next hframe

/-- Settles O14: no poll acts before or after the write, and the write is a store to a cell that has no rule. -/
theorem aWriteToPlainCellFrame : Obligations.AWriteToPlainCellFrame := by
  intro s a d hm hidle hquiet hplain
  have hexec := aWriteIsOneRouterWrite s a d hm hidle
  have hbus : State.BusIdle (s.runFrame (encode s.store.cfg (.aWrite a d))) := deselectedTickIdlesTheBus _ _ rfl
  rw [Host.Outcome.next.inj hexec] at hbus
  have hwait := s.store.wait_quiet hquiet 64
  generalize s.store.wait 64 = w at hexec hbus hwait
  obtain ⟨hmem, hsock, hevents, hcfg, hwaited⟩ := hwait
  have hstored : (w.poke a.toNat d).Quiet := hwaited
  have hpolled : (w.routerWrite a d).endTick.endTick = (w.poke a.toNat d).advance.advance := by
    rw [Store.routerWrite_of_plainAddr w d hplain, Store.endTick_quiet _ hstored]
    exact Store.endTick_quiet _ hstored
  have hpeek : ∀ x : Nat, w.peek x = s.store.peek x := fun x => by
    unfold Store.peek
    rw [hmem, hcfg]
  refine ⟨_, hexec, ?_, fun x hx => ?_, ?_, ?_, rfl, hbus⟩
  · rw [hpolled]
    exact w.peek_poke_same a.toNat d
  · rw [hpolled]
    exact ((w.peek_poke a.toNat x d).trans (if_neg hx)).trans (hpeek x)
  · rw [hpolled]
    exact hsock
  · rw [hpolled]
    exact hevents

end Sys2Proof.Machine
end

section
/-! PROOF. Whole Model B transactions, byte by byte from an idle bus (R113, R170 to R180), and what frames that end too
early leave under either variant (R101, R161, R182). -/

namespace Sys2Proof.Machine

/-! ### One byte under Model B -/

/-- What a data byte does to the decoder of a write: it is staged, or dropped at the capacity (R177). -/
def Decoder.stageByte (cap : Nat) (d : Decoder) (b : Byte) : Decoder :=
  if d.count.toNat < cap then
    { d with stage := Memory.write stageResetByte d.stage d.count.toNat b, count := d.count + 1 }
  else d

section
variable {s : State} {w : Store} {p : Sampler} {d : Decoder} {r : List Byte} (v : Byte) (hm : w.cfg.model = .b)
  (hp : p.Between)
include hm hp

theorem State.amid_addrHiB (hd : d.st = .bWait) :
    (s.amid w p d r).xfer v =
      s.amid (w.wait 16) (p.after v 0) { d with addr := addrOf v 0, st := .bAddrLo } (r ++ [p.shout]) := by
  rw [State.xfer_addrHiB v hm hp.1 hp.2 hd]
  simp only [State.amid, List.append_assoc]

theorem State.amid_addrLoB {hi : Byte} (hd : d.st = .bAddrLo) (haddr : d.addr = addrOf hi 0) :
    (s.amid w p d r).xfer v =
      s.amid (w.wait 16) (p.after v 0) { d with addr := addrOf hi v, st := .bCmd } (r ++ [p.shout]) := by
  rw [State.xfer_addrLoB v hm hp.1 hp.2 hd]
  simp only [State.amid, List.append_assoc, haddr, addrOf_or]

theorem State.amid_controlB (hd : d.st = .bCmd) :
    (s.amid w p d r).xfer v =
      s.amid (w.wait 16) (p.after v (if ctlWrite v then 0 else (w.wait 15).regionRead (ctlBsb v) d.addr 0))
        { d with cmd := v, dir := if ctlWrite v then .write else .read, count := 0, st := .bData }
        (r ++ [p.shout]) := by
  rw [State.xfer_controlB v hm hp.1 hp.2 hd]
  simp only [State.amid, List.append_assoc]

theorem State.amid_readB (hd : d.st = .bData) (hdir : d.dir = .read) :
    (s.amid w p d r).xfer v =
      s.amid (w.wait 16) (p.after v ((w.wait 15).regionRead (ctlBsb d.cmd) d.addr (d.count + 1)))
        { d with count := d.count + 1 } (r ++ [p.shout]) := by
  rw [State.xfer_readB v hm hp.1 hp.2 hd hdir]
  simp only [State.amid, List.append_assoc]

theorem State.amid_stageB (hd : d.st = .bData) (hdir : d.dir = .write) :
    (s.amid w p d r).xfer v =
      s.amid (w.wait 16) (p.after v 0) (d.stageByte w.cfg.stageCap v) (r ++ [p.shout]) := by
  rw [State.xfer_stageB v hm hp.1 hp.2 hd hdir]
  simp only [State.amid, List.append_assoc]
  rfl

end

section
variable {s : State} (hm : s.store.cfg.model = .b) (hidle : s.BusIdle)
include hm hidle

theorem State.BusIdle.st_bWait : s.dec.st = .bWait := by
  rw [← hidle.dec_eq_b hm]

/-- The deselected tick that ends a transaction commits, and keeps of the decoder the staging buffer. -/
theorem State.amid_desel_b {w : Store} {p : Sampler} {d : Decoder} {r : List Byte} (hw : w.cfg.model = .b)
    (hp : p.Between) :
    (s.amid w p d r).desel = { s with
      smp := { Sampler.reset with rxByte := p.rxByte }
      store := (s.amid w p d r).commitB.endTick
      dec := { s.dec with stage := d.stage }
      received := s.received ++ r } := by
  rw [State.desel_b hw hp.2, ← hidle.dec_eq_b hm]
  simp only [State.amid, hp.deselected]

/-- One byte into a transaction. -/
theorem State.sel_addrHiB (hi : Byte) :
    s.sel.xfer hi = s.amid (s.store.wait 17) (s.smp.after hi 0)
      { s.dec with addr := addrOf hi 0, st := .bAddrLo } [0] := by
  rw [hidle.sel, State.amid_addrHiB hi (Store.wait_model hm 1) hidle.between (State.BusIdle.st_bWait hm hidle),
    hidle.shout, ← Store.wait_add]
  rfl

/-- Two bytes into a transaction. -/
theorem State.sel_addrLoB (hi lo : Byte) :
    (s.sel.xfer hi).xfer lo = s.amid (s.store.wait 33) ((s.smp.after hi 0).after lo 0)
      { s.dec with addr := addrOf hi lo, st := .bCmd } [0, 0] := by
  rw [State.sel_addrHiB hm hidle hi,
    State.amid_addrLoB lo (Store.wait_model hm 17) (Sampler.after_between _ _ _) rfl rfl, ← Store.wait_add]
  rfl

/-- The header of a transaction: three bytes, the first data byte primed on a read. -/
theorem State.sel_headerB (hi lo ctl : Byte) :
    ((s.sel.xfer hi).xfer lo).xfer ctl =
      s.amid (s.store.wait 49) (((s.smp.after hi 0).after lo 0).after ctl
          (if ctlWrite ctl then 0 else (s.store.wait 48).regionRead (ctlBsb ctl) (addrOf hi lo) 0))
        { s.dec with addr := addrOf hi lo, cmd := ctl, dir := if ctlWrite ctl then .write else .read, count := 0
                     st := .bData } [0, 0, 0] := by
  rw [State.sel_addrLoB hm hidle hi lo,
    State.amid_controlB ctl (Store.wait_model hm 33) (Sampler.after_between _ _ _) rfl, ← Store.wait_add,
    ← Store.wait_add]
  rfl

end

/-! ### The commit -/

/-- What the deselected tick commits is the staged burst, or nothing (R171). -/
theorem State.amid_commitB_write {s : State} {w : Store} {p : Sampler} {d : Decoder} {r : List Byte}
    (hd : d.st = .bData) (hdir : d.dir = .write) : (s.amid w p d r).commitB = w.flush d 0 d.count.toNat := by
  simp only [State.commitB, State.amid, hd, hdir]

theorem State.amid_commitB_none {s : State} {w : Store} {p : Sampler} {d : Decoder} {r : List Byte}
    (h : d.st ≠ .bData ∨ d.dir = .read) : (s.amid w p d r).commitB = w := by
  unfold State.commitB
  split
  next hst hdir =>
    rcases h with h | h
    · exact absurd hst h
    · cases h.symm.trans hdir
  · rfl

/-! ### Staging a burst (R177) -/

section
variable {cap : Nat} (d : Decoder)

/-- Staging has no part in what says where the burst goes. -/
theorem Decoder.stageByte_header (b : Byte) :
    let e := d.stageByte cap b
    e.st = d.st ∧ e.addr = d.addr ∧ e.cmd = d.cmd ∧ e.dir = d.dir := by
  unfold Decoder.stageByte
  split_ifs <;> exact ⟨rfl, rfl, rfl, rfl⟩

theorem Decoder.foldl_stageByte_header (bs : List Byte) :
    let e := bs.foldl (Decoder.stageByte cap) d
    e.st = d.st ∧ e.addr = d.addr ∧ e.cmd = d.cmd ∧ e.dir = d.dir := by
  induction bs generalizing d with
  | nil => exact ⟨rfl, rfl, rfl, rfl⟩
  | cons b bs ih =>
    obtain ⟨hst, haddr, hcmd, hdir⟩ := ih (d.stageByte cap b)
    obtain ⟨hst', haddr', hcmd', hdir'⟩ := d.stageByte_header (cap := cap) b
    exact ⟨hst.trans hst', haddr.trans haddr', hcmd.trans hcmd', hdir.trans hdir'⟩

/-- At the capacity every byte is dropped. -/
theorem Decoder.foldl_stageByte_full (bs : List Byte) (h : ¬ d.count.toNat < cap) :
    bs.foldl (Decoder.stageByte cap) d = d := by
  induction bs with
  | nil => rfl
  | cons b bs ih => rw [List.foldl_cons, Decoder.stageByte, if_neg h, ih]

/-- The bytes that fit are staged in order behind those already there, which stay. -/
theorem Decoder.foldl_stageByte_staged (bs : List Byte) (hcap : cap ≤ 65535) (hcount : d.count.toNat ≤ cap) :
    let e := bs.foldl (Decoder.stageByte cap) d
    e.count.toNat = d.count.toNat + (bs.take (cap - d.count.toNat)).length ∧
      (∀ i : Nat, i < d.count.toNat → e.staged i = d.staged i) ∧
      ∀ i : Nat, i < (bs.take (cap - d.count.toNat)).length →
        some (e.staged (d.count.toNat + i)) = (bs.take (cap - d.count.toNat))[i]? := by
  induction bs generalizing d with
  | nil => simp
  | cons b bs ih =>
    by_cases hlt : d.count.toNat < cap
    · have hcount' : (d.stageByte cap b).count.toNat = d.count.toNat + 1 := by
        rw [Decoder.stageByte, if_pos hlt]
        show (d.count + 1).toNat = _
        rw [BitVec.toNat_add, show (1 : Half).toNat = 1 from rfl]
        omega
      have hstaged' : ∀ i : Nat, (d.stageByte cap b).staged i = if i = d.count.toNat then b else d.staged i := by
        rw [Decoder.stageByte, if_pos hlt]
        exact fun i => Memory.read_write _ _ _ b i
      have htake : (b :: bs).take (cap - d.count.toNat) = b :: bs.take (cap - (d.count.toNat + 1)) := by
        rw [show cap - d.count.toNat = cap - (d.count.toNat + 1) + 1 by omega, List.take_succ_cons]
      obtain ⟨hlen, hkept, hnew⟩ := ih (d.stageByte cap b) (by omega)
      rw [hcount'] at hlen hkept hnew
      rw [htake, List.foldl_cons, List.length_cons]
      refine ⟨by omega, fun i hi => ?_, fun i hi => ?_⟩
      · rw [hkept i (by omega), hstaged' i, if_neg (by omega)]
      · cases i with
        | zero =>
          rw [Nat.add_zero, hkept _ (Nat.lt_succ_self _), hstaged', if_pos rfl]
          rfl
        | succ i =>
          rw [show d.count.toNat + (i + 1) = d.count.toNat + 1 + i by omega, hnew i (by omega)]
          rfl
    · rw [Decoder.foldl_stageByte_full d (b :: bs) hlt, show cap - d.count.toNat = 0 by omega]
      simp

end

/-- The data bytes of a write: each is staged, and zeros are read (R177, R180). -/
theorem State.amid_xfers_stageB {s : State} {cap : Nat} (ds : List Byte) {w : Store} {p : Sampler} {d : Decoder}
    {r : List Byte} (hm : w.cfg.model = .b) (hcap : w.cfg.stageCap = cap) (hp : p.Between) (hshout : p.shout = 0)
    (hd : d.st = .bData) (hdir : d.dir = .write) :
    ∃ q : Sampler, q.Between ∧ (s.amid w p d r).xfers ds =
      s.amid (w.wait (16 * ds.length)) q (ds.foldl (Decoder.stageByte cap) d) (r ++ List.replicate ds.length 0) := by
  induction ds generalizing w p d r with
  | nil => exact ⟨p, hp, by rw [State.xfers_nil, List.length_nil, List.replicate_zero, List.append_nil]; rfl⟩
  | cons b ds ih =>
    obtain ⟨hst', -, -, hdir'⟩ := d.stageByte_header (cap := cap) b
    obtain ⟨q, hq, hrest⟩ := ih (w := w.wait 16) (p := p.after b 0) (d := d.stageByte cap b) (r := r ++ [0])
      (Store.wait_model hm 16) ((congrArg Config.stageCap (w.wait_cfg 16)).trans hcap) (Sampler.after_between _ _ _) rfl
      (hst'.trans hd) (hdir'.trans hdir)
    refine ⟨q, hq, ?_⟩
    rw [State.xfers_cons, State.amid_stageB b hm hp hd hdir, hcap, hshout, hrest, ← Store.wait_add, List.append_assoc,
      List.length_cons, Nat.mul_succ, Nat.add_comm 16]
    rfl

/-- Settles O12: from the header on the bytes are staged, and the deselected tick flushes what is staged. -/
theorem bWriteCommitsOnDeselect : Obligations.BWriteCommitsOnDeselect := by
  intro s bsb mm a ds hm hcap hidle
  have hwrite : ctlWrite (ctlByte bsb true mm) = true := ctlWrite_ctlByte bsb true mm
  have hheader := State.sel_headerB hm hidle (hiByte a) (loByte a) (ctlByte bsb true mm)
  simp only [hwrite, if_true, addrOf_hi_lo] at hheader
  generalize hp : (((s.smp.after (hiByte a) 0).after (loByte a) 0).after (ctlByte bsb true mm) 0) = p at hheader
  generalize hdec : ({ s.dec with
    addr := a, cmd := ctlByte bsb true mm, dir := .write, count := 0, st := .bData } : Decoder) = d at hheader
  have hd : d.st = .bData ∧ d.dir = .write ∧ d.count = 0 ∧ d.addr = a ∧ d.cmd = ctlByte bsb true mm := by
    subst hdec
    exact ⟨rfl, rfl, rfl, rfl, rfl⟩
  obtain ⟨hst, hdir, hcount, haddr, hcmd⟩ := hd
  obtain ⟨q, hq, hdata⟩ := State.amid_xfers_stageB (s := s) (r := [0, 0, 0]) ds (Store.wait_model hm 49)
    (congrArg Config.stageCap (s.store.wait_cfg 49)) (hp ▸ Sampler.after_between _ _ _) (hp ▸ rfl) hst hdir
  obtain ⟨hst', haddr', hcmd', hdir'⟩ := d.foldl_stageByte_header (cap := s.store.cfg.stageCap) ds
  have hzero : d.count.toNat = 0 := congrArg BitVec.toNat hcount
  obtain ⟨hlen, -, hstaged⟩ := d.foldl_stageByte_staged ds hcap (hzero.le.trans (Nat.zero_le _))
  rw [hzero, Nat.sub_zero] at hlen hstaged
  generalize ds.foldl (Decoder.stageByte s.store.cfg.stageCap) d = e at hdata hst' haddr' hcmd' hdir' hlen hstaged
  have hcommit : ∀ w : Store, w.flush e 0 e.count.toNat = w.regionWrites bsb a 0 (ds.take s.store.cfg.stageCap) := by
    intro w
    rw [hlen, Nat.zero_add, Store.flush_eq_regionWrites w e 0 _ hstaged, hcmd', hcmd, ctlBsb_ctlByte, haddr', haddr]
  have hframe : s.runFrame (hiByte a :: loByte a :: ctlByte bsb true mm :: ds) = { s with
      store := ((s.store.wait (1 + 16 * (3 + ds.length))).regionWrites bsb a 0 (ds.take s.store.cfg.stageCap)).endTick
      smp := { Sampler.reset with rxByte := q.rxByte }
      dec := { s.dec with stage := e.stage }
      received := s.received ++ List.replicate (3 + ds.length) 0 } := by
    rw [State.runFrame_eq, State.xfers_cons, State.xfers_cons, State.xfers_cons, hheader, hdata, ← Store.wait_add,
      State.amid_desel_b hm hidle (Store.wait_model hm _) hq,
      State.amid_commitB_write (hst'.trans hst) (hdir'.trans hdir), hcommit,
      show 49 + 16 * ds.length = 1 + 16 * (3 + ds.length) by omega, List.replicate_add]
    rfl
  exact ⟨_, _, congrArg Host.Outcome.next hframe⟩

/-! ### Reading a burst (R175, R176) -/

/-- Byte `i` of a read burst begun at `st`: the region as the transfer before it left it. -/
def Store.burstByte (st : Store) (bsb : BitVec 5) (a : Half) (i : Nat) : Byte :=
  (st.wait (48 + 16 * i)).regionRead bsb a (BitVec.ofNat 16 i)

theorem Sampler.after_shout (p : Sampler) (v x : Byte) : (p.after v x).shout = x := rfl

theorem Store.burstByte_zero (st : Store) (bsb : BitVec 5) (a : Half) :
    st.burstByte bsb a 0 = (st.wait 48).regionRead bsb a 0 := by
  rw [Store.burstByte, Nat.mul_zero, Nat.add_zero]
  rfl

/-- The data bytes of a read from byte `j` on: each shifts out the byte primed one transfer earlier and primes the next
one. -/
theorem State.amid_xfers_readB {s : State} (hm : s.store.cfg.model = .b) (xs : List Byte) {j : Nat} {p : Sampler}
    {d : Decoder} {r : List Byte} (hp : p.Between) (hshout : p.shout = s.store.burstByte (ctlBsb d.cmd) d.addr j)
    (hd : d.st = .bData) (hdir : d.dir = .read) (hcount : d.count = BitVec.ofNat 16 j) :
    ∃ (q : Sampler) (count : Half), q.Between ∧ (s.amid (s.store.wait (49 + 16 * j)) p d r).xfers xs =
      s.amid (s.store.wait (49 + 16 * (j + xs.length))) q { d with count := count }
        (r ++ (List.range' j xs.length).map (s.store.burstByte (ctlBsb d.cmd) d.addr)) := by
  induction xs generalizing j p d r with
  | nil =>
    refine ⟨p, d.count, hp, ?_⟩
    rw [State.xfers_nil, List.length_nil, List.range'_zero, List.map_nil, List.append_nil, Nat.add_zero]
  | cons x xs ih =>
    have hnext : d.count + 1 = BitVec.ofNat 16 (j + 1) := by rw [hcount, BitVec.ofNat_add]; rfl
    have hprimed : (s.store.wait (49 + 16 * j + 15)).regionRead (ctlBsb d.cmd) d.addr (BitVec.ofNat 16 (j + 1)) =
        s.store.burstByte (ctlBsb d.cmd) d.addr (j + 1) := by
      rw [Store.burstByte, show 49 + 16 * j + 15 = 48 + 16 * (j + 1) by omega]
    obtain ⟨q, count, hq, hrest⟩ := ih (j := j + 1) (p := p.after x (s.store.burstByte (ctlBsb d.cmd) d.addr (j + 1)))
      (d := { d with count := BitVec.ofNat 16 (j + 1) }) (r := r ++ [p.shout]) (Sampler.after_between _ _ _) rfl hd hdir
      rfl
    refine ⟨q, count, hq, ?_⟩
    rw [State.xfers_cons, State.amid_readB x (Store.wait_model hm _) hp hd hdir, ← Store.wait_add, ← Store.wait_add,
      hnext, hprimed, show 49 + 16 * j + 16 = 49 + 16 * (j + 1) by omega, hrest, hshout, List.length_cons,
      List.range'_succ, List.map_cons, List.append_assoc, List.singleton_append, Nat.add_right_comm j 1,
      Nat.add_assoc j]

/-- Settles O13: the header primes the first byte, and nothing is staged to commit. -/
theorem bReadDeliversTheRegion : Obligations.BReadDeliversTheRegion := by
  intro s bsb mm a xs hm hidle
  have hread : ctlWrite (ctlByte bsb false mm) = false := ctlWrite_ctlByte bsb false mm
  have hheader := State.sel_headerB hm hidle (hiByte a) (loByte a) (ctlByte bsb false mm)
  simp only [hread, Bool.false_eq_true, if_false, addrOf_hi_lo] at hheader
  obtain ⟨q, count, hq, hdata⟩ := State.amid_xfers_readB hm xs (j := 0) (r := [0, 0, 0])
    (p := ((s.smp.after (hiByte a) 0).after (loByte a) 0).after (ctlByte bsb false mm)
      ((s.store.wait 48).regionRead (ctlBsb (ctlByte bsb false mm)) a 0))
    (d := { s.dec with addr := a, cmd := ctlByte bsb false mm, dir := .read, count := 0, st := .bData })
    (Sampler.after_between _ _ _) ((Sampler.after_shout _ _ _).trans (s.store.burstByte_zero _ a).symm)
    rfl rfl rfl
  rw [Nat.mul_zero, Nat.add_zero, Nat.zero_add] at hdata
  have hframe : s.runFrame (hiByte a :: loByte a :: ctlByte bsb false mm :: xs) = { s with
      store := s.store.wait (2 + 16 * (3 + xs.length))
      smp := { Sampler.reset with rxByte := q.rxByte }
      received := s.received ++ [0, 0, 0] ++ (List.range xs.length).map (s.store.burstByte bsb a) } := by
    rw [State.runFrame_eq, State.xfers_cons, State.xfers_cons, State.xfers_cons, hheader, hdata,
      State.amid_desel_b hm hidle (Store.wait_model hm _) hq, State.amid_commitB_none (Or.inr rfl), ← Store.wait_succ,
      ctlBsb_ctlByte, ← List.range_eq_range', show 49 + 16 * xs.length + 1 = 2 + 16 * (3 + xs.length) by omega,
      List.append_assoc]
  exact ⟨_, congrArg Host.Outcome.next hframe⟩

end Sys2Proof.Machine
end

section
/-! PROOF. In which ticks the decoder writes (R79, R150 to R157, R170), and what frames that end inside their first
transaction leave (R101, R161, R182). -/

namespace Sys2Proof.Machine

/-! ### Ticks in which the decoder writes nothing -/

section
variable (s : State)

theorem State.commandA_store (b : Byte) : (s.commandA b).store = s.store := by
  unfold State.commandA
  split_ifs <;> rfl

theorem State.stageB_store (b : Byte) : (s.stageB b).store = s.store := by
  unfold State.stageB
  split_ifs <;> rfl

/-- Of the rules of Model A that consume a byte, the data byte of a write alone reaches the store. -/
theorem State.byteA_store (h : s.dec.st ≠ .aData ∨ s.dec.dir = .read) : s.byteA.store = s.store := by
  unfold State.byteA
  cases hst : s.dec.st with
  | aWait => exact State.commandA_store _ _
  | aAddrHi | aAddrLo => rfl
  | aData =>
    have hdir : s.dec.dir = .read := h.resolve_left (not_not_intro hst)
    simp only [State.dataA, hdir]
  | bWait | bAddrLo | bCmd | bData => rfl

/-- No rule of Model B that consumes a byte reaches the store. -/
theorem State.byteB_store : s.byteB.store = s.store := by
  unfold State.byteB
  cases s.dec.st with
  | bWait | bAddrLo | bCmd => rfl
  | bData =>
    cases s.dec.dir with
    | read => rfl
    | write => exact State.stageB_store _ _
  | aWait | aAddrHi | aAddrLo | aData => rfl

theorem State.decoderStep_store_a (sel : Bool) (hm : s.store.cfg.model = .a)
    (h : sel = false ∨ s.smp.ready = false ∨ s.dec.st ≠ .aData ∨ s.dec.dir = .read) :
    (s.decoderStep sel).store = s.store := by
  unfold State.decoderStep State.decoderStepA
  rw [hm]
  split_ifs with hsel hready
  · rfl
  · rfl
  · refine s.byteA_store ((h.resolve_left fun hs => hsel (by rw [hs]; rfl)).resolve_left fun hr => hready ?_)
    rw [Sampler.isDataReady, hr]
    rfl

theorem State.decoderStep_store_b (hm : s.store.cfg.model = .b) : (s.decoderStep true).store = s.store := by
  unfold State.decoderStep
  rw [hm]
  show (if !s.smp.isDataReady then s else s.byteB).store = s.store
  split_ifs
  · rfl
  · exact s.byteB_store

theorem State.drive_store (l : Lines) :
    (s.drive l).store = (State.decoderStep { s with smp := s.smp.step l } (isSelected l)).store.endTick := rfl

theorem State.drive_store_confined (l : Lines)
    (h : (s.store.cfg.model = .a ∧
        (l.selN = true ∨ (s.smp.step l).ready = false ∨ s.dec.st ≠ .aData ∨ s.dec.dir = .read)) ∨
      (s.store.cfg.model = .b ∧ l.selN = false)) : (s.drive l).store = s.store.endTick := by
  rw [State.drive_store]
  rcases h with ⟨hm, h⟩ | ⟨hm, hsel⟩
  · have hsel : l.selN = true → isSelected l = false := fun hl => by rw [isSelected, hl]; rfl
    rw [State.decoderStep_store_a { s with smp := s.smp.step l } (isSelected l) hm (h.imp_left hsel)]
  · have hselected : isSelected l = true := by rw [isSelected, hsel]; rfl
    rw [hselected, State.decoderStep_store_b { s with smp := s.smp.step l } hm]

end

/-! ### Frames cut in their first transaction -/

/-- Bytes with no whole Model A transaction at their front are the front of a write or of a read. -/
theorem decodeA_error {bytes : List Byte} {e : DecodeError} (h : decodeA bytes = .error e) :
    bytes = [] ∨ ∃ (dir : Dir) (rest : List Byte), bytes = commandByte dir :: rest ∧ rest.length ≤ 2 := by
  have hshort : ∀ rest : List Byte, (∀ hi lo d more, rest = hi :: lo :: d :: more → False) → rest.length ≤ 2 := by
    intro rest hrest
    match rest with
    | [] | [_] | [_, _] => simp
    | hi :: lo :: d :: more => exact (hrest hi lo d more rfl).elim
  unfold decodeA at h
  split at h
  · exact Or.inl rfl
  next op rest =>
    split_ifs at h with hwrite hread
    · split at h
      · cases h
      next hrest => exact Or.inr ⟨.write, rest, by rw [hwrite]; rfl, hshort rest hrest⟩
    · split at h
      · cases h
      next hrest => exact Or.inr ⟨.read, rest, by rw [hread]; rfl, hshort rest hrest⟩

theorem decodeWholeA_cut {bytes : List Byte}
    (h : decodeWholeA bytes = .error .aborted ∨ decodeWholeA bytes = .error .empty) :
    bytes = [] ∨ ∃ (dir : Dir) (rest : List Byte), bytes = commandByte dir :: rest ∧ rest.length ≤ 2 := by
  unfold decodeWholeA at h
  split at h
  · rcases h with h | h <;> cases h
  · rcases h with h | h <;> cases h
  next e he => exact decodeA_error he

theorem decodeWholeB_cut {bytes : List Byte}
    (h : decodeWholeB bytes = .error .aborted ∨ decodeWholeB bytes = .error .empty) : bytes.length ≤ 2 := by
  match bytes with
  | [] | [_] | [_, _] => simp
  | hi :: lo :: ctl :: data =>
    simp only [decodeWholeB] at h
    split_ifs at h
    · rcases h with h | h <;> cases h
    · rcases h with h | h <;> cases h

/-- What a frame leaves whose bytes write nothing: its polls, zeros, its last byte. -/
def State.cut (s : State) (bytes : List Byte) : State := { s with
  store := s.store.wait (2 + 16 * bytes.length)
  smp := { Sampler.reset with rxByte := bytes.getLastD s.smp.rxByte }
  received := s.received ++ List.replicate bytes.length 0 }

section
variable {s : State} (hidle : s.BusIdle)
include hidle

/-- The front of a Model A transaction, select deasserted before its last byte. -/
theorem State.runFrame_cut_a (hm : s.store.cfg.model = .a) (dir : Dir) {rest : List Byte} (h : rest.length ≤ 2) :
    s.runFrame (commandByte dir :: rest) = s.cut (commandByte dir :: rest) := by
  have hdesel : ∀ (k : Nat) (p : Sampler) (st : DecSt) (addr : Half) (r : List Byte), p.Between →
      (s.amid (s.store.wait k) p { s.dec with cmd := commandByte dir, dir := dir, addr := addr, st := st } r).desel =
        { s with
          smp := { Sampler.reset with rxByte := p.rxByte }, store := s.store.wait (k + 1)
          received := s.received ++ r } := by
    intro k p st addr r hp
    rw [Store.wait_succ, State.amid_desel_a hm hidle (Store.wait_model hm k) hp]
  match rest with
  | [] =>
    rw [State.runFrame_eq, State.xfers_cons, State.xfers_nil, State.sel_commandA hm hidle dir]
    exact hdesel 17 _ _ _ _ (Sampler.after_between _ _ _)
  | [hi] =>
    rw [State.runFrame_eq, State.xfers_cons, State.xfers_cons, State.xfers_nil, State.sel_addrHiA hm hidle dir hi]
    exact hdesel 33 _ _ _ _ (Sampler.after_between _ _ _)
  | [hi, lo] =>
    rw [State.runFrame_eq, State.xfers_cons, State.xfers_cons, State.xfers_cons, State.xfers_nil,
      State.sel_headerA hm hidle dir hi lo]
    exact hdesel 49 _ _ _ _ (Sampler.after_between _ _ _)

theorem State.runFrame_nil_a (hm : s.store.cfg.model = .a) : s.runFrame [] = s.cut [] := by
  have hdesel := State.amid_desel_a hm hidle (st := .aWait) (addr := 0) (cmd := 0) (dir := .read) (r := [])
    (Store.wait_model hm 1) hidle.between
  rw [hidle.dec_eq_a hm, ← Store.wait_succ] at hdesel
  rw [State.runFrame_eq, State.xfers_nil, hidle.sel]
  exact hdesel

/-- The front of a Model B header. -/
theorem State.runFrame_cut_b (hm : s.store.cfg.model = .b) {bytes : List Byte} (h : bytes.length ≤ 2) :
    s.runFrame bytes = s.cut bytes := by
  have hdesel : ∀ (k : Nat) (p : Sampler) (d : Decoder) (r : List Byte), p.Between → d.st ≠ .bData →
      d.stage = s.dec.stage → (s.amid (s.store.wait k) p d r).desel =
        { s with
          smp := { Sampler.reset with rxByte := p.rxByte }, store := s.store.wait (k + 1)
          received := s.received ++ r } := by
    intro k p d r hp hst hstage
    rw [Store.wait_succ, State.amid_desel_b hm hidle (Store.wait_model hm k) hp,
      State.amid_commitB_none (Or.inl hst), hstage]
  match bytes with
  | [] =>
    rw [State.runFrame_eq, State.xfers_nil, hidle.sel]
    exact hdesel 1 _ _ _ hidle.between (by rw [State.BusIdle.st_bWait hm hidle]; decide) rfl
  | [hi] =>
    rw [State.runFrame_eq, State.xfers_cons, State.xfers_nil, State.sel_addrHiB hm hidle hi]
    exact hdesel 17 _ _ _ (Sampler.after_between _ _ _) nofun rfl
  | [hi, lo] =>
    rw [State.runFrame_eq, State.xfers_cons, State.xfers_cons, State.xfers_nil, State.sel_addrLoB hm hidle hi lo]
    exact hdesel 33 _ _ _ (Sampler.after_between _ _ _) nofun rfl

/-- A frame that is cut or empty leaves its polls, zeros and its last byte. -/
theorem State.runFrame_cut {bytes : List Byte} (h : decode s.store.cfg .bus bytes = .error .aborted ∨
    decode s.store.cfg .bus bytes = .error .empty) : s.runFrame bytes = s.cut bytes := by
  cases hm : s.store.cfg.model with
  | a =>
    rw [decode_bus_a hm] at h
    rcases decodeWholeA_cut h with rfl | ⟨dir, rest, rfl, hlen⟩
    · exact State.runFrame_nil_a hidle hm
    · exact State.runFrame_cut_a hidle hm dir hlen
  | b =>
    rw [decode_bus_b hm] at h
    exact State.runFrame_cut_b hidle hm (decodeWholeB_cut h)

end

/-- Settles O16: tick by tick for the first clause, by the length of the cut frame for the second. -/
theorem decoderWritesAreConfined : Obligations.DecoderWritesAreConfined := by
  refine ⟨State.drive_store_confined, fun s bytes rest hidle hbus herror => ?_⟩
  have htaken : State.BusIdle { s with bus := rest } := hidle
  rw [step_of_frame hbus, State.runFrame_cut htaken herror]
  rfl

end Sys2Proof.Machine
end
